-- ==== Sys2Proof/Word.lean ====
section
/-! DEFINITION. The word types of the block: a command word and a general register are 32 bits wide
(spec/10_state.md R31, spec/30_encoding.md R100). -/

namespace Sys2Proof

/-- A general register's contents, a command word, a window register's value (R31, R71, R100). -/
abbrev Word := BitVec 32

/-- A bit string, front (most significant bit) first (spec/00_scope.md R13). -/
abbrev BitString := List Bool

end Sys2Proof
end

