-- ==== Sys2Proof/Syntax.lean ====
section
/-! DEFINITION. The command set S39C rev 1: register names and one constructor of `Instr` per row of
spec/opcode_table.json (spec/30_encoding.md R105). -/

namespace Sys2Proof

/-- A general register number (R104). -/
inductive Reg where
  | r0 | r1 | r2 | r3 | r4 | r5 | r6 | r7
deriving DecidableEq, Repr

/-- A command. Operands stand in the order of the table's syntax column (R105). An immediate is the
unsigned value of the 15-bit field IMM (R103); `WellFormed.lean` checks its range. -/
inductive Instr where
  /-- LI rd, imm (R130) -/
  | li (rd : Reg) (imm : Nat)
  /-- MOV rd, rs1 (R131) -/
  | mov (rd rs1 : Reg)
  /-- SETB imm (R150) -/
  | setb (imm : Nat)
  /-- SETT rs1 (R201) -/
  | sett (rs1 : Reg)
  /-- GADD rd, rs1, rs2 (R152) -/
  | gadd (rd rs1 rs2 : Reg)
  /-- GMUL rd, rs1, rs2 (R154) -/
  | gmul (rd rs1 rs2 : Reg)
  /-- GINV rd, rs1 (R156) -/
  | ginv (rd rs1 : Reg)
  /-- GPOW rd, rs1, rs2 (R158) -/
  | gpow (rd rs1 rs2 : Reg)
  /-- GLOG rd, rs1 (R160) -/
  | glog (rd rs1 : Reg)
  /-- GEXP rd, rs1 (R162) -/
  | gexp (rd rs1 : Reg)
  /-- CCLR (R203) -/
  | cclr
  /-- CPUSH rs1 (R205) -/
  | cpush (rs1 : Reg)
  /-- CRAND (R207) -/
  | crand
  /-- EVAL rd, rs1 (R210) -/
  | eval (rd rs1 : Reg)
  /-- SCLR (R252) -/
  | sclr
  /-- SADD rs1, rs2 (R255) -/
  | sadd (rs1 rs2 : Reg)
  /-- INTERP rd, rs1 (R260) -/
  | interp (rd rs1 : Reg)
  /-- BCLR (R290) -/
  | bclr
  /-- BPUSHH rs1 (R292) -/
  | bpushh (rs1 : Reg)
  /-- BPOPH rd (R294) -/
  | bpoph (rd : Reg)
  /-- BPUSHE rs1 (R296) -/
  | bpushe (rs1 : Reg)
  /-- BPOPE rd (R298) -/
  | bpope (rd : Reg)
  /-- BLPAD imm (R300) -/
  | blpad (imm : Nat)
  /-- BALIGN imm (R302) -/
  | balign (imm : Nat)
  /-- BTRIM imm (R304) -/
  | btrim (imm : Nat)
  /-- BSENT (R306) -/
  | bsent
  /-- BSTRIP (R308) -/
  | bstrip
  /-- BPUSHW rs1 (R350) -/
  | bpushw (rs1 : Reg)
  /-- BPOPW rd (R352) -/
  | bpopw (rd : Reg)
  /-- PENC rs1, rs2 (R354) -/
  | penc (rs1 rs2 : Reg)
  /-- PDEC rd (R358) -/
  | pdec (rd : Reg)
deriving DecidableEq, Repr

end Sys2Proof
end

