-- ==== Sys2Proof/WellFormed.lean ====
section
/-! DEFINITION. Which terms of `Instr` are commands: an immediate fits the 15 bits of IMM, 0..32767
(spec/30_encoding.md R103, R110). Register numbers are in range by their type (R104). Whether a VALUE
is legal (a width, a group width) is the command's own check, not an encoding error (R103). -/

namespace Sys2Proof

/-- IMM is a 15-bit unsigned value (R103). -/
def immFits (imm : Nat) : Bool := imm < 2 ^ 15

/-- A command that the encoding of R101 can spell. -/
def Instr.wellFormed : Instr → Bool
  | .li _ imm => immFits imm
  | .mov _ _ => true
  | .setb imm => immFits imm
  | .sett _ => true
  | .gadd _ _ _ => true
  | .gmul _ _ _ => true
  | .ginv _ _ => true
  | .gpow _ _ _ => true
  | .glog _ _ => true
  | .gexp _ _ => true
  | .cclr => true
  | .cpush _ => true
  | .crand => true
  | .eval _ _ => true
  | .sclr => true
  | .sadd _ _ => true
  | .interp _ _ => true
  | .bclr => true
  | .bpushh _ => true
  | .bpoph _ => true
  | .bpushe _ => true
  | .bpope _ => true
  | .blpad imm => immFits imm
  | .balign imm => immFits imm
  | .btrim imm => immFits imm
  | .bsent => true
  | .bstrip => true
  | .bpushw _ => true
  | .bpopw _ => true
  | .penc _ _ => true
  | .pdec _ => true

end Sys2Proof
end

