-- ==== Sys2Proof/Decode.lean ====
section
/-! DEFINITION. The command word (spec/30_encoding.md R100 to R107): its fields, the decoder, the
encoder, and the host's table entry point. Decoding depends on the word alone (R107). -/

namespace Sys2Proof

/-- The register a 3-bit field names; all eight numbers are valid (R104). -/
def Reg.ofBits (f : BitVec 3) : Reg :=
  match f.toNat with
  | 0 => .r0
  | 1 => .r1
  | 2 => .r2
  | 3 => .r3
  | 4 => .r4
  | 5 => .r5
  | 6 => .r6
  | _ => .r7

/-- A register's number (R104). -/
def Reg.bits : Reg → BitVec 3
  | .r0 => 0#3
  | .r1 => 1#3
  | .r2 => 2#3
  | .r3 => 3#3
  | .r4 => 4#3
  | .r5 => 5#3
  | .r6 => 6#3
  | .r7 => 7#3

/-- OP, bits 31:24 (R101). -/
def fieldOp (w : Word) : BitVec 8 := w.extractLsb' 24 8
/-- RD, bits 23:21 (R101). -/
def fieldRd (w : Word) : BitVec 3 := w.extractLsb' 21 3
/-- RS1, bits 20:18 (R101). -/
def fieldRs1 (w : Word) : BitVec 3 := w.extractLsb' 18 3
/-- RS2, bits 17:15 (R101). -/
def fieldRs2 (w : Word) : BitVec 3 := w.extractLsb' 15 3
/-- IMM, bits 14:0 (R101). -/
def fieldImm (w : Word) : BitVec 15 := w.extractLsb' 0 15

/-- Why a word is no command; either way it is an IllegalCommandError (R106). -/
inductive DecodeError where
  /-- The opcode is not in the table of R105. -/
  | unassignedOpcode (op : BitVec 8)
  /-- A field that the opcode does not use is not zero (R102). -/
  | nonzeroUnusedField (op : BitVec 8)
deriving DecidableEq, Repr

/-- `i`, if every field that the opcode does not use is zero (R102). -/
def unusedZero (op : BitVec 8) (zero : Bool) (i : Instr) : Except DecodeError Instr :=
  if zero then .ok i else .error (.nonzeroUnusedField op)

/-- The decoder (R105, R106, R108): total, and a word that is no command is rejected by name. -/
def decode (w : Word) : Except DecodeError Instr :=
  let op := fieldOp w
  let rd := fieldRd w
  let rs1 := fieldRs1 w
  let rs2 := fieldRs2 w
  let imm := fieldImm w
  let noRd := rd == 0#3
  let noRs1 := rs1 == 0#3
  let noRs2 := rs2 == 0#3
  let noImm := imm == 0#15
  let d := Reg.ofBits rd
  let a := Reg.ofBits rs1
  let c := Reg.ofBits rs2
  let n := imm.toNat
  match op.toNat with
  | 0x01 => unusedZero op (noRs1 && noRs2) (.li d n)
  | 0x02 => unusedZero op (noRs2 && noImm) (.mov d a)
  | 0x03 => unusedZero op (noRd && noRs1 && noRs2) (.setb n)
  | 0x04 => unusedZero op (noRd && noRs2 && noImm) (.sett a)
  | 0x10 => unusedZero op noImm (.gadd d a c)
  | 0x11 => unusedZero op noImm (.gmul d a c)
  | 0x12 => unusedZero op (noRs2 && noImm) (.ginv d a)
  | 0x13 => unusedZero op noImm (.gpow d a c)
  | 0x14 => unusedZero op (noRs2 && noImm) (.glog d a)
  | 0x15 => unusedZero op (noRs2 && noImm) (.gexp d a)
  | 0x20 => unusedZero op (noRd && noRs1 && noRs2 && noImm) .cclr
  | 0x21 => unusedZero op (noRd && noRs2 && noImm) (.cpush a)
  | 0x22 => unusedZero op (noRd && noRs1 && noRs2 && noImm) .crand
  | 0x23 => unusedZero op (noRs2 && noImm) (.eval d a)
  | 0x30 => unusedZero op (noRd && noRs1 && noRs2 && noImm) .sclr
  | 0x31 => unusedZero op (noRd && noImm) (.sadd a c)
  | 0x32 => unusedZero op (noRs2 && noImm) (.interp d a)
  | 0x40 => unusedZero op (noRd && noRs1 && noRs2 && noImm) .bclr
  | 0x41 => unusedZero op (noRd && noRs2 && noImm) (.bpushh a)
  | 0x42 => unusedZero op (noRs1 && noRs2 && noImm) (.bpoph d)
  | 0x43 => unusedZero op (noRd && noRs2 && noImm) (.bpushe a)
  | 0x44 => unusedZero op (noRs1 && noRs2 && noImm) (.bpope d)
  | 0x45 => unusedZero op (noRd && noRs1 && noRs2) (.blpad n)
  | 0x46 => unusedZero op (noRd && noRs1 && noRs2) (.balign n)
  | 0x47 => unusedZero op (noRd && noRs1 && noRs2) (.btrim n)
  | 0x48 => unusedZero op (noRd && noRs1 && noRs2 && noImm) .bsent
  | 0x49 => unusedZero op (noRd && noRs1 && noRs2 && noImm) .bstrip
  | 0x50 => unusedZero op (noRd && noRs2 && noImm) (.bpushw a)
  | 0x51 => unusedZero op (noRs1 && noRs2 && noImm) (.bpopw d)
  | 0x52 => unusedZero op (noRd && noImm) (.penc a c)
  | 0x53 => unusedZero op (noRs1 && noRs2 && noImm) (.pdec d)
  | _ => .error (.unassignedOpcode op)

/-- The word of five fields, `OP·2^24 + RD·2^21 + RS1·2^18 + RS2·2^15 + IMM` (R101). -/
def packWord (op : BitVec 8) (rd rs1 rs2 : BitVec 3) (imm : BitVec 15) : Word :=
  op ++ rd ++ rs1 ++ rs2 ++ imm

/-- The word of a command, with the fields it does not use zero (R101, R105, R110). -/
def encode : Instr → Word
  | .li rd imm => packWord 0x01#8 rd.bits 0#3 0#3 (BitVec.ofNat 15 imm)
  | .mov rd rs1 => packWord 0x02#8 rd.bits rs1.bits 0#3 0#15
  | .setb imm => packWord 0x03#8 0#3 0#3 0#3 (BitVec.ofNat 15 imm)
  | .sett rs1 => packWord 0x04#8 0#3 rs1.bits 0#3 0#15
  | .gadd rd rs1 rs2 => packWord 0x10#8 rd.bits rs1.bits rs2.bits 0#15
  | .gmul rd rs1 rs2 => packWord 0x11#8 rd.bits rs1.bits rs2.bits 0#15
  | .ginv rd rs1 => packWord 0x12#8 rd.bits rs1.bits 0#3 0#15
  | .gpow rd rs1 rs2 => packWord 0x13#8 rd.bits rs1.bits rs2.bits 0#15
  | .glog rd rs1 => packWord 0x14#8 rd.bits rs1.bits 0#3 0#15
  | .gexp rd rs1 => packWord 0x15#8 rd.bits rs1.bits 0#3 0#15
  | .cclr => packWord 0x20#8 0#3 0#3 0#3 0#15
  | .cpush rs1 => packWord 0x21#8 0#3 rs1.bits 0#3 0#15
  | .crand => packWord 0x22#8 0#3 0#3 0#3 0#15
  | .eval rd rs1 => packWord 0x23#8 rd.bits rs1.bits 0#3 0#15
  | .sclr => packWord 0x30#8 0#3 0#3 0#3 0#15
  | .sadd rs1 rs2 => packWord 0x31#8 0#3 rs1.bits rs2.bits 0#15
  | .interp rd rs1 => packWord 0x32#8 rd.bits rs1.bits 0#3 0#15
  | .bclr => packWord 0x40#8 0#3 0#3 0#3 0#15
  | .bpushh rs1 => packWord 0x41#8 0#3 rs1.bits 0#3 0#15
  | .bpoph rd => packWord 0x42#8 rd.bits 0#3 0#3 0#15
  | .bpushe rs1 => packWord 0x43#8 0#3 rs1.bits 0#3 0#15
  | .bpope rd => packWord 0x44#8 rd.bits 0#3 0#3 0#15
  | .blpad imm => packWord 0x45#8 0#3 0#3 0#3 (BitVec.ofNat 15 imm)
  | .balign imm => packWord 0x46#8 0#3 0#3 0#3 (BitVec.ofNat 15 imm)
  | .btrim imm => packWord 0x47#8 0#3 0#3 0#3 (BitVec.ofNat 15 imm)
  | .bsent => packWord 0x48#8 0#3 0#3 0#3 0#15
  | .bstrip => packWord 0x49#8 0#3 0#3 0#3 0#15
  | .bpushw rs1 => packWord 0x50#8 0#3 rs1.bits 0#3 0#15
  | .bpopw rd => packWord 0x51#8 rd.bits 0#3 0#3 0#15
  | .penc rs1 rs2 => packWord 0x52#8 0#3 rs1.bits rs2.bits 0#15
  | .pdec rd => packWord 0x53#8 rd.bits 0#3 0#3 0#15

/-- The command of the table's word: the low `nbits` bits of `w`, every bit above them zero. The block
has one word per command and no byte order (R87, R100), so the word is laid out as it stands. -/
def decodeTableWord (nbits w : Nat) : Option Instr :=
  match decode (BitVec.ofNat 32 (w % 2 ^ nbits)) with
  | .ok i => some i
  | .error _ => none

/-- The mask of a command's row: OP and every field its opcode does not use (R105). -/
def rowMask (usesRd usesRs1 usesRs2 usesImm : Bool) : Word :=
  0xFF000000#32 ||| (if usesRd then 0#32 else 0x00E00000#32)
    ||| (if usesRs1 then 0#32 else 0x001C0000#32)
    ||| (if usesRs2 then 0#32 else 0x00038000#32)
    ||| (if usesImm then 0#32 else 0x00007FFF#32)

/-- A row of the opcode map: the mask and the match value OP·2^24 (R105). -/
def opcodeRow (op : BitVec 8) (usesRd usesRs1 usesRs2 usesImm : Bool) : Word × Word :=
  (rowMask usesRd usesRs1 usesRs2 usesImm, op ++ 0#24)

/-- The opcode map of R105, which fields of RD, RS1, RS2, IMM each opcode uses: written from the table's
*fields* column and not from the decoder. -/
def opcodeRows : List (Word × Word) :=
  [ opcodeRow 0x01#8 true false false true,
    opcodeRow 0x02#8 true true false false,
    opcodeRow 0x03#8 false false false true,
    opcodeRow 0x04#8 false true false false,
    opcodeRow 0x10#8 true true true false,
    opcodeRow 0x11#8 true true true false,
    opcodeRow 0x12#8 true true false false,
    opcodeRow 0x13#8 true true true false,
    opcodeRow 0x14#8 true true false false,
    opcodeRow 0x15#8 true true false false ] ++
  [ opcodeRow 0x20#8 false false false false,
    opcodeRow 0x21#8 false true false false,
    opcodeRow 0x22#8 false false false false,
    opcodeRow 0x23#8 true true false false,
    opcodeRow 0x30#8 false false false false,
    opcodeRow 0x31#8 false true true false,
    opcodeRow 0x32#8 true true false false ] ++
  [ opcodeRow 0x40#8 false false false false,
    opcodeRow 0x41#8 false true false false,
    opcodeRow 0x42#8 true false false false,
    opcodeRow 0x43#8 false true false false,
    opcodeRow 0x44#8 true false false false,
    opcodeRow 0x45#8 false false false true,
    opcodeRow 0x46#8 false false false true,
    opcodeRow 0x47#8 false false false true,
    opcodeRow 0x48#8 false false false false,
    opcodeRow 0x49#8 false false false false,
    opcodeRow 0x50#8 false true false false,
    opcodeRow 0x51#8 true false false false,
    opcodeRow 0x52#8 false true true false,
    opcodeRow 0x53#8 true false false false ]

/-- A word some row of the opcode map matches (R105). -/
def isCommandWord (w : Word) : Bool := opcodeRows.any fun row => w &&& row.1 == row.2

end Sys2Proof
end

