-- ==== Sys2Proof/Machine/Bits.lean ====
section
/-! DEFINITION. Bit strings (spec/00_scope.md R13): most significant bit first. -/

namespace Sys2Proof.Machine

/-- `val(s)`, the unsigned integer the string spells; 0 for the empty string (R13). -/
def bitsVal : BitString → Nat
  | [] => 0
  | bit :: rest => bit.toNat * 2 ^ rest.length + bitsVal rest

/-- `bits_n(v)`, the n-bit string whose val is v, leading zeros kept (R13). -/
def bitsOf : Nat → Nat → BitString
  | 0, _ => []
  | n + 1, v => v.testBit n :: bitsOf n v

/-- `zeros(n)` (R13). -/
def zeroBits (n : Nat) : BitString := List.replicate n false

/-- `takeR(n, s)`, the last n bits (R13). -/
def takeBack (n : Nat) (s : BitString) : BitString := s.drop (s.length - n)

/-- `dropR(n, s)`, all but the last n bits (R13). -/
def dropBack (n : Nat) (s : BitString) : BitString := s.take (s.length - n)

/-- `bitlength(v)`: 0 for 0, else floor(log2 v) + 1 (spec/45_mnemonic.md R354). -/
def bitLength (v : Nat) : Nat := if v = 0 then 0 else Nat.log2 v + 1

end Sys2Proof.Machine
end

