-- ==== Sys2Proof/Config.lean ====
section
/-! DEFINITION. The implementation parameters of spec/00_scope.md R11 at this hardware's values, and
the free values. The configuration parameter PRIM is data of the machine, `State.prim`; its default table
is `defaultPrimTable` of Sys2Proof/Machine/Field.lean. -/

namespace Sys2Proof.Config

/-- Least legal field width (R7, R11). -/
def bMin : Nat := 3
/-- Greatest legal field width (R7, R11). -/
def bMax : Nat := 20
/-- The format's field width, the reset value of B (R8, R11). -/
def bFormat : Nat := 8
/-- Least legal threshold (R10). -/
def threshMin : Nat := 2
/-- Greatest legal threshold (R10, R11). -/
def threshMax : Nat := 4095
/-- Coefficient buffer entries (R11). CPUSH and CRAND stop at THRESH, which is at most this.
Mark: DESIGN CHOICE, safe: the OPEN capacities stand at the hardware's values (log 9). -/
def coefCap : Nat := 4095
/-- Sample buffer entries (R11). -/
def sampleCap : Nat := 4095
/-- Bit buffer capacity in bits (R11). -/
def bbCap : Nat := 4096
/-- Bits per mnemonic word index (R11). -/
def wordBits : Nat := 11
/-- Bits per parameter-block group (R11). -/
def groupBits : Nat := 5
/-- Most words a parameter block may take (R11). -/
def paramMaxWords : Nat := 3
/-- Size of the register window in bytes (R11, R70). -/
def windowBytes : Nat := 256
/-- The constant that ID reads as (spec/20_memory.md R72). -/
def idValue : Word := 0x53333901#32

/-- FREE VALUE: what the insecure default generator yields, 20 bits of which a draw uses the low B
(R44, R453, 93 U1: any value). `n` counts the draws made since the model's first state. It has no
body, so nothing is known of any draw. Log 3. -/
opaque defaultDraw (n : Nat) : BitVec 20

/-- OPEN platform parameter S39_BASE, the host bus address of the window (R70, P1). Log 14. -/
opaque s39Base : Nat

end Sys2Proof.Config
end

