-- ==== Sys2Proof/Machine/Field.lean ====
section
/-! DEFINITION. GF(2^b) on exp and log tables (spec/41_gf.md R140 to R146). Field elements are the
integers 0..2^b - 1. The primitive polynomial is an argument of every function (R9, D4); the block
takes it from the table in its state (`State.prim`). -/

namespace Sys2Proof.Machine

/-- A field: its width b and the low-order bits PRIM(b) of its primitive polynomial x^b + PRIM(b)
(R9, R141). -/
structure FieldParams where
  width : Nat
  prim : Nat
deriving DecidableEq, Repr

/-- A table of the configuration parameter PRIM: pairs (b, PRIM(b)) (R9, D4, 93 U5). -/
abbrev PrimTable := List (Nat × Nat)

/-- The default table PRIM(b) for b = 3..20 (R141). Other widths have no entry: SETB rejects them. -/
def defaultPrimTable : PrimTable :=
  [(3, 3), (4, 3), (5, 5), (6, 3), (7, 3), (8, 29), (9, 17), (10, 9), (11, 5), (12, 83), (13, 27),
    (14, 43), (15, 3), (16, 45), (17, 9), (18, 39), (19, 39), (20, 9)]

/-- PRIM(b) of a table. A width without an entry gets 0, which no run of a block whose table covers
3..20 reads. Mark: DESIGN CHOICE, safe (log 10). -/
def primOf (table : PrimTable) (b : Nat) : Nat := (table.lookup b).getD 0

/-- The field of width b of a block with this table (R141). -/
def fieldOf (table : PrimTable) (b : Nat) : FieldParams := ⟨b, primOf table b⟩

/-- MAX = 2^b - 1 (R142). -/
def fieldMax (F : FieldParams) : Nat := 2 ^ F.width - 1

/-- One turn of the table loop: from `exp[i]` to `exp[i+1]` (R142). -/
def expStep (F : FieldParams) (v : Nat) : Nat :=
  if 2 ^ F.width ≤ 2 * v then (2 * v ^^^ F.prim) &&& fieldMax F else 2 * v

/-- `exp[i]` of the table loop, which starts at 1 (R142). -/
def expEntry (F : FieldParams) (i : Nat) : Nat := (expStep F)^[i] 1

/-- EXP(i) = exp[i mod MAX] (R142). -/
def gfExp (F : FieldParams) (i : Nat) : Nat := expEntry F (i % fieldMax F)

/-- Search of the exp table from entry `i`, whose value is `v`, through `fuel` entries. -/
def logSearch (F : FieldParams) (a : Nat) : (fuel i v : Nat) → Option Nat
  | 0, _, _ => none
  | fuel + 1, i, v => if v = a then some i else logSearch F a fuel (i + 1) (expStep F v)

/-- The i in 0..MAX-1 with exp[i] = a, if there is one (R143). -/
def gfLog? (F : FieldParams) (a : Nat) : Option Nat := logSearch F a (fieldMax F) 0 1

/-- LOG(a) (R143). No command takes it of 0 or of a number that is no field element; there it is 0,
which no rule of the spec reads. Mark: DESIGN CHOICE, safe (log 10). -/
def gfLog (F : FieldParams) (a : Nat) : Nat := (gfLog? F a).getD 0

/-- Field multiplication in the log domain; 0 is short-circuited (R144). -/
def gfMul (F : FieldParams) (a c : Nat) : Nat :=
  if a = 0 ∨ c = 0 then 0 else gfExp F ((gfLog F a + gfLog F c) % fieldMax F)

/-- The inverse of a nonzero element (R156). -/
def gfInv (F : FieldParams) (a : Nat) : Nat := gfExp F ((fieldMax F - gfLog F a) % fieldMax F)

/-- The n-th power; 0^0 = 1 (R158). -/
def gfPow (F : FieldParams) (a n : Nat) : Nat :=
  if a = 0 then (if n = 0 then 1 else 0)
  else gfExp F ((gfLog F a * (n % fieldMax F)) % fieldMax F)

/-- The evaluator's loop: `fx <- gmul(fx, x) XOR c[i]` from the last coefficient down to c[0] (R210). -/
def horner (F : FieldParams) (x : Nat) (coef : List Nat) : Nat :=
  coef.foldr (fun c fx => gfMul F fx x ^^^ c) 0

/-- The inner loop of INTERP over the other samples: the log of sample i's term, or none where the
target equals another sample's x (R260, R263). MAX is added before LOG(x_i XOR x_j) is taken away, so
that no intermediate value is negative (R145). -/
def lagrangeLog (F : FieldParams) (t xi : Nat) : List (Nat × Nat) → Nat → Option Nat
  | [], product => some product
  | (xj, _) :: others, product =>
    if t = xj then none
    else lagrangeLog F t xi others
      ((product + gfLog F (t ^^^ xj) + fieldMax F - gfLog F (xi ^^^ xj)) % fieldMax F)

/-- What sample (x_i, y_i) adds to the sum: nothing where y_i = 0 or the term is zero (R260, R263). -/
def lagrangeTerm (F : FieldParams) (t : Nat) (sample : Nat × Nat) (others : List (Nat × Nat)) : Nat :=
  if sample.2 = 0 then 0
  else match lagrangeLog F t sample.1 others (gfLog F sample.2) with
    | none => 0
    | some product => gfExp F product

/-- INTERP's sum over the samples, in order; the others of sample i are all samples but the i-th (R260). -/
def interpolate (F : FieldParams) (samples : List (Nat × Nat)) (t : Nat) : Nat :=
  samples.zipIdx.foldl (fun sum p => sum ^^^ lagrangeTerm F t p.1 (samples.eraseIdx p.2)) 0

end Sys2Proof.Machine
end

