-- ==== Sys2Proof/Machine/State.lean ====
section
/-! DEFINITION. The architectural state of the block (spec/10_state.md R30), the inputs it is driven
by, the reasons a step can stop, and the state after reset (spec/70_reset_and_hazards.md R452). -/

namespace Sys2Proof.Machine

/-- The eight general registers (R31). -/
structure Regs where
  r0 : Word
  r1 : Word
  r2 : Word
  r3 : Word
  r4 : Word
  r5 : Word
  r6 : Word
  r7 : Word
deriving DecidableEq, Repr

/-- The error classes (R401). -/
inductive ErrorClass where
  /-- code 1, raised by the block (R402) -/
  | validation
  /-- code 2, the host's only (R408) -/
  | unknownWord
  /-- code 3, the host's only (R408) -/
  | versionMismatch
  /-- code 4, the host's only (R408) -/
  | parameterMismatch
  /-- code 5, raised by INTERP (R403) -/
  | insufficientShares
  /-- code 6, raised by SETB (R404) -/
  | config
  /-- code 7, raised by GINV and GLOG (R405) -/
  | domain
  /-- code 8, a buffer would overflow or a pop finds too few bits (R406) -/
  | capacity
  /-- code 9, an illegal word (R407) -/
  | illegalCommand
deriving DecidableEq, Repr

/-- One input of the block, in the order the outside issues them (spec/60_exceptions.md R425). A host
access names its offset in the window, its width in bytes and, for a write, the 32 data bits.
Mark: DESIGN CHOICE (log 1). -/
inductive Input where
  /-- a host read of `bytes` bytes at the offset (R82) -/
  | read (offset : BitVec 8) (bytes : Nat)
  /-- a host write of `bytes` bytes at the offset (R82) -/
  | write (offset : BitVec 8) (bytes : Nat) (value : Word)
  /-- the reset input RST is asserted (R450) -/
  | rst
  /-- ENT_PRESENT takes this level (R44) -/
  | entLevel (present : Bool)
  /-- ENT_VALID = 1 with this ENT_DATA (R425) -/
  | entReply (data : BitVec 20)
deriving DecidableEq, Repr

/-- The block's response to one host access (R82, R425). Mark: DESIGN CHOICE (log 12). -/
inductive BusReply where
  /-- read data -/
  | data (v : Word)
  /-- a write was performed -/
  | written
  /-- the bus error response of R82 -/
  | busError
deriving DecidableEq, Repr

/-- The command in progress while BUSY = 1 (R45): only a CRAND can wait, for values of the entropy
port (R44). Its temporaries are the number of values still needed and the values delivered. -/
structure WaitingCrand where
  need : Nat
  got : List Nat
deriving DecidableEq, Repr

/-- Why a step can stop. -/
inductive Fault where
  /-- A CRAND waits for the entropy port and no input can be performed: only held accesses, or none,
  are left. Raised by `step` alone. The spec calls this state stuck until reset (R464, 93 U8). Safe:
  the machine stops where the hardware stays busy. Log 6. -/
  | stuckAwaitingEntropy
deriving DecidableEq, Repr

/-- Why a step can be refused. -/
inductive Refusal where
  /-- `exec` has no meaning for this command yet; raised by `exec`'s refused arms alone, and no arm is
  refused. Safe. -/
  | notModelled (mnemonic : String)
deriving DecidableEq, Repr

/-- The machine's state: its configuration, the state of R30, then the inputs and outputs of the ports. -/
structure State where
  /-- the configuration parameter PRIM, fixed for a block: no step writes it (R9, R141, 93 U5; log 8) -/
  prim : PrimTable
  /-- r0..r7 (R31) -/
  regs : Regs
  /-- B, the field width (R33) -/
  b : Nat
  /-- THRESH; 0 means unset (R34) -/
  thresh : Nat
  /-- c[0..FILL-1]; FILL is its length (R35). Entries at FILL and above are not held (log 7). -/
  coef : List Nat
  /-- SAMPLES, pairs (x, y) in order; SCOUNT is its length (R36) -/
  samples : List (Nat × Nat)
  /-- BB, front first; BL is its length (R37) -/
  bb : BitString
  /-- the command in progress; STATUS.BUSY is 1 exactly while there is one (R38, R45) -/
  inProgress : Option WaitingCrand
  /-- STATUS.ERR (R38) -/
  err : Bool
  /-- STATUS.ERRCODE (R38) -/
  errcode : BitVec 4
  /-- STATUS.INSEC (R38) -/
  insec : Bool
  /-- ERRCMD (R39) -/
  errcmd : Word
  /-- INSECCNT (R40) -/
  inseccnt : Word
  /-- stands for the default generator's hidden state: the number of draws made (R44, R453; log 3) -/
  genDraws : Nat
  /-- the level of the input ENT_PRESENT (R44); STATUS.ENT reads it -/
  entPresent : Bool
  /-- values the entropy port has ready, oldest first (R44; log 4) -/
  entReady : List (BitVec 20)
  /-- inputs issued and not yet performed, oldest first (R84, R417; log 1) -/
  inbox : List Input
  /-- the response to the last access performed (R82; log 12) -/
  reply : Option BusReply
deriving DecidableEq, Repr

/-- The state after reset (R452). ENT_PRESENT's level, the generator counter, the port's ready values,
the inbox and the reply are inputs, outputs or hidden: their values here are named in logs 1, 3, 4, 5
and 12 (DESIGN CHOICE). PRIM stands at its default table (R141). -/
def State.reset : State where
  prim := defaultPrimTable
  regs := ⟨0#32, 0#32, 0#32, 0#32, 0#32, 0#32, 0#32, 0#32⟩
  b := Config.bFormat
  thresh := 0
  coef := []
  samples := []
  bb := []
  inProgress := none
  err := false
  errcode := 0#4
  insec := false
  errcmd := 0#32
  inseccnt := 0#32
  genDraws := 0
  entPresent := false
  entReady := []
  inbox := []
  reply := none

/-- The state after reset of a block built with another table of PRIM (R9, D4: a model can take others).
From here `step` runs that block; `State.reset` is the block with the default table. -/
def State.resetWith (table : PrimTable) : State := { State.reset with prim := table }

end Sys2Proof.Machine
end

