-- ==== Sys2Proof/Machine/Ops.lean ====
section
/-! DEFINITION. The named operations over the state: registers, counts, the error latch (raising an
error and clearing it), the buffers, the entropy draws and reset. Every command and every host access
is built from these. -/

namespace Sys2Proof.Machine

/-! ## General registers (R31, R32) -/

/-- Read of r[i]. -/
def Regs.get (g : Regs) : Reg → Word
  | .r0 => g.r0
  | .r1 => g.r1
  | .r2 => g.r2
  | .r3 => g.r3
  | .r4 => g.r4
  | .r5 => g.r5
  | .r6 => g.r6
  | .r7 => g.r7

/-- Write of r[i]. -/
def Regs.set (g : Regs) (v : Word) : Reg → Regs
  | .r0 => { g with r0 := v }
  | .r1 => { g with r1 := v }
  | .r2 => { g with r2 := v }
  | .r3 => { g with r3 := v }
  | .r4 => { g with r4 := v }
  | .r5 => { g with r5 := v }
  | .r6 => { g with r6 := v }
  | .r7 => { g with r7 := v }

/-- `r[i]` (R14). No register is hardwired (R31). -/
def State.reg (s : State) (i : Reg) : Word := s.regs.get i

/-- `r[i] <- v` (R14). -/
def State.setReg (s : State) (i : Reg) (v : Word) : State := { s with regs := s.regs.set v i }

/-- `r[i] <- n` for a result n, an integer below 2^32 by its command's rule. -/
def State.setRegNat (s : State) (i : Reg) (n : Nat) : State := s.setReg i (BitVec.ofNat 32 n)

/-! ## Counts and levels (R35 to R38, R425) -/

/-- FILL (R35). -/
def State.fill (s : State) : Nat := s.coef.length
/-- SCOUNT (R36). -/
def State.scount (s : State) : Nat := s.samples.length
/-- BL (R37). -/
def State.bl (s : State) : Nat := s.bb.length
/-- STATUS.BUSY (R38, R45). -/
def State.busy (s : State) : Bool := s.inProgress.isSome
/-- ENT_REQ is asserted while a CRAND waits for a value (R425, R451). -/
def State.entReq (s : State) : Bool := s.inProgress.isSome
/-- The current field: width B, and PRIM(B) of the block's table (R9, R33, R141). -/
def State.field (s : State) : FieldParams := fieldOf s.prim s.b
/-- MAX = 2^B - 1 (R142). -/
def State.maxElem (s : State) : Nat := fieldMax s.field

/-! ## Errors (R401, R410, R413) -/

/-- The code of an error class (R401). -/
def errorCode : ErrorClass → BitVec 4
  | .validation => 1#4
  | .unknownWord => 2#4
  | .versionMismatch => 3#4
  | .parameterMismatch => 4#4
  | .insufficientShares => 5#4
  | .config => 6#4
  | .domain => 7#4
  | .capacity => 8#4
  | .illegalCommand => 9#4

/-- Taking an error: the whole "trap entry" of the block (R410, R411). The latch records the class and
the command word, BUSY goes to 0, and nothing else changes. -/
def State.raise (s : State) (e : ErrorClass) (word : Word) : State :=
  { s with err := true, errcode := errorCode e, errcmd := word, inProgress := none }

/-- Return from an error: ERR and ERRCODE go to 0, ERRCMD stays (R74, R413). -/
def State.clearErr (s : State) : State := { s with err := false, errcode := 0#4 }

/-- A check of a command's rule: raise `e` unless `ok` holds. -/
def require (ok : Prop) [Decidable ok] (e : ErrorClass) : Except ErrorClass Unit :=
  if ok then .ok () else .error e

/-- The end of command `i`: its state is written only if no check failed (R15); otherwise the error of
the first failing check is taken, with the command's word in ERRCMD (R410, R416; log 15). -/
def complete (i : Instr) (s : State) (result : Except ErrorClass State) :
    Host.Outcome State Fault Refusal :=
  match result with
  | .ok t => .next t
  | .error e => .next (s.raise e (encode i))

/-! ## The sample buffer (R36, R255) -/

/-- SAMPLES holds an entry with this x (R255). -/
def holdsX (samples : List (Nat × Nat)) (x : Nat) : Bool := samples.any fun p => p.1 == x

/-- The entry with this x gets the new y and keeps its position (R255). -/
def overwriteY (samples : List (Nat × Nat)) (x y : Nat) : List (Nat × Nat) :=
  samples.map fun p => if p.1 = x then (x, y) else p

/-! ## Random draws (R44, R207) -/

/-- The B-bit value of 20 data bits: bits B and above are ignored (R425, 93 U13). -/
def drawValue (b : Nat) (bits : BitVec 20) : Nat := bits.toNat % 2 ^ b

/-- The next `k` draws of the insecure default generator (R44): free values. -/
def State.defaultDraws (s : State) (k : Nat) : List Nat :=
  (List.range k).map fun j => drawValue s.b (Config.defaultDraw (s.genDraws + j))

/-- INSECCNT after k more insecure draws, saturating at 2^32 - 1 (R40, R207). -/
def saturatingAdd (count : Word) (k : Nat) : Word :=
  BitVec.ofNat 32 (min (count.toNat + k) (2 ^ 32 - 1))

/-- CRAND's effect with the insecure default generator, k > 0 values (R207). -/
def State.drawInsecure (s : State) (k : Nat) : State :=
  { s with
    coef := s.coef ++ s.defaultDraws k
    genDraws := s.genDraws + k
    insec := true
    inseccnt := saturatingAdd s.inseccnt k }

/-- A CRAND that has `got` values and needs `need` more takes what the entropy port has ready. With all
of them it completes and appends them; otherwise it waits, BUSY = 1 (R44, R207). -/
def State.drawSecure (s : State) (need : Nat) (got : List Nat) : State :=
  let taken := (s.entReady.take need).map (drawValue s.b)
  let rest := s.entReady.drop need
  if need ≤ taken.length then
    { s with coef := s.coef ++ (got ++ taken), entReady := rest, inProgress := none }
  else
    { s with entReady := rest, inProgress := some ⟨need - taken.length, got ++ taken⟩ }

/-- ENT_VALID with ENT_DATA (R425): a waiting CRAND takes the value; otherwise the port keeps it ready
(log 4). -/
def State.receiveEntropy (s : State) (data : BitVec 20) : State :=
  let s' := { s with entReady := s.entReady ++ [data] }
  match s.inProgress with
  | none => s'
  | some w => s'.drawSecure w.need w.got

/-! ## Reset (R450 to R453) -/

/-- Reset of a running block by RST or SRST (R450, R451): every item of R452 takes its reset value and
the command in progress is aborted. The inputs (ENT_PRESENT, the port's ready values, the held
accesses) and the last bus response are not reset; the generator does not start again (R453; log 16).
The configuration stays. -/
def State.resetBlock (s : State) : State :=
  { State.resetWith s.prim with
    genDraws := s.genDraws
    entPresent := s.entPresent
    entReady := s.entReady
    inbox := s.inbox
    reply := s.reply }

end Sys2Proof.Machine
end

