-- ==== Sys2Proof/Machine/Operands.lean ====
section
/-! DEFINITION. The operand forms of spec/30_encoding.md R103 and R104: immediates, and registers read
as integers, field elements, nonzero field elements, integers in a range; and PDEC's second
destination (R32). -/

namespace Sys2Proof.Machine

/-- `zext_32(imm)` (R103). -/
def immWord (imm : Nat) : Word := BitVec.ofNat 32 imm

/-- `r[i]` as an unsigned integer (R104). -/
def State.regNat (s : State) (i : Reg) : Nat := (s.reg i).toNat

/-- `FE(r[i])`: the element, or ValidationError above MAX; never truncated (spec/41_gf.md R146). -/
def State.fieldOperand (s : State) (i : Reg) : Except ErrorClass Nat :=
  if s.regNat i ≤ s.maxElem then .ok (s.regNat i) else .error .validation

/-- `r[i]` as an integer in lo..hi, else ValidationError (R201, R292, R350, R354). -/
def State.rangeOperand (s : State) (i : Reg) (lo hi : Nat) : Except ErrorClass Nat :=
  if lo ≤ s.regNat i ∧ s.regNat i ≤ hi then .ok (s.regNat i) else .error .validation

/-- A group width w in 1..32, else ValidationError (spec/44_bitcodec.md R300, R302, R304). -/
def groupWidth (imm : Nat) : Except ErrorClass Nat :=
  if 1 ≤ imm ∧ imm ≤ 32 then .ok imm else .error .validation

/-- THRESH, or ValidationError while it is unset (R34). -/
def State.threshSet (s : State) : Except ErrorClass Unit := require (s.thresh ≠ 0) .validation

/-- The register after `rd`, (rd + 1) mod 8 (R32). -/
def nextReg : Reg → Reg
  | .r0 => .r1
  | .r1 => .r2
  | .r2 => .r3
  | .r3 => .r4
  | .r4 => .r5
  | .r5 => .r6
  | .r6 => .r7
  | .r7 => .r0

/-- BB with `bits` appended at the back, or CapacityError past 4096 bits (R37). -/
def State.pushBack (s : State) (bits : BitString) : Except ErrorClass State :=
  if s.bl + bits.length ≤ Config.bbCap then .ok { s with bb := s.bb ++ bits } else .error .capacity

/-- BB with `bits` put in front, or CapacityError past 4096 bits (R37). -/
def State.pushFront (s : State) (bits : BitString) : Except ErrorClass State :=
  if s.bl + bits.length ≤ Config.bbCap then .ok { s with bb := bits ++ s.bb } else .error .capacity

/-- The first n bits of BB go to r[rd] as an integer and leave BB; CapacityError if there are fewer
(R294, R352). -/
def State.popFront (s : State) (n : Nat) (rd : Reg) : Except ErrorClass State :=
  if n ≤ s.bl then .ok { s.setRegNat rd (bitsVal (s.bb.take n)) with bb := s.bb.drop n }
  else .error .capacity

end Sys2Proof.Machine
end

