-- ==== Sys2Proof/Machine/BitCodec.lean ====
section
/-! DEFINITION. The bit-serial bit and hex codec (spec/44_bitcodec.md). -/

namespace Sys2Proof.Machine

/-- BCLR: empty the bit buffer (R290). -/
def execBclr (s : State) : Host.Outcome State Fault Refusal :=
  complete .bclr s (.ok { s with bb := [] })

/-- BPUSHH: append one hex digit as 4 bits (R292). -/
def execBpushh (rs1 : Reg) (s : State) : Host.Outcome State Fault Refusal :=
  complete (.bpushh rs1) s do
    let v ← s.rangeOperand rs1 0 15
    s.pushBack (bitsOf 4 v)

/-- BPOPH: remove one hex digit from the front (R294). -/
def execBpoph (rd : Reg) (s : State) : Host.Outcome State Fault Refusal :=
  complete (.bpoph rd) s (s.popFront 4 rd)

/-- BPUSHE: append a field element as exactly B bits (R296). -/
def execBpushe (rs1 : Reg) (s : State) : Host.Outcome State Fault Refusal :=
  complete (.bpushe rs1) s do
    let v ← s.fieldOperand rs1
    s.pushBack (bitsOf s.b v)

/-- BPOPE: remove one chunk of min(B, BL) bits from the back (R298). -/
def execBpope (rd : Reg) (s : State) : Host.Outcome State Fault Refusal :=
  complete (.bpope rd) s do
    require (s.bl ≠ 0) .capacity
    let k := min s.b s.bl
    .ok { s.setRegNat rd (bitsVal (takeBack k s.bb)) with bb := dropBack k s.bb }

/-- BLPAD: left-pad to a multiple of w, always adding at least one bit (R300). -/
def execBlpad (imm : Nat) (s : State) : Host.Outcome State Fault Refusal :=
  complete (.blpad imm) s do
    let w ← groupWidth imm
    s.pushFront (zeroBits (w - s.bl % w))

/-- BALIGN: left-pad to a multiple of w, adding nothing when aligned (R302). -/
def execBalign (imm : Nat) (s : State) : Host.Outcome State Fault Refusal :=
  complete (.balign imm) s do
    let w ← groupWidth imm
    s.pushFront (zeroBits ((w - s.bl % w) % w))

/-- BTRIM: drop bits from the front down to a multiple of w (R304). -/
def execBtrim (imm : Nat) (s : State) : Host.Outcome State Fault Refusal :=
  complete (.btrim imm) s do
    let w ← groupWidth imm
    .ok { s with bb := s.bb.drop (s.bl % w) }

/-- BSENT: prepend the sentinel 1 bit (R306). -/
def execBsent (s : State) : Host.Outcome State Fault Refusal :=
  complete .bsent s (s.pushFront [true])

/-- BSTRIP: drop through the first 1 bit (R308). -/
def execBstrip (s : State) : Host.Outcome State Fault Refusal :=
  complete .bstrip s do
    require (true ∈ s.bb) .validation
    .ok { s with bb := s.bb.drop (s.bb.idxOf true + 1) }

end Sys2Proof.Machine
end

