-- ==== Sys2Proof/Machine/Evaluator.lean ====
section
/-! DEFINITION. The polynomial evaluator (spec/42_eval.md). -/

namespace Sys2Proof.Machine

/-- SETT: a threshold in 2..4095 or ValidationError (R201). -/
def execSett (rs1 : Reg) (s : State) : Host.Outcome State Fault Refusal :=
  complete (.sett rs1) s do
    let t ← s.rangeOperand rs1 Config.threshMin Config.threshMax
    .ok { s with thresh := t }

/-- CCLR: empty the coefficient buffer (R203). -/
def execCclr (s : State) : Host.Outcome State Fault Refusal :=
  complete .cclr s (.ok { s with coef := [] })

/-- CPUSH: append one coefficient (R205). -/
def execCpush (rs1 : Reg) (s : State) : Host.Outcome State Fault Refusal :=
  complete (.cpush rs1) s do
    s.threshSet
    let v ← s.fieldOperand rs1
    require (s.fill < s.thresh) .capacity
    .ok { s with coef := s.coef ++ [v] }

/-- CRAND: fill the polynomial up to THRESH with random coefficients (R207). ENT_PRESENT is sampled
once, here (R44). With ENT_PRESENT = 1 and too few values ready, the next state is the CRAND waiting,
BUSY = 1. -/
def execCrand (s : State) : Host.Outcome State Fault Refusal :=
  complete .crand s do
    s.threshSet
    let k := s.thresh - s.fill
    .ok (if k = 0 then s else if s.entPresent then s.drawSecure k [] else s.drawInsecure k)

/-- EVAL: the polynomial's value at x (R210). -/
def execEval (rd rs1 : Reg) (s : State) : Host.Outcome State Fault Refusal :=
  complete (.eval rd rs1) s do
    s.threshSet
    let x ← s.fieldOperand rs1
    require (x ≠ 0) .validation
    require (s.fill = s.thresh) .validation
    .ok (s.setRegNat rd (horner s.field x s.coef))

end Sys2Proof.Machine
end

