-- ==== Sys2Proof/Machine/Galois.lean ====
section
/-! DEFINITION. The GF(2^b) commands (spec/41_gf.md). The checks stand in the order of each rule's
Exceptions line (R416). -/

namespace Sys2Proof.Machine

/-- SETB: a width in 3..20 or ConfigError; both field buffers are emptied (R150). -/
def execSetb (imm : Nat) (s : State) : Host.Outcome State Fault Refusal :=
  complete (.setb imm) s do
    require (Config.bMin ≤ imm ∧ imm ≤ Config.bMax) .config
    .ok { s with b := imm, coef := [], samples := [] }

/-- GADD: XOR of two field elements (R152). -/
def execGadd (rd rs1 rs2 : Reg) (s : State) : Host.Outcome State Fault Refusal :=
  complete (.gadd rd rs1 rs2) s do
    let a ← s.fieldOperand rs1
    let c ← s.fieldOperand rs2
    .ok (s.setRegNat rd (a ^^^ c))

/-- GMUL: the field product (R154). -/
def execGmul (rd rs1 rs2 : Reg) (s : State) : Host.Outcome State Fault Refusal :=
  complete (.gmul rd rs1 rs2) s do
    let a ← s.fieldOperand rs1
    let c ← s.fieldOperand rs2
    .ok (s.setRegNat rd (gfMul s.field a c))

/-- GINV: the inverse, DomainError on 0 (R156). -/
def execGinv (rd rs1 : Reg) (s : State) : Host.Outcome State Fault Refusal :=
  complete (.ginv rd rs1) s do
    let a ← s.fieldOperand rs1
    require (a ≠ 0) .domain
    .ok (s.setRegNat rd (gfInv s.field a))

/-- GPOW: a field element to any 32-bit exponent (R158). -/
def execGpow (rd rs1 rs2 : Reg) (s : State) : Host.Outcome State Fault Refusal :=
  complete (.gpow rd rs1 rs2) s do
    let a ← s.fieldOperand rs1
    .ok (s.setRegNat rd (gfPow s.field a (s.regNat rs2)))

/-- GLOG: the discrete logarithm, DomainError on 0 (R160). -/
def execGlog (rd rs1 : Reg) (s : State) : Host.Outcome State Fault Refusal :=
  complete (.glog rd rs1) s do
    let a ← s.fieldOperand rs1
    require (a ≠ 0) .domain
    .ok (s.setRegNat rd (gfLog s.field a))

/-- GEXP: EXP of any 32-bit exponent (R162). -/
def execGexp (rd rs1 : Reg) (s : State) : Host.Outcome State Fault Refusal :=
  complete (.gexp rd rs1) s (.ok (s.setRegNat rd (gfExp s.field (s.regNat rs1))))

end Sys2Proof.Machine
end

