-- ==== Sys2Proof/Machine/Interpolator.lean ====
section
/-! DEFINITION. The Lagrange interpolator (spec/43_interp.md). -/

namespace Sys2Proof.Machine

/-- SCLR: empty the sample buffer (R252). -/
def execSclr (s : State) : Host.Outcome State Fault Refusal :=
  complete .sclr s (.ok { s with samples := [] })

/-- SADD: insert a sample, or overwrite the sample with the same x in place (R255). -/
def execSadd (rs1 rs2 : Reg) (s : State) : Host.Outcome State Fault Refusal :=
  complete (.sadd rs1 rs2) s do
    let x ← s.fieldOperand rs1
    let y ← s.fieldOperand rs2
    require (x ≠ 0) .validation
    if holdsX s.samples x then .ok { s with samples := overwriteY s.samples x y }
    else if s.scount = Config.sampleCap then .error .capacity
    else .ok { s with samples := s.samples ++ [(x, y)] }

/-- INTERP: interpolate the samples at the target (R260). -/
def execInterp (rd rs1 : Reg) (s : State) : Host.Outcome State Fault Refusal :=
  complete (.interp rd rs1) s do
    s.threshSet
    let t ← s.fieldOperand rs1
    require (s.thresh ≤ s.scount) .insufficientShares
    .ok (s.setRegNat rd (interpolate s.field s.samples t))

end Sys2Proof.Machine
end

