-- ==== Sys2Proof/Machine/MnemonicCodec.lean ====
section
/-! DEFINITION. The bit-serial mnemonic codec and the parameter block (spec/45_mnemonic.md). -/

namespace Sys2Proof.Machine

/-- BPUSHW: append a word index as 11 bits (R350). -/
def execBpushw (rs1 : Reg) (s : State) : Host.Outcome State Fault Refusal :=
  complete (.bpushw rs1) s do
    let v ← s.rangeOperand rs1 0 2047
    s.pushBack (bitsOf Config.wordBits v)

/-- BPOPW: remove one 11-bit group from the front (R352). -/
def execBpopw (rd : Reg) (s : State) : Host.Outcome State Fault Refusal :=
  complete (.bpopw rd) s (s.popFront Config.wordBits rd)

/-- The number of parameter words for (m, o): ceil of the longer bit length over 5 (R354). -/
def paramGroups (m o : Nat) : Nat :=
  (max (bitLength m) (bitLength o) + (Config.groupBits - 1)) / Config.groupBits

/-- The parameter block: for each 5-bit group, continuation bit, m group, o group (R354, R356). -/
def paramBits (m o : Nat) : BitString :=
  let g := paramGroups m o
  let w := Config.groupBits * g
  let mBits := bitsOf w m
  let oBits := bitsOf w o
  (List.range g).flatMap fun k =>
    decide (k < g - 1) :: ((mBits.drop (Config.groupBits * k)).take Config.groupBits
      ++ (oBits.drop (Config.groupBits * k)).take Config.groupBits)

/-- PENC: encode (m, o) and append the parameter words (R354). -/
def execPenc (rs1 rs2 : Reg) (s : State) : Host.Outcome State Fault Refusal :=
  complete (.penc rs1 rs2) s do
    let m ← s.rangeOperand rs1 Config.threshMin Config.threshMax
    let o ← s.rangeOperand rs2 0 Config.threshMax
    s.pushBack (paramBits m o)

/-- The loop of PDEC over at most `left` further words: the values of m and o and the bits after the
block, or none where the block is not closed (R358). -/
def paramScan : (left : Nat) → BitString → (m o : Nat) → Option (Nat × Nat × BitString)
  | 0, _, _, _ => none
  | left + 1, x, m, o =>
    if x.length < Config.wordBits then none
    else
      let word := x.take Config.wordBits
      let rest := x.drop Config.wordBits
      let m' := m * 32 + bitsVal ((word.drop 1).take Config.groupBits)
      let o' := o * 32 + bitsVal ((word.drop 6).take Config.groupBits)
      if word.headD false then paramScan left rest m' o' else some (m', o', rest)

/-- PDEC: decode the parameter block at the front of BB; m to r[rd] and o to the register after it
(R32, R358). -/
def execPdec (rd : Reg) (s : State) : Host.Outcome State Fault Refusal :=
  complete (.pdec rd) s
    (match paramScan Config.paramMaxWords s.bb 0 0 with
    | none => .error .validation
    | some (m, o, rest) => .ok { (s.setRegNat rd m).setRegNat (nextReg rd) o with bb := rest })

end Sys2Proof.Machine
end

