-- ==== Sys2Proof/Machine/Move.lean ====
section
/-! DEFINITION. Register moves (spec/40_move.md). -/

namespace Sys2Proof.Machine

/-- LI: `r[rd] <- zext_32(imm)` (R130). -/
def execLi (rd : Reg) (imm : Nat) (s : State) : Host.Outcome State Fault Refusal :=
  complete (.li rd imm) s (.ok (s.setReg rd (immWord imm)))

/-- MOV: `r[rd] <- r[rs1]` (R131). -/
def execMov (rd rs1 : Reg) (s : State) : Host.Outcome State Fault Refusal :=
  complete (.mov rd rs1) s (.ok (s.setReg rd (s.reg rs1)))

end Sys2Proof.Machine
end

