-- ==== Sys2Proof/Machine/Dispatch.lean ====
section
/-! DEFINITION. One command, executed (spec/30_encoding.md R105, R108). -/

namespace Sys2Proof.Machine

def exec (i : Instr) (s : State) : Host.Outcome State Fault Refusal :=
  match i with
  | .li rd imm => Sys2Proof.Machine.execLi rd imm s
  | .mov rd rs1 => Sys2Proof.Machine.execMov rd rs1 s
  | .setb imm => Sys2Proof.Machine.execSetb imm s
  | .sett rs1 => Sys2Proof.Machine.execSett rs1 s
  | .gadd rd rs1 rs2 => Sys2Proof.Machine.execGadd rd rs1 rs2 s
  | .gmul rd rs1 rs2 => Sys2Proof.Machine.execGmul rd rs1 rs2 s
  | .ginv rd rs1 => Sys2Proof.Machine.execGinv rd rs1 s
  | .gpow rd rs1 rs2 => Sys2Proof.Machine.execGpow rd rs1 rs2 s
  | .glog rd rs1 => Sys2Proof.Machine.execGlog rd rs1 s
  | .gexp rd rs1 => Sys2Proof.Machine.execGexp rd rs1 s
  | .cclr => Sys2Proof.Machine.execCclr s
  | .cpush rs1 => Sys2Proof.Machine.execCpush rs1 s
  | .crand => Sys2Proof.Machine.execCrand s
  | .eval rd rs1 => Sys2Proof.Machine.execEval rd rs1 s
  | .sclr => Sys2Proof.Machine.execSclr s
  | .sadd rs1 rs2 => Sys2Proof.Machine.execSadd rs1 rs2 s
  | .interp rd rs1 => Sys2Proof.Machine.execInterp rd rs1 s
  | .bclr => Sys2Proof.Machine.execBclr s
  | .bpushh rs1 => Sys2Proof.Machine.execBpushh rs1 s
  | .bpoph rd => Sys2Proof.Machine.execBpoph rd s
  | .bpushe rs1 => Sys2Proof.Machine.execBpushe rs1 s
  | .bpope rd => Sys2Proof.Machine.execBpope rd s
  | .blpad imm => Sys2Proof.Machine.execBlpad imm s
  | .balign imm => Sys2Proof.Machine.execBalign imm s
  | .btrim imm => Sys2Proof.Machine.execBtrim imm s
  | .bsent => Sys2Proof.Machine.execBsent s
  | .bstrip => Sys2Proof.Machine.execBstrip s
  | .bpushw rs1 => Sys2Proof.Machine.execBpushw rs1 s
  | .bpopw rd => Sys2Proof.Machine.execBpopw rd s
  | .penc rs1 rs2 => Sys2Proof.Machine.execPenc rs1 rs2 s
  | .pdec rd => Sys2Proof.Machine.execPdec rd s

end Sys2Proof.Machine
end

