-- ==== Sys2Proof/Machine/Flags.lean ====
section
/-! DEFINITION. STATUS, the block's only flags (spec/10_state.md R38, spec/20_memory.md R74). Commands
write no flag but through `State.raise` (ERR, ERRCODE) and `State.drawInsecure` (INSEC). -/

namespace Sys2Proof.Machine

/-- The STATUS word: bit 0 BUSY, bit 1 ERR, bits 7:4 ERRCODE, bit 8 INSEC, bit 9 ENT, all others 0
(R38). -/
def State.statusWord (s : State) : Word :=
  0#22 ++ BitVec.ofBool s.entPresent ++ BitVec.ofBool s.insec ++ s.errcode ++ 0#2
    ++ BitVec.ofBool s.err ++ BitVec.ofBool s.busy

/-- A write to STATUS: bit 1 clears ERR and ERRCODE, bit 8 clears INSEC, the others are ignored (R74). -/
def State.writeStatus (s : State) (v : Word) : State :=
  let s1 := if v.getLsbD 1 then s.clearErr else s
  if v.getLsbD 8 then { s1 with insec := false } else s1

end Sys2Proof.Machine
end

