-- ==== Sys2Proof/Machine/Bus.lean ====
section
/-! DEFINITION. The register window and the host accesses to it (spec/20_memory.md), the order in which
inputs are performed (R84, R417), and one step of the block. -/

namespace Sys2Proof.Machine

/-! ## Offsets (R71) -/

/-- ID -/
def offId : BitVec 8 := 0x00#8
/-- CTRL -/
def offCtrl : BitVec 8 := 0x04#8
/-- STATUS -/
def offStatus : BitVec 8 := 0x08#8
/-- CMD -/
def offCmd : BitVec 8 := 0x0C#8
/-- INSECCNT -/
def offInseccnt : BitVec 8 := 0x28#8

/-- The window register Rn of a general register: 0x40 + 4·i (R80). -/
def offReg (i : Reg) : BitVec 8 := 0x40#8 + 4#8 * i.bits.setWidth 8

/-- The offset in the window of a host bus address, if the platform routes it to the block: the window
is the 256 bytes at S39_BASE (R70). -/
def windowOffset? (address : Nat) : Option (BitVec 8) :=
  if Config.s39Base ≤ address ∧ address < Config.s39Base + Config.windowBytes
  then some (BitVec.ofNat 8 (address - Config.s39Base)) else none

/-- Only 32-bit accesses at a multiple of 4 are permitted (R82). -/
def permitted (offset : BitVec 8) (bytes : Nat) : Bool :=
  bytes == 4 && offset.toNat % 4 == 0

/-! ## Reads (R71 to R81) -/

/-- The value a permitted read of the window returns (R71). CTRL, CMD and the reserved offsets read 0. -/
def windowRead (s : State) (offset : BitVec 8) : Word :=
  match offset.toNat with
  | 0x00 => Config.idValue
  | 0x08 => s.statusWord
  | 0x10 => s.errcmd
  | 0x14 => (BitVec.ofNat 5 s.b).setWidth 32
  | 0x18 => (BitVec.ofNat 12 s.thresh).setWidth 32
  | 0x1C => (BitVec.ofNat 12 s.fill).setWidth 32
  | 0x20 => (BitVec.ofNat 12 s.scount).setWidth 32
  | 0x24 => (BitVec.ofNat 13 s.bl).setWidth 32
  | 0x28 => s.inseccnt
  | 0x40 => s.reg .r0
  | 0x44 => s.reg .r1
  | 0x48 => s.reg .r2
  | 0x4C => s.reg .r3
  | 0x50 => s.reg .r4
  | 0x54 => s.reg .r5
  | 0x58 => s.reg .r6
  | 0x5C => s.reg .r7
  | _ => 0#32

/-! ## Writes (R73 to R83) -/

/-- A command word delivered to CMD: discarded while ERR = 1, else executed; a word that is no command
raises IllegalCommandError (R83, R108, R412). -/
def writeCmd (s : State) (word : Word) : Host.Outcome State Fault Refusal :=
  if s.err then .next s
  else match decode word with
    | .ok i => exec i s
    | .error _ => .next (s.raise .illegalCommand word)

/-- A write to CTRL: bit 0 resets the block, the rest is ignored (R73, R451). -/
def State.writeCtrl (s : State) (v : Word) : State := if v.getLsbD 0 then s.resetBlock else s

/-- A permitted write to the window (R71). Writes to read-only registers and reserved offsets are
ignored. -/
def windowWrite (s : State) (offset : BitVec 8) (v : Word) : Host.Outcome State Fault Refusal :=
  match offset.toNat with
  | 0x04 => .next (s.writeCtrl v)
  | 0x08 => .next (s.writeStatus v)
  | 0x0C => writeCmd s v
  | 0x28 => .next { s with inseccnt := 0#32 }
  | 0x40 => .next (s.setReg .r0 v)
  | 0x44 => .next (s.setReg .r1 v)
  | 0x48 => .next (s.setReg .r2 v)
  | 0x4C => .next (s.setReg .r3 v)
  | 0x50 => .next (s.setReg .r4 v)
  | 0x54 => .next (s.setReg .r5 v)
  | 0x58 => .next (s.setReg .r6 v)
  | 0x5C => .next (s.setReg .r7 v)
  | _ => .next s

/-! ## Inputs -/

/-- One input performed. A host access leaves its response in `reply`; one that R82 does not permit
gets a bus error and changes no state (R415; log 11). -/
def perform (i : Input) (s : State) : Host.Outcome State Fault Refusal :=
  match i with
  | .read offset bytes =>
    if permitted offset bytes then .next { s with reply := some (.data (windowRead s offset)) }
    else .next { s with reply := some .busError }
  | .write offset bytes v =>
    if permitted offset bytes then windowWrite { s with reply := some .written } offset v
    else .next { s with reply := some .busError }
  | .rst => .next s.resetBlock
  | .entLevel present => .next { s with entPresent := present }
  | .entReply data => .next (s.receiveEntropy data)

/-- Whether an input is held while BUSY = 1: every host access but a read of ID, a read of STATUS and
a write to CTRL (R84). RST and the entropy port are no host accesses. An access that R82 does not
permit is none of the three (log 13). -/
def heldWhileBusy : Input → Bool
  | .read offset bytes => !(bytes == 4 && (offset == offId || offset == offStatus))
  | .write offset bytes _ => !(bytes == 4 && offset == offCtrl)
  | .rst => false
  | .entLevel _ => false
  | .entReply _ => false

/-- The first input that is not held, and the inbox without it; held ones keep their order (R84, R417). -/
def takeUnheld : List Input → Option (Input × List Input)
  | [] => none
  | i :: rest =>
    if heldWhileBusy i then (takeUnheld rest).map fun p => (p.1, i :: p.2) else some (i, rest)

/-- The input that the block performs next (R84, R89): the oldest, or while BUSY = 1 the oldest that is
not held. -/
def nextInput (s : State) : Option (Input × List Input) :=
  if s.busy then takeUnheld s.inbox
  else match s.inbox with
    | [] => none
    | i :: rest => some (i, rest)

/-- One step: perform the next input. With no input the idle block waits (R452, R474; log 17); a CRAND that
waits and that nothing can reach any more is stuck (R464, 93 U8; log 6). -/
def stepBlock (s : State) : Host.Outcome State Fault Refusal :=
  match nextInput s with
  | some (i, rest) => perform i { s with inbox := rest }
  | none => if s.busy then .fault .stuckAwaitingEntropy else .next s

/-! ## Host spellings (spec/30_encoding.md R110, R111) -/

/-- `NOP`: `MOV r0, r0` (R111). -/
def pseudoNop : Instr := .mov .r0 .r0
/-- `GSUB rd, rs1, rs2`: `GADD rd, rs1, rs2` (R111). -/
def pseudoGsub (rd rs1 rs2 : Reg) : Instr := .gadd rd rs1 rs2
/-- `LI32 rN, v`: a host write of RN (R111). -/
def pseudoLi32 (i : Reg) (v : Word) : Input := .write (offReg i) 4 v
/-- `CLRERR`: `WR STATUS, 0x2` (R111). -/
def pseudoClrErr : Input := .write offStatus 4 2#32
/-- A host write of a command word to CMD (R83). -/
def commandInput (word : Word) : Input := .write offCmd 4 word

end Sys2Proof.Machine
end

