-- ==== Sys2Proof/Machine/Step.lean ====
section
/-! DEFINITION. The step function and the host's way to give the machine one command. -/

namespace Sys2Proof.Machine

/-- One step of the block (R83, R84): see `stepBlock`. -/
def step (s : State) : Host.Outcome State Fault Refusal := stepBlock s

/-- `s` with a write of the command word to CMD as its oldest input: the block has no program counter,
commands arrive as writes to CMD (R42, R83, R92; log 1). In a state that is not busy and has ERR = 0,
as after reset, the very next step executes it. -/
def State.withFetchWord (s : State) (nbits w : Nat) : State :=
  { s with inbox := commandInput (BitVec.ofNat 32 (w % 2 ^ nbits)) :: s.inbox }

end Sys2Proof.Machine
end

