-- ==== Sys2Proof/Safety.lean ====
section
/-! DEFINITION. The terms in which claims about the block are stated: the invariant of
spec/10_state.md R46, what a command may change, polynomials over GF(2), the source's Horner form, and
host sequences of commands. Nothing here is part of the machine. -/

namespace Sys2Proof.Machine

/-! ## Invariants -/

/-- The invariant of R46: every defined coefficient and every sample is an element of the current
field, the counts are within their capacities, THRESH is unset or legal, and the samples' x values are
pairwise distinct and nonzero. -/
structure BuffersLegal (s : State) : Prop where
  width : 3 ≤ s.b ∧ s.b ≤ 20
  thresh : s.thresh = 0 ∨ (2 ≤ s.thresh ∧ s.thresh ≤ 4095)
  coefElem : ∀ c ∈ s.coef, c < 2 ^ s.b
  sampleElem : ∀ p ∈ s.samples, 1 ≤ p.1 ∧ p.1 < 2 ^ s.b ∧ p.2 < 2 ^ s.b
  sampleDistinct : (s.samples.map Prod.fst).Nodup
  fillCap : s.fill ≤ 4095
  scountCap : s.scount ≤ 4095
  blCap : s.bl ≤ 4096

/-- The classes that the block itself raises (R401). -/
def raisedByBlock : ErrorClass → Bool
  | .validation => true
  | .unknownWord => false
  | .versionMismatch => false
  | .parameterMismatch => false
  | .insufficientShares => true
  | .config => true
  | .domain => true
  | .capacity => true
  | .illegalCommand => true

/-- ERRCODE is 0 while ERR = 0 (R38) and the code of a class the block raises while ERR = 1 (R401). -/
structure LatchLegal (s : State) : Prop where
  clear : s.err = false → s.errcode = 0#4
  set : s.err = true → ∃ e, raisedByBlock e = true ∧ s.errcode = errorCode e

/-- A CRAND in progress (R45): it holds no error, it still needs a value, the values it has are field
elements, with the buffer they make up THRESH coefficients, and the port has nothing ready that it has
not taken. -/
def WaitLegal (s : State) : Prop :=
  ∀ w, s.inProgress = some w →
    s.err = false ∧ 0 < w.need ∧ s.fill + w.got.length + w.need = s.thresh ∧
      (∀ v ∈ w.got, v < 2 ^ s.b) ∧ s.entReady = []

/-- What every step keeps. -/
structure Invariant (s : State) : Prop where
  buffers : BuffersLegal s
  latch : LatchLegal s
  wait : WaitLegal s

/-- The states a block can come to, whatever its table of PRIM: from reset, by steps, with any inputs
issued in between and any values standing ready at the entropy port while no CRAND waits for one. -/
inductive Reachable : State → Prop where
  | reset (table : PrimTable) : Reachable (State.resetWith table)
  | inputs (s : State) (l : List Input) : Reachable s → Reachable { s with inbox := l }
  | portReady (s : State) (l : List (BitVec 20)) :
      Reachable s → s.busy = false → Reachable { s with entReady := l }
  | stepped (s t : State) : Reachable s → step s = .next t → Reachable t

/-! ## Frames -/

/-- `t` is `s` but for the registers listed in `rds`: every other register and every other field of the
state is as before. -/
def OnlyRegsChange (s t : State) (rds : List Reg) : Prop :=
  (∀ r, r ∉ rds → t.reg r = s.reg r) ∧ t = { s with regs := t.regs }

/-- `t` is `s` but for the bit buffer and the registers listed in `rds`. -/
def OnlyBitsAndRegsChange (s t : State) (rds : List Reg) : Prop :=
  (∀ r, r ∉ rds → t.reg r = s.reg r) ∧ t = { s with regs := t.regs, bb := t.bb }

/-- `r[i]` holds an element of the current field (R146). -/
def State.holdsElem (s : State) (i : Reg) : Prop := s.regNat i < 2 ^ s.b

/-- B is legal (R33). -/
def State.widthLegal (s : State) : Prop := 3 ≤ s.b ∧ s.b ≤ 20

/-- PRIM(b) gives the low-order bits of a primitive polynomial (R9), in R141's own terms: the table loop
of R142 visits every nonzero element within its MAX entries. -/
structure PrimitiveField (F : FieldParams) : Prop where
  lowOrder : F.prim < 2 ^ F.width
  visitsAll : ∀ a, 0 < a → a < 2 ^ F.width → ∃ i < fieldMax F, expEntry F i = a

/-- B is legal, and the block's PRIM(B) gives a primitive polynomial, as R9 demands of the parameter. -/
structure FieldLegal (s : State) : Prop where
  width : 3 ≤ s.b ∧ s.b ≤ 20
  primitive : PrimitiveField s.field

/-! ## Polynomials over GF(2) (R140) -/

/-- The polynomial an integer below 2^32 stands for: bit i is the coefficient of x^i (R140). -/
noncomputable def polyOf (v : Nat) : Polynomial (ZMod 2) :=
  ∑ i ∈ Finset.range 32, if v.testBit i then Polynomial.X ^ i else 0

/-- The polynomial x^b + PRIM(b) of a field (R141). -/
noncomputable def modulusOf (F : FieldParams) : Polynomial (ZMod 2) :=
  Polynomial.X ^ F.width + polyOf F.prim

/-- The value at the element `x` of the polynomial over the field whose coefficients are `coef`, c[0]
first, as a polynomial over GF(2) before reduction: Σ c[i]·x^i (R212). -/
noncomputable def evalPoly (coef : List Nat) (x : Nat) : Polynomial (ZMod 2) :=
  (coef.zipIdx.map fun p => polyOf p.1 * polyOf x ^ p.2).sum

/-! ## The source's Horner form (R212) -/

/-- One step of the source's form: at a running value of 0 the next coefficient verbatim, otherwise
`EXP((LOG(x) + LOG(fx)) mod MAX) XOR c` (R212). -/
def sourceHornerStep (F : FieldParams) (x c fx : Nat) : Nat :=
  if fx = 0 then c else gfExp F ((gfLog F x + gfLog F fx) % fieldMax F) ^^^ c

/-- The source's Horner form over all coefficients, last to first (R212). -/
def sourceHorner (F : FieldParams) (x : Nat) : List Nat → Nat
  | [] => 0
  | c :: rest => sourceHornerStep F x c (sourceHorner F x rest)

/-! ## Host sequences (spec/30_encoding.md R110) -/

/-- The state after the host writes one command's word to CMD (R83). -/
def State.after (s : State) (i : Instr) : State :=
  match writeCmd s (encode i) with
  | .next t => t
  | .fault _ => s
  | .refused _ => s

/-- For each value: the host writes it to `r`, then issues `i` (`WR Rn, v ; i`). -/
def pushEach (r : Reg) (i : Instr) : List Nat → State → State
  | [], s => s
  | v :: vs, s => pushEach r i vs ((s.setReg r (BitVec.ofNat 32 v)).after i)

/-- While BLEN is not 0, at most `fuel` times: the host issues `i`, then reads `r`. The values read, in
order, and the last state. -/
def popEach (r : Reg) (i : Instr) : (fuel : Nat) → State → List Nat × State
  | 0, s => ([], s)
  | fuel + 1, s =>
    if s.bl = 0 then ([], s)
    else
      let t := s.after i
      let p := popEach r i fuel t
      (t.regNat r :: p.1, p.2)

end Sys2Proof.Machine
end

