-- ==== Sys2Proof/Certificates/Slice0/Obligations.lean ====
section
/-! DEFINITION. The statements about the model, one `def Obligations.<Name> : Prop` each. They come
from the numbered rules of spec/; OBLIGATIONS.json names the rule or the section each one rests on. In
every statement `exec i s = .next t` says that command `i` completes in `s`; a trap is written
`.next (s.raise e (encode i))`, which `Obligations.CommandsAreAtomic` spells out field by field. -/

open Sys2Proof Sys2Proof.Machine

/-! ## Encoding -/

/-- Decoding the encoding of a well-formed command gives the command (R101, R105). -/
def Obligations.DecodeOfEncodeIsTheCommand : Prop :=
  ∀ i : Instr, i.wellFormed = true → decode (encode i) = .ok i

/-- A word that decodes is the encoding of what it decodes to: every bit of it is read (R101, R107). -/
def Obligations.EncodeOfDecodeIsTheWord : Prop :=
  ∀ (w : Word) (i : Instr), decode w = .ok i → i.wellFormed = true ∧ encode i = w

/-- The words that decode are those that match a row of the opcode map (R105, R106). -/
def Obligations.DecodedWordsAreTheTablesWords : Prop :=
  ∀ w : Word, (∃ i, decode w = .ok i) ↔ ∃ row ∈ opcodeRows, w &&& row.1 = row.2

/-- One word of every family, written out from its fields, decodes to its command (R101, R105). -/
def Obligations.SampleWordsDecode : Prop :=
  decode 0b00000001011000000000000000101010#32 = .ok (.li .r3 42) ∧
  decode 0b00000011000000000000000000001000#32 = .ok (.setb 8) ∧
  decode 0b00010001111111111000000000000000#32 = .ok (.gmul .r7 .r7 .r7) ∧
  decode 0b00100011010011000000000000000000#32 = .ok (.eval .r2 .r3) ∧
  decode 0b00110001000001010000000000000000#32 = .ok (.sadd .r1 .r2) ∧
  decode 0b01000111000000000000000000100000#32 = .ok (.btrim 32) ∧
  decode 0b01010011111000000000000000000000#32 = .ok (.pdec .r7)

/-! ## Steps, the window and reset -/

/-- A STEP RUNS THE DECODED COMMAND. In a state that is not busy and has ERR = 0, whose next input
writes `w` to CMD, where `w` decodes to `i`, the step is `exec i` at the state with that input taken out
of the inbox and the write acknowledged on the bus (R83, R108). -/
def Obligations.StepRunsTheDecodedCommand : Prop :=
  ∀ (s : State) (w : Word) (i : Instr) (rest : List Input),
    s.busy = false → s.err = false → s.inbox = .write 0x0C#8 4 w :: rest → decode w = .ok i →
    step s = exec i { s with inbox := rest, reply := some .written }

/-- While ERR = 1 a write to CMD is discarded with no effect at all, and reads of every register and
writes of R0 to R7, INSECCNT, STATUS and CTRL still work, with the effect of every value written to
STATUS and CTRL (R412, R414, R422; the inbox and the reply are the model's,
logs 1 and 12). -/
def Obligations.AccessesWhileErr : Prop :=
  ∀ (s : State) (rest : List Input) (v : Word), s.busy = false → s.err = true →
    (s.inbox = .write 0x0C#8 4 v :: rest →
      step s = .next { s with inbox := rest, reply := some .written }) ∧
    (∀ off : BitVec 8, off.toNat % 4 = 0 → s.inbox = .read off 4 :: rest →
      step s = .next { s with inbox := rest, reply := some (.data (windowRead s off)) }) ∧
    (∀ r : Reg, s.inbox = .write (offReg r) 4 v :: rest →
      step s = .next (State.setReg { s with inbox := rest, reply := some .written } r v)) ∧
    (s.inbox = .write 0x28#8 4 v :: rest →
      step s = .next { s with inbox := rest, reply := some .written, inseccnt := 0#32 }) ∧
    (s.inbox = .write 0x08#8 4 v :: rest → step s = .next { s with
      inbox := rest, reply := some .written
      err := if v.getLsbD 1 then false else s.err
      errcode := if v.getLsbD 1 then 0#4 else s.errcode
      insec := if v.getLsbD 8 then false else s.insec }) ∧
    (s.inbox = .write 0x04#8 4 v :: rest → step s = .next
      (if v.getLsbD 0 then State.resetBlock { s with inbox := rest, reply := some .written }
       else { s with inbox := rest, reply := some .written }))

/-- A word whose opcode is unassigned, or with a nonzero unused field, raises IllegalCommandError (code
9), records the word and changes nothing else; the unassigned opcodes are those R106 lists. -/
def Obligations.IllegalWordsRaiseCodeNine : Prop :=
  (∀ (s : State) (w : Word), s.busy = false → s.err = false →
    (∀ row ∈ opcodeRows, w &&& row.1 ≠ row.2) →
    writeCmd s w = .next { s with err := true, errcode := 9#4, errcmd := w }) ∧
  (∀ w : Word,
    (let op := w.toNat / 2 ^ 24
     op = 0 ∨ (0x05 ≤ op ∧ op ≤ 0x0F) ∨ (0x16 ≤ op ∧ op ≤ 0x1F) ∨ (0x24 ≤ op ∧ op ≤ 0x2F) ∨
      (0x33 ≤ op ∧ op ≤ 0x3F) ∨ (0x4A ≤ op ∧ op ≤ 0x4F) ∨ 0x54 ≤ op) →
    ∀ row ∈ opcodeRows, w &&& row.1 ≠ row.2)

/-- A permitted write, in a state that is not busy, is acknowledged and performed on the window; a
written CMD word goes to `writeCmd`, a write of Rn to the register, and any write of INSECCNT clears it
(R79, R80, R83; the inbox and the reply are the model's, logs 1 and 12). -/
def Obligations.PermittedWritesReachTheWindow : Prop :=
  (∀ (s : State) (off : BitVec 8) (v : Word) (rest : List Input),
    s.busy = false → off.toNat % 4 = 0 → s.inbox = .write off 4 v :: rest →
    step s = windowWrite { s with inbox := rest, reply := some .written } off v) ∧
  ∀ (s : State) (v : Word),
    windowWrite s 0x0C#8 v = writeCmd s v ∧
    (∀ r : Reg, windowWrite s (offReg r) v = .next (s.setReg r v)) ∧
    windowWrite s 0x28#8 v = .next { s with inseccnt := 0#32 } ∧
    windowWrite s 0x04#8 v = .next (if v.getLsbD 0 then s.resetBlock else s)

/-- What a permitted read of each window register returns, and that a read changes nothing but the bus
response (R71, R72, R74, R75, R77 to R80, R85). The bits of the STATUS word are given bit by bit in
`Obligations.StatusReadsAndWrites`. -/
def Obligations.WindowReads : Prop :=
  ∀ s : State,
    (∀ (off : BitVec 8) (rest : List Input), s.busy = false → off.toNat % 4 = 0 →
      s.inbox = .read off 4 :: rest →
      step s = .next { s with inbox := rest, reply := some (.data (windowRead s off)) }) ∧
    windowRead s 0x00#8 = 0x53333901#32 ∧ windowRead s 0x08#8 = s.statusWord ∧
    windowRead s 0x04#8 = 0#32 ∧ windowRead s 0x0C#8 = 0#32 ∧
    windowRead s 0x10#8 = s.errcmd ∧ windowRead s 0x28#8 = s.inseccnt ∧
    (∀ r : Reg, windowRead s (offReg r) = s.reg r) ∧
    (BuffersLegal s → (windowRead s 0x14#8).toNat = s.b ∧ (windowRead s 0x18#8).toNat = s.thresh ∧
      (windowRead s 0x1C#8).toNat = s.coef.length ∧ (windowRead s 0x20#8).toNat = s.samples.length ∧
      (windowRead s 0x24#8).toNat = s.bb.length)

/-- ID reads its constant, the reserved offsets read 0, and writes to ID, to the read-only registers
and to the reserved offsets are ignored (R72, R76, R81). -/
def Obligations.ReadOnlyAndReservedOffsets : Prop :=
  ∀ (s : State) (off : BitVec 8) (v : Word), off.toNat % 4 = 0 →
    windowRead s 0x00#8 = 0x53333901#32 ∧
    ((0x2C ≤ off.toNat ∧ off.toNat ≤ 0x3C) ∨ (0x60 ≤ off.toNat ∧ off.toNat ≤ 0xFC) →
      windowRead s off = 0#32) ∧
    (off.toNat = 0 ∨ (0x10 ≤ off.toNat ∧ off.toNat ≤ 0x24) ∨
        (0x2C ≤ off.toNat ∧ off.toNat ≤ 0x3C) ∨ (0x60 ≤ off.toNat ∧ off.toNat ≤ 0xFC) →
      windowWrite s off v = .next s)

/-- STATUS: what each bit reads, and what a write clears; ERRCMD keeps its value (R38, R74). -/
def Obligations.StatusReadsAndWrites : Prop :=
  ∀ s : State,
    (∀ k < 32, (windowRead s 0x08#8).getLsbD k =
      (if k = 0 then s.busy else if k = 1 then s.err
       else if 4 ≤ k ∧ k ≤ 7 then s.errcode.getLsbD (k - 4)
       else if k = 8 then s.insec else if k = 9 then s.entPresent else false)) ∧
    (∀ v : Word, windowWrite s 0x08#8 v = .next { s with
        err := if v.getLsbD 1 then false else s.err
        errcode := if v.getLsbD 1 then 0#4 else s.errcode
        insec := if v.getLsbD 8 then false else s.insec })

/-- A narrower or wider access, or one at an offset that is no multiple of 4, gets a bus error response
and has no effect on any state; the response is the model's reply value (R82, R415; logs 11 and 12). -/
def Obligations.UnpermittedAccessesGetABusError : Prop :=
  ∀ (s : State) (off : BitVec 8) (bytes : Nat) (v : Word) (rest : List Input),
    s.busy = false → (bytes ≠ 4 ∨ off.toNat % 4 ≠ 0) →
    (s.inbox = .read off bytes :: rest ∨ s.inbox = .write off bytes v :: rest) →
    step s = .next { s with inbox := rest, reply := some .busError }

/-- Reset by RST and by CTRL.SRST have the same effect, busy or not: every item of the reset table has
its value; the level of ENT_PRESENT is an input and stays,
and so does the configuration PRIM (R450, R451, R452; one step, log 16). -/
def Obligations.ResetGivesTheResetTable : Prop :=
  ∀ (s : State) (rest : List Input) (v : Word), v.getLsbD 0 = true →
    (s.inbox = .rst :: rest ∨ s.inbox = .write 0x04#8 4 v :: rest) →
    ∃ t, step s = .next t ∧ (∀ r, t.reg r = 0#32) ∧ t.b = 8 ∧ t.thresh = 0 ∧ t.fill = 0 ∧
      t.samples = [] ∧ t.scount = 0 ∧ t.bb = [] ∧ t.bl = 0 ∧ t.busy = false ∧ t.err = false ∧
      t.errcode = 0#4 ∧ t.insec = false ∧ t.errcmd = 0#32 ∧ t.inseccnt = 0#32 ∧ t.entReq = false ∧
      t.entPresent = s.entPresent ∧ t.prim = s.prim ∧ windowRead t 0x04#8 = 0#32 ∧ windowRead t 0x00#8 = 0x53333901#32

/-- The model's state after reset has the values of the reset table (R452), and PRIM at its default
table (R141). -/
def Obligations.ResetStateHasTheResetTable : Prop :=
  (∀ r, State.reset.reg r = 0#32) ∧ State.reset.b = 8 ∧ State.reset.thresh = 0 ∧
  State.reset.fill = 0 ∧ State.reset.samples = [] ∧ State.reset.bb = [] ∧ State.reset.busy = false ∧
  State.reset.err = false ∧ State.reset.errcode = 0#4 ∧ State.reset.insec = false ∧
  State.reset.errcmd = 0#32 ∧ State.reset.inseccnt = 0#32 ∧ State.reset.entReq = false ∧ State.reset.prim = defaultPrimTable

/-- Which accesses are held while BUSY = 1, that the first input that is not held is performed then and
the held ones keep their order, that otherwise the oldest input is performed, and that with no input
the idle block stays as it is (R84, R417; that a step performs one input is the model's choice, log 1, that an access
R82 does not permit is held too is the model's, log 13, and that an idle block's step is a next state
equal to the state is the model's, log 17). -/
def Obligations.InputsArePerformedInOrder : Prop :=
  (∀ off n, heldWhileBusy (.read off n) = false ↔ n = 4 ∧ (off = 0x00#8 ∨ off = 0x08#8)) ∧
  (∀ off n v, heldWhileBusy (.write off n v) = false ↔ n = 4 ∧ off = 0x04#8) ∧
  (∀ (s : State) (before : List Input) (i : Input) (rest : List Input), s.busy = true →
    s.inbox = before ++ i :: rest → (∀ j ∈ before, heldWhileBusy j = true) → heldWhileBusy i = false →
    step s = perform i { s with inbox := before ++ rest }) ∧
  (∀ (s : State) (i : Input) (rest : List Input), s.busy = false → s.inbox = i :: rest →
    step s = perform i { s with inbox := rest }) ∧
  (∀ s : State, s.busy = false → s.inbox = [] → step s = .next s)

/-- The one way a step stops: a CRAND waits and every input left is held (R464); no step is refused.
That this is a fault of the model is the model's choice (log 6). -/
def Obligations.StepStopsOnlyAtAnUnansweredCrand : Prop :=
  ∀ s : State,
    (∀ f, step s = .fault f ↔
      f = .stuckAwaitingEntropy ∧ s.busy = true ∧ ∀ j ∈ s.inbox, heldWhileBusy j = true) ∧
    (∀ r, step s ≠ .refused r)

/-- SRST aborts a waiting CRAND, past every held access: the next state is the block's reset state with the
inputs left as they are; it does not depend on what the CRAND had drawn (R417, R451). -/
def Obligations.SrstAbortsAWaitingCrand : Prop :=
  ∀ (s : State) (before rest : List Input) (v : Word), s.busy = true → v.getLsbD 0 = true →
    s.inbox = before ++ .write 0x04#8 4 v :: rest → (∀ j ∈ before, heldWhileBusy j = true) →
    step s = .next { State.resetWith s.prim with
      genDraws := s.genDraws, entPresent := s.entPresent, entReady := s.entReady
      inbox := before ++ rest, reply := some .written }

/-- The inputs that are no host accesses are never held and are performed at once, busy or not: ENT_VALID
delivers its value to the port (`State.receiveEntropy`), a level of ENT_PRESENT changes that level alone,
and RST resets the block (R44, R84, R425, R450, R463; that they stand in the inbox is the model's choice,
log 1). -/
def Obligations.PortInputsArePerformedAtOnce : Prop :=
  (∀ (s : State) (rest : List Input) (data : BitVec 20), s.inbox = .entReply data :: rest →
    step s = .next ({ s with inbox := rest }.receiveEntropy data)) ∧
  (∀ (s : State) (rest : List Input) (present : Bool), s.inbox = .entLevel present :: rest →
    step s = .next { s with inbox := rest, entPresent := present }) ∧
  (∀ (s : State) (rest : List Input), s.inbox = .rst :: rest →
    step s = .next { s with inbox := rest }.resetBlock) ∧
  (∀ (data : BitVec 20) (present : Bool), heldWhileBusy (.entReply data) = false ∧
    heldWhileBusy (.entLevel present) = false ∧ heldWhileBusy .rst = false) ∧
  (∀ (s : State) (data : BitVec 20), s.busy = false →
    s.receiveEntropy data = { s with entReady := s.entReady ++ [data] }) ∧
  (∀ (s : State) (w : WaitingCrand) (data : BitVec 20), s.inProgress = some w → s.entReady = [] →
    (w.need = 1 → s.receiveEntropy data = { s with
      coef := s.coef ++ (w.got ++ [data.toNat % 2 ^ s.b]), inProgress := none }) ∧
    (2 ≤ w.need → s.receiveEntropy data = { s with
      inProgress := some ⟨w.need - 1, w.got ++ [data.toNat % 2 ^ s.b]⟩ }))

/-- The configuration PRIM is fixed for a block: no step and no command changes it, reset included (R9,
R141; that it is a field of the state is the model's choice, log 8). -/
def Obligations.NoStepChangesThePolynomials : Prop :=
  (∀ s t : State, step s = .next t → t.prim = s.prim) ∧
  ∀ (i : Instr) (s t : State), exec i s = .next t → t.prim = s.prim

/-! ## Invariants -/

/-- Every step keeps the invariant: R46, the legal error latch (R38, R401) and the legal command in
progress (R45). R46 is an inference the spec marks as its own; what a waiting CRAND holds is the model's,
logs 2 and 4. -/
def Obligations.EveryStepKeepsTheInvariant : Prop :=
  ∀ s t : State, Invariant s → step s = .next t → Invariant t

/-- The invariant holds at reset (the spec's own inference in R46). -/
def Obligations.InvariantHoldsAtReset : Prop := Invariant State.reset

/-- "An invariant holds in every state reachable from reset" (R46, an inference the spec marks as its own),
whatever inputs are issued. -/
def Obligations.ReachableStatesSatisfyTheBufferInvariant : Prop :=
  ∀ s : State, Reachable s → BuffersLegal s

/-! ## Whole-machine rules -/

/-- Every command answers with a next state. Either it leaves the error latch alone, or it raises: then
ERR, ERRCODE and ERRCMD record the class and the word, BUSY is 0 and nothing else changes (R15, R410). -/
def Obligations.CommandsAreAtomic : Prop :=
  ∀ (i : Instr) (s : State), ∃ t, exec i s = .next t ∧
    ((t.err = s.err ∧ t.errcode = s.errcode ∧ t.errcmd = s.errcmd) ∨
      ∃ e, raisedByBlock e = true ∧ t = s.raise e (encode i) ∧
        t = { s with err := true, errcode := errorCode e, errcmd := encode i, inProgress := none })

/-- Which command can raise which class: InsufficientSharesError only INTERP, when SCOUNT < THRESH;
ConfigError only SETB, when b is not in 3..20; DomainError only GINV and GLOG, on the operand 0; a
decoded command raises no IllegalCommandError (R403, R404, R405, R407). -/
def Obligations.ErrorClassesHaveTheirCommands : Prop :=
  ∀ (i : Instr) (s t : State), s.err = false → exec i s = .next t → t.err = true →
    (t.errcode = 5#4 → (∃ rd rs1, i = .interp rd rs1) ∧ s.scount < s.thresh) ∧
    (t.errcode = 6#4 → ∃ imm, i = .setb imm ∧ (imm < 3 ∨ 20 < imm)) ∧
    (t.errcode = 7#4 → ∃ rd rs1, (i = .ginv rd rs1 ∨ i = .glog rd rs1) ∧ s.reg rs1 = 0#32) ∧
    t.errcode ≠ 9#4

/-- Which command can change which state: B only SETB; THRESH only SETT; INSEC and INSECCNT only CRAND;
the coefficients only SETB, CCLR, CPUSH and CRAND; the samples only SETB, SCLR and SADD; the registers
only the commands R31 lists, BB only codec commands; no command changes a port's inputs or PRIM (R31, R33 to
R37, R40). -/
def Obligations.OnlyTheirCommandsChangeState : Prop :=
  ∀ (i : Instr) (s t : State), exec i s = .next t →
    (t.b ≠ s.b → ∃ imm, i = .setb imm) ∧
    (t.thresh ≠ s.thresh → ∃ rs1, i = .sett rs1) ∧
    (t.insec ≠ s.insec ∨ t.inseccnt ≠ s.inseccnt ∨ t.genDraws ≠ s.genDraws ∨
      t.entReady ≠ s.entReady → i = .crand) ∧
    (t.coef ≠ s.coef → (∃ imm, i = .setb imm) ∨ i = .cclr ∨ (∃ rs1, i = .cpush rs1) ∨ i = .crand) ∧
    (t.samples ≠ s.samples → (∃ imm, i = .setb imm) ∨ i = .sclr ∨ ∃ rs1 rs2, i = .sadd rs1 rs2) ∧
    (t.regs ≠ s.regs → ∃ rd, (∃ imm, i = .li rd imm) ∨
      (∃ rs1, i = .mov rd rs1 ∨ i = .ginv rd rs1 ∨ i = .glog rd rs1 ∨ i = .gexp rd rs1 ∨
        i = .eval rd rs1 ∨ i = .interp rd rs1) ∨
      (∃ rs1 rs2, i = .gadd rd rs1 rs2 ∨ i = .gmul rd rs1 rs2 ∨ i = .gpow rd rs1 rs2) ∨
      i = .bpoph rd ∨ i = .bpope rd ∨ i = .bpopw rd ∨ i = .pdec rd) ∧
    (t.bb ≠ s.bb → i = .bclr ∨ i = .bsent ∨ i = .bstrip ∨
      (∃ r, i = .bpushh r ∨ i = .bpoph r ∨ i = .bpushe r ∨ i = .bpope r ∨ i = .bpushw r ∨
        i = .bpopw r ∨ i = .pdec r) ∨
      (∃ imm, i = .blpad imm ∨ i = .balign imm ∨ i = .btrim imm) ∨ ∃ rs1 rs2, i = .penc rs1 rs2) ∧
    t.prim = s.prim ∧ t.entPresent = s.entPresent ∧ t.inbox = s.inbox ∧ t.reply = s.reply

/-- The window hides the contents of the buffers: states that differ only in the contents of the
coefficient, sample and bit buffers, at equal lengths, read the same everywhere (R35, R37, R427). -/
def Obligations.WindowHidesBufferContents : Prop :=
  ∀ (s : State) (coef : List Nat) (samples : List (Nat × Nat)) (bb : BitString) (off : BitVec 8),
    coef.length = s.coef.length → samples.length = s.samples.length → bb.length = s.bb.length →
    windowRead { s with coef := coef, samples := samples, bb := bb } off = windowRead s off

/-! ## Moves -/

/-- LI and MOV: the register's new value and the frame (R130, R131). -/
def Obligations.MovesWriteOneRegister : Prop :=
  (∀ (rd : Reg) (imm : Nat) (s : State), imm < 2 ^ 15 →
    ∃ t, exec (.li rd imm) s = .next t ∧ t.regNat rd = imm ∧ OnlyRegsChange s t [rd]) ∧
  (∀ (rd rs1 : Reg) (s : State),
    ∃ t, exec (.mov rd rs1) s = .next t ∧ t.reg rd = s.reg rs1 ∧ OnlyRegsChange s t [rd])

/-! ## The field -/

/-- SETB with a legal width sets B and empties both field buffers, and changes nothing else (R150). -/
def Obligations.SetbSetsTheWidth : Prop :=
  ∀ (imm : Nat) (s : State), 3 ≤ imm → imm ≤ 20 →
    exec (.setb imm) s = .next { s with b := imm, coef := [], samples := [] }

/-- GADD of two field elements is the XOR of the two registers (R152). -/
def Obligations.GaddIsXor : Prop :=
  ∀ (rd rs1 rs2 : Reg) (s : State), s.holdsElem rs1 → s.holdsElem rs2 →
    ∃ t, exec (.gadd rd rs1 rs2) s = .next t ∧ t.reg rd = s.reg rs1 ^^^ s.reg rs2 ∧
      t.holdsElem rd ∧ OnlyRegsChange s t [rd]

/-- Every entry of the default table of PRIM is primitive: at each width 3..20 the loop of R142 visits
every nonzero element (R141; the table is the spec's general knowledge, 93 G1). -/
def Obligations.DefaultTableIsPrimitive : Prop :=
  ∀ b, 3 ≤ b → b ≤ 20 → PrimitiveField (fieldOf defaultPrimTable b)

/-- GADD is addition, and GMUL the product reduced modulo x^B + PRIM(B), of the polynomials over GF(2)
that the operands stand for, at every width. R140's polynomial basis is the spec's general knowledge
(93 G3); PRIM(B) is any primitive polynomial (R9). -/
def Obligations.FieldOperationsArePolynomialOperations : Prop :=
  ∀ (rd rs1 rs2 : Reg) (s : State), FieldLegal s → s.holdsElem rs1 → s.holdsElem rs2 →
    (∃ t, exec (.gadd rd rs1 rs2) s = .next t ∧
      polyOf (t.regNat rd) = polyOf (s.regNat rs1) + polyOf (s.regNat rs2)) ∧
    (∃ t, exec (.gmul rd rs1 rs2) s = .next t ∧ t.holdsElem rd ∧
      polyOf (t.regNat rd) = (polyOf (s.regNat rs1) * polyOf (s.regNat rs2)) %ₘ modulusOf s.field ∧
      OnlyRegsChange s t [rd])

/-- The field laws, for every width 3..20 and all field elements: R147, an inference the spec marks as its
own, for every primitive polynomial (R9). -/
def Obligations.FieldLaws : Prop :=
  ∀ (F : FieldParams) (a c d : Nat), 3 ≤ F.width → F.width ≤ 20 → PrimitiveField F →
    a < 2 ^ F.width → c < 2 ^ F.width → d < 2 ^ F.width →
    gfMul F a c = gfMul F c a ∧
    gfMul F (gfMul F a c) d = gfMul F a (gfMul F c d) ∧
    gfMul F a (c ^^^ d) = gfMul F a c ^^^ gfMul F a d ∧
    gfMul F 1 a = a ∧ gfMul F 0 a = 0 ∧
    (a ≠ 0 → gfMul F a (gfExp F (2 ^ F.width - 1 - gfLog F a)) = 1) ∧
    a ^^^ c < 2 ^ F.width ∧ a ^^^ a = 0

/-- GINV of a nonzero field element writes the element whose product with the operand is 1 (R156 and
R147, the spec's own inference). -/
def Obligations.GinvTimesOperandIsOne : Prop :=
  ∀ (rd rs1 : Reg) (s : State), FieldLegal s → s.holdsElem rs1 → s.reg rs1 ≠ 0#32 →
    ∃ t, exec (.ginv rd rs1) s = .next t ∧ t.holdsElem rd ∧
      gfMul s.field (s.regNat rs1) (t.regNat rd) = 1 ∧ OnlyRegsChange s t [rd]

/-- GPOW is the product of n factors a, for every 32-bit n; with n = 0 it is 1, for a = 0 too (R158). -/
def Obligations.GpowIsTheRepeatedProduct : Prop :=
  ∀ (rd rs1 rs2 : Reg) (s : State), FieldLegal s → s.holdsElem rs1 →
    ∃ t, exec (.gpow rd rs1 rs2) s = .next t ∧ t.holdsElem rd ∧
      t.regNat rd = (gfMul s.field (s.regNat rs1))^[s.regNat rs2] 1 ∧ OnlyRegsChange s t [rd]

/-- GLOG of a nonzero field element a is the unique exponent below MAX that EXP maps to a (R143, R160). -/
def Obligations.GlogIsTheUniqueExponent : Prop :=
  ∀ (rd rs1 : Reg) (s : State), FieldLegal s → s.holdsElem rs1 → s.reg rs1 ≠ 0#32 →
    ∃ t, exec (.glog rd rs1) s = .next t ∧ t.regNat rd < 2 ^ s.b - 1 ∧
      (∀ i < 2 ^ s.b - 1, gfExp s.field i = s.regNat rs1 ↔ i = t.regNat rd) ∧
      OnlyRegsChange s t [rd]

/-- GEXP of any 32-bit exponent i is the polynomial x^i reduced modulo x^B + PRIM(B), and never 0 (R142,
R162). -/
def Obligations.GexpIsThePowerOfTheGenerator : Prop :=
  ∀ (rd rs1 : Reg) (s : State), FieldLegal s →
    ∃ t, exec (.gexp rd rs1) s = .next t ∧ t.holdsElem rd ∧ t.reg rd ≠ 0#32 ∧
      polyOf (t.regNat rd) = Polynomial.X ^ s.regNat rs1 %ₘ modulusOf s.field ∧ OnlyRegsChange s t [rd]

/-- Where the field commands trap, in the order of the checks (R146, R150, R152 to R160). -/
def Obligations.FieldCommandTraps : Prop :=
  ∀ (s : State) (rd rs1 rs2 : Reg) (imm : Nat),
    (imm < 3 ∨ 20 < imm → exec (.setb imm) s = .next (s.raise .config (encode (.setb imm)))) ∧
    (¬ s.holdsElem rs1 →
      exec (.gadd rd rs1 rs2) s = .next (s.raise .validation (encode (.gadd rd rs1 rs2))) ∧
      exec (.gmul rd rs1 rs2) s = .next (s.raise .validation (encode (.gmul rd rs1 rs2))) ∧
      exec (.gpow rd rs1 rs2) s = .next (s.raise .validation (encode (.gpow rd rs1 rs2))) ∧
      exec (.ginv rd rs1) s = .next (s.raise .validation (encode (.ginv rd rs1))) ∧
      exec (.glog rd rs1) s = .next (s.raise .validation (encode (.glog rd rs1)))) ∧
    (s.holdsElem rs1 → ¬ s.holdsElem rs2 →
      exec (.gadd rd rs1 rs2) s = .next (s.raise .validation (encode (.gadd rd rs1 rs2))) ∧
      exec (.gmul rd rs1 rs2) s = .next (s.raise .validation (encode (.gmul rd rs1 rs2)))) ∧
    (s.reg rs1 = 0#32 →
      exec (.ginv rd rs1) s = .next (s.raise .domain (encode (.ginv rd rs1))) ∧
      exec (.glog rd rs1) s = .next (s.raise .domain (encode (.glog rd rs1))))

/-! ## The evaluator -/

/-- SETT with a legal threshold sets THRESH alone; CCLR, SCLR and BCLR empty their buffers alone (R201,
R203, R252, R290). -/
def Obligations.SettAndTheClears : Prop :=
  ∀ (s : State) (rs1 : Reg),
    (2 ≤ s.regNat rs1 → s.regNat rs1 ≤ 4095 →
      exec (.sett rs1) s = .next { s with thresh := s.regNat rs1 }) ∧
    exec .cclr s = .next { s with coef := [] } ∧
    exec .sclr s = .next { s with samples := [] } ∧
    exec .bclr s = .next { s with bb := [] }

/-- CPUSH appends the coefficient and changes nothing else (R205). -/
def Obligations.CpushAppendsOneCoefficient : Prop :=
  ∀ (s : State) (rs1 : Reg), s.thresh ≠ 0 → s.holdsElem rs1 → s.fill < s.thresh →
    exec (.cpush rs1) s = .next { s with coef := s.coef ++ [s.regNat rs1] }

/-- CRAND with ENT_PRESENT = 0 appends field elements up to THRESH, sets INSEC and adds their number to
INSECCNT, saturating; with FILL ≥ THRESH it changes nothing. The draws are free values (R44, R207; log
3): nothing is said of them but their range. -/
def Obligations.CrandWithTheDefaultGenerator : Prop :=
  ∀ s : State, s.thresh ≠ 0 →
    (s.thresh ≤ s.fill → exec .crand s = .next s) ∧
    (s.fill < s.thresh → s.entPresent = false →
      ∃ ds : List Nat, ds.length = s.thresh - s.fill ∧ (∀ d ∈ ds, d < 2 ^ s.b) ∧
        ∃ t, exec .crand s = .next t ∧ t.coef = s.coef ++ ds ∧ t.fill = s.thresh ∧ t.insec = true ∧
          t.inseccnt.toNat = min (s.inseccnt.toNat + (s.thresh - s.fill)) (2 ^ 32 - 1) ∧
          t = { s with
            coef := t.coef, insec := t.insec, inseccnt := t.inseccnt, genDraws := t.genDraws })

/-- CRAND with ENT_PRESENT = 1: with enough values ready at the port it takes the low B bits of each,
in order, and leaves INSEC and INSECCNT; with too few it waits, BUSY = 1 and ENT_REQ asserted, and no
state of R30 but BUSY and the command in progress changes (R44, R207; the port's ready values are the
model's field, log 4). -/
def Obligations.CrandWithTheEntropyPort : Prop :=
  ∀ s : State, s.thresh ≠ 0 → s.fill < s.thresh → s.entPresent = true →
    (s.thresh - s.fill ≤ s.entReady.length →
      exec .crand s = .next { s with
        coef := s.coef ++ (s.entReady.take (s.thresh - s.fill)).map (fun v => v.toNat % 2 ^ s.b)
        entReady := s.entReady.drop (s.thresh - s.fill)
        inProgress := none }) ∧
    (s.entReady.length < s.thresh - s.fill →
      ∃ t, exec .crand s = .next t ∧ t.busy = true ∧ t.entReq = true ∧
        t = { s with inProgress := t.inProgress, entReady := [] })

/-- A waiting CRAND completes with the last value it needs: replies delivered one by one give the same
state as values that were ready at once (R44, R207). -/
def Obligations.CrandCompletesWhenThePortHasDelivered : Prop :=
  ∀ (s t : State) (ds : List (BitVec 20)), s.thresh ≠ 0 → s.entPresent = true → ds ≠ [] →
    s.fill + s.entReady.length + ds.length = s.thresh → exec .crand s = .next t →
    ds.foldl State.receiveEntropy t = { s with
      coef := s.coef ++ (s.entReady ++ ds).map (fun v => v.toNat % 2 ^ s.b)
      entReady := [], inProgress := none }

/-- EVAL computes Σ c[i]·x^i in GF(2^B), and so does the source's Horner form with its special case (R210,
R212, an inference the spec marks as its own). -/
def Obligations.EvalIsThePolynomialsValue : Prop :=
  ∀ (rd rs1 : Reg) (s : State), FieldLegal s → s.thresh ≠ 0 → s.holdsElem rs1 → s.reg rs1 ≠ 0#32 →
    s.fill = s.thresh → (∀ c ∈ s.coef, c < 2 ^ s.b) →
    ∃ t, exec (.eval rd rs1) s = .next t ∧ t.holdsElem rd ∧
      polyOf (t.regNat rd) = evalPoly s.coef (s.regNat rs1) %ₘ modulusOf s.field ∧
      t.regNat rd = sourceHorner s.field (s.regNat rs1) s.coef ∧ OnlyRegsChange s t [rd]

/-- Where the evaluator's commands trap, in the order of the checks (R201, R205, R207, R210). -/
def Obligations.EvaluatorTraps : Prop :=
  ∀ (s : State) (rd rs1 : Reg),
    (s.regNat rs1 < 2 ∨ 4095 < s.regNat rs1 →
      exec (.sett rs1) s = .next (s.raise .validation (encode (.sett rs1)))) ∧
    (s.thresh = 0 →
      exec (.cpush rs1) s = .next (s.raise .validation (encode (.cpush rs1))) ∧
      exec .crand s = .next (s.raise .validation (encode .crand)) ∧
      exec (.eval rd rs1) s = .next (s.raise .validation (encode (.eval rd rs1)))) ∧
    (¬ s.holdsElem rs1 →
      exec (.cpush rs1) s = .next (s.raise .validation (encode (.cpush rs1))) ∧
      exec (.eval rd rs1) s = .next (s.raise .validation (encode (.eval rd rs1)))) ∧
    (s.thresh ≠ 0 → s.holdsElem rs1 → s.thresh ≤ s.fill →
      exec (.cpush rs1) s = .next (s.raise .capacity (encode (.cpush rs1)))) ∧
    (s.reg rs1 = 0#32 ∨ s.fill ≠ s.thresh →
      exec (.eval rd rs1) s = .next (s.raise .validation (encode (.eval rd rs1))))

/-! ## The interpolator -/

/-- SADD: a new x is appended; a repeated x keeps its position and takes the later y; nothing else
changes (R255). -/
def Obligations.SaddInsertsOrOverwrites : Prop :=
  ∀ (s : State) (rs1 rs2 : Reg), s.holdsElem rs1 → s.holdsElem rs2 → s.reg rs1 ≠ 0#32 →
    ((∀ p ∈ s.samples, p.1 ≠ s.regNat rs1) → s.scount < 4095 →
      exec (.sadd rs1 rs2) s
        = .next { s with samples := s.samples ++ [(s.regNat rs1, s.regNat rs2)] }) ∧
    (∀ (before after : List (Nat × Nat)) (y : Nat),
      s.samples = before ++ (s.regNat rs1, y) :: after →
      (∀ p ∈ before ++ after, p.1 ≠ s.regNat rs1) →
      exec (.sadd rs1 rs2) s
        = .next { s with samples := before ++ (s.regNat rs1, s.regNat rs2) :: after })

/-- INTERP reconstructs: where the samples are values of a polynomial over the field with at most
SCOUNT coefficients, INTERP at t writes the polynomial's value at t. At t = 0 that is coefficient 0 (R260,
R265, an inference the spec marks as its own). -/
def Obligations.InterpReturnsThePolynomialsValue : Prop :=
  ∀ (rd rs1 : Reg) (s : State) (coef : List Nat), BuffersLegal s → PrimitiveField s.field → s.thresh ≠ 0 → s.holdsElem rs1 →
    s.thresh ≤ s.scount → coef.length ≤ s.scount → (∀ c ∈ coef, c < 2 ^ s.b) →
    (∀ p ∈ s.samples, polyOf p.2 = evalPoly coef p.1 %ₘ modulusOf s.field) →
    ∃ t, exec (.interp rd rs1) s = .next t ∧ t.holdsElem rd ∧
      polyOf (t.regNat rd) = evalPoly coef (s.regNat rs1) %ₘ modulusOf s.field ∧
      (s.reg rs1 = 0#32 → t.regNat rd = coef.headD 0) ∧ OnlyRegsChange s t [rd]

/-- At a target that is a sample's x, INTERP writes that sample's y: the terms of the other samples are
zero (R260, R263). -/
def Obligations.InterpAtASampleGivesItsValue : Prop :=
  ∀ (rd rs1 : Reg) (s : State) (y : Nat), BuffersLegal s → PrimitiveField s.field → s.thresh ≠ 0 → s.thresh ≤ s.scount →
    (s.regNat rs1, y) ∈ s.samples →
    ∃ t, exec (.interp rd rs1) s = .next t ∧ t.regNat rd = y ∧ OnlyRegsChange s t [rd]

/-- The order of the samples does not change the result (R265, R267). -/
def Obligations.InterpIgnoresTheSampleOrder : Prop :=
  ∀ (rd rs1 : Reg) (s : State) (l : List (Nat × Nat)), BuffersLegal s → PrimitiveField s.field → s.thresh ≠ 0 →
    s.holdsElem rs1 → s.thresh ≤ s.scount → l.Perm s.samples →
    ∃ t u, exec (.interp rd rs1) s = .next t ∧ exec (.interp rd rs1) { s with samples := l } = .next u ∧
      u.reg rd = t.reg rd

/-- INTERP completes for every sample set with a field element, whatever its samples, and changes no
other register; and where SADD and INTERP trap, in the order of the checks (R255, R260). -/
def Obligations.InterpolatorCompletesOrTraps : Prop :=
  ∀ (s : State) (rd rs1 rs2 : Reg),
    (s.widthLegal → s.thresh ≠ 0 → s.holdsElem rs1 → s.thresh ≤ s.scount →
      ∃ t, exec (.interp rd rs1) s = .next t ∧ t.holdsElem rd ∧ OnlyRegsChange s t [rd]) ∧
    (s.thresh = 0 ∨ ¬ s.holdsElem rs1 →
      exec (.interp rd rs1) s = .next (s.raise .validation (encode (.interp rd rs1)))) ∧
    (s.thresh ≠ 0 → s.holdsElem rs1 → s.scount < s.thresh →
      exec (.interp rd rs1) s = .next (s.raise .insufficientShares (encode (.interp rd rs1)))) ∧
    (¬ s.holdsElem rs1 ∨ ¬ s.holdsElem rs2 ∨ s.reg rs1 = 0#32 →
      exec (.sadd rs1 rs2) s = .next (s.raise .validation (encode (.sadd rs1 rs2)))) ∧
    (s.holdsElem rs1 → s.holdsElem rs2 → s.reg rs1 ≠ 0#32 → s.scount = 4095 →
      (∀ p ∈ s.samples, p.1 ≠ s.regNat rs1) →
      exec (.sadd rs1 rs2) s = .next (s.raise .capacity (encode (.sadd rs1 rs2))))

/-! ## The bit codec -/

/-- BPUSHH, BPUSHE and BPUSHW append exactly 4, B and 11 bits that spell the register's value, and
change nothing else (R292, R296, R350). -/
def Obligations.PushesAppendTheValuesBits : Prop :=
  ∀ (s : State) (rs1 : Reg),
    (s.regNat rs1 ≤ 15 → s.bl + 4 ≤ 4096 → ∃ bits : BitString, bits.length = 4 ∧
      bitsVal bits = s.regNat rs1 ∧ exec (.bpushh rs1) s = .next { s with bb := s.bb ++ bits }) ∧
    (s.holdsElem rs1 → s.bl + s.b ≤ 4096 → ∃ bits : BitString, bits.length = s.b ∧
      bitsVal bits = s.regNat rs1 ∧ exec (.bpushe rs1) s = .next { s with bb := s.bb ++ bits }) ∧
    (s.regNat rs1 ≤ 2047 → s.bl + 11 ≤ 4096 → ∃ bits : BitString, bits.length = 11 ∧
      bitsVal bits = s.regNat rs1 ∧ exec (.bpushw rs1) s = .next { s with bb := s.bb ++ bits })

/-- BPOPH and BPOPW take 4 and 11 bits from the front, BPOPE min(B, BL) bits from the back; the value
they spell goes to rd, the rest stays in order, nothing else changes (R294, R298, R352). -/
def Obligations.PopsTakeTheBitsValue : Prop :=
  ∀ (s : State) (rd : Reg) (bits rest : BitString),
    (s.bb = bits ++ rest → bits.length = 4 →
      ∃ t, exec (.bpoph rd) s = .next t ∧ t.regNat rd = bitsVal bits ∧ t.bb = rest ∧
        OnlyBitsAndRegsChange s t [rd]) ∧
    (s.bb = bits ++ rest → bits.length = 11 →
      ∃ t, exec (.bpopw rd) s = .next t ∧ t.regNat rd = bitsVal bits ∧ t.bb = rest ∧
        OnlyBitsAndRegsChange s t [rd]) ∧
    (s.bb = rest ++ bits → s.bb ≠ [] → s.b ≤ 20 → bits.length = min s.b s.bl →
      ∃ t, exec (.bpope rd) s = .next t ∧ t.regNat rd = bitsVal bits ∧ t.bb = rest ∧
        OnlyBitsAndRegsChange s t [rd])

/-- BLPAD puts 1..w zeros and BALIGN 0..w-1 zeros in front, to a multiple of w; BTRIM drops the front
bits down to a multiple of w; nothing else changes (R300, R302, R304). -/
def Obligations.PadsAndTrimReachAMultiple : Prop :=
  ∀ (s : State) (w : Nat), 1 ≤ w → w ≤ 32 →
    (∀ p, 1 ≤ p → p ≤ w → (s.bl + p) % w = 0 → s.bl + p ≤ 4096 →
      exec (.blpad w) s = .next { s with bb := List.replicate p false ++ s.bb }) ∧
    (∀ p < w, (s.bl + p) % w = 0 → s.bl + p ≤ 4096 →
      exec (.balign w) s = .next { s with bb := List.replicate p false ++ s.bb }) ∧
    (∀ front rest : BitString, s.bb = front ++ rest → front.length < w → rest.length % w = 0 →
      exec (.btrim w) s = .next { s with bb := rest })

/-- BSENT puts a 1 in front; BSTRIP drops through the first 1 (R306, R308). -/
def Obligations.SentinelIsPrependedAndStripped : Prop :=
  ∀ s : State,
    (s.bl < 4096 → exec .bsent s = .next { s with bb := true :: s.bb }) ∧
    (∀ (k : Nat) (rest : BitString), s.bb = List.replicate k false ++ true :: rest →
      exec .bstrip s = .next { s with bb := rest })

/-- Where the bit codec's commands trap, in the order of the checks (R292 to R308). -/
def Obligations.BitCodecTraps : Prop :=
  ∀ (s : State) (rd rs1 : Reg) (w : Nat),
    (15 < s.regNat rs1 →
      exec (.bpushh rs1) s = .next (s.raise .validation (encode (.bpushh rs1)))) ∧
    (s.regNat rs1 ≤ 15 → 4096 < s.bl + 4 →
      exec (.bpushh rs1) s = .next (s.raise .capacity (encode (.bpushh rs1)))) ∧
    (¬ s.holdsElem rs1 →
      exec (.bpushe rs1) s = .next (s.raise .validation (encode (.bpushe rs1)))) ∧
    (s.holdsElem rs1 → 4096 < s.bl + s.b →
      exec (.bpushe rs1) s = .next (s.raise .capacity (encode (.bpushe rs1)))) ∧
    (s.bl < 4 → exec (.bpoph rd) s = .next (s.raise .capacity (encode (.bpoph rd)))) ∧
    (s.bb = [] → exec (.bpope rd) s = .next (s.raise .capacity (encode (.bpope rd)))) ∧
    (w = 0 ∨ 32 < w →
      exec (.blpad w) s = .next (s.raise .validation (encode (.blpad w))) ∧
      exec (.balign w) s = .next (s.raise .validation (encode (.balign w))) ∧
      exec (.btrim w) s = .next (s.raise .validation (encode (.btrim w)))) ∧
    (∀ p, 1 ≤ w → w ≤ 32 → (s.bl + p) % w = 0 → 4096 < s.bl + p →
      (1 ≤ p → p ≤ w → exec (.blpad w) s = .next (s.raise .capacity (encode (.blpad w)))) ∧
      (p < w → exec (.balign w) s = .next (s.raise .capacity (encode (.balign w))))) ∧
    (4096 ≤ s.bl → exec .bsent s = .next (s.raise .capacity (encode .bsent))) ∧
    ((∀ bit ∈ s.bb, bit = false) → exec .bstrip s = .next (s.raise .validation (encode .bstrip)))

/-- hexToBits then bitsToHex gives the digits back, for digit strings of even or odd length; BALIGN 4
adds nothing, however often it is applied (R310, R312, R314, inferences the spec marks as its own). -/
def Obligations.HexRoundTrip : Prop :=
  ∀ (s : State) (r q : Reg) (digits : List Nat), s.err = false → (∀ d ∈ digits, d < 16) →
    4 * digits.length ≤ 4096 →
    let pushed := pushEach r (.bpushh r) digits (s.after .bclr)
    let aligned := pushed.after (.balign 4)
    let popped := popEach q (.bpoph q) digits.length aligned
    pushed.bb = digits.flatMap (bitsOf 4) ∧ pushed.bl = 4 * digits.length ∧ aligned = pushed ∧
      aligned.after (.balign 4) = aligned ∧ popped.1 = digits ∧ popped.2.bb = [] ∧ popped.2.err = false

/-- The bit path of split and secret recovery gives the secret back, for every secret whose chunks fit in
the bit buffer: BLPAD 4, BSENT, BPOPE until BL = 0;
then BCLR, BPUSHE of the chunks most significant first, BSTRIP leave zeros(p) ++ s with p in 1..4, and
BTRIM 11 leaves s where its length is a multiple of 11 (R316, R364, inferences the spec marks as its own). -/
def Obligations.ChunkRoundTrip : Prop :=
  ∀ (s : State) (r q : Reg), s.err = false → s.widthLegal → 1 ≤ s.bl →
    (s.bl + (4 - s.bl % 4) + 1 + (s.b - 1)) / s.b * s.b ≤ 4096 →
    let chunks := popEach q (.bpope q) 4096 ((s.after (.blpad 4)).after .bsent)
    let rebuilt := (pushEach r (.bpushe r) chunks.1.reverse (chunks.2.after .bclr)).after .bstrip
    chunks.2.bb = [] ∧ rebuilt.bb = List.replicate (4 - s.bl % 4) false ++ s.bb ∧ rebuilt.err = false ∧
      (s.bl % 11 = 0 → (rebuilt.after (.btrim 11)).bb = s.bb)

/-! ## The mnemonic codec -/

/-- PENC appends 1, 2 or 3 parameter words, each cont·1024 + mgroup·32 + ogroup, most significant group
first, continuation 0 in the last word only; nothing else changes (R354, R356). -/
def Obligations.PencAppendsTheParameterWords : Prop :=
  ∀ (s : State) (rs1 rs2 : Reg), 2 ≤ s.regNat rs1 → s.regNat rs1 ≤ 4095 → s.regNat rs2 ≤ 4095 →
    let m := s.regNat rs1
    let o := s.regNat rs2
    (max m o < 32 → s.bl + 11 ≤ 4096 →
      exec (.penc rs1 rs2) s = .next { s with bb := s.bb ++ bitsOf 11 (m * 32 + o) }) ∧
    (32 ≤ max m o → max m o < 1024 → s.bl + 22 ≤ 4096 →
      exec (.penc rs1 rs2) s = .next { s with bb := s.bb ++
        (bitsOf 11 (1024 + m / 32 * 32 + o / 32) ++ bitsOf 11 (m % 32 * 32 + o % 32)) }) ∧
    (1024 ≤ max m o → s.bl + 33 ≤ 4096 →
      exec (.penc rs1 rs2) s = .next { s with bb := s.bb ++
        (bitsOf 11 (1024 + m / 1024 * 32 + o / 1024) ++
          (bitsOf 11 (1024 + m / 32 % 32 * 32 + o / 32 % 32) ++ bitsOf 11 (m % 32 * 32 + o % 32))) })

/-- PDEC reads 1, 2 or 3 parameter words from the front up to the first with continuation 0; m goes to
rd, o to the register after rd (r0 after r7), the rest of the buffer stays (R32, R356, R358). -/
def Obligations.PdecReadsTheParameterWords : Prop :=
  ∀ (s : State) (rd : Reg) (words : List Nat) (last : Nat) (rest : BitString),
    words.length ≤ 2 → (∀ w ∈ words, 1024 ≤ w ∧ w < 2048) → last < 1024 →
    s.bb = (words ++ [last]).flatMap (bitsOf 11) ++ rest →
    ∃ t, exec (.pdec rd) s = .next t ∧
      t.regNat rd = (words ++ [last]).foldl (fun m w => m * 32 + w / 32 % 32) 0 ∧
      t.regNat (nextReg rd) = (words ++ [last]).foldl (fun o w => o * 32 + w % 32) 0 ∧
      t.bb = rest ∧ OnlyBitsAndRegsChange s t [rd, nextReg rd]

/-- The parameter codec round trip: PENC with (m, o) on an empty buffer and then PDEC rd gives m and o
back and leaves the buffer empty, for every m in 2..4095 and o in 0..4095 (R360, an inference the spec
marks as its own). -/
def Obligations.ParameterRoundTrip : Prop :=
  ∀ (s : State) (rs1 rs2 rd : Reg), s.bb = [] → 2 ≤ s.regNat rs1 → s.regNat rs1 ≤ 4095 →
    s.regNat rs2 ≤ 4095 →
    ∃ t u, exec (.penc rs1 rs2) s = .next t ∧ exec (.pdec rd) t = .next u ∧
      u.regNat rd = s.regNat rs1 ∧ u.regNat (nextReg rd) = s.regNat rs2 ∧ u.bb = []

/-- Where the mnemonic codec's commands trap: a word index above 2047, a full buffer, too few bits, m
outside 2..4095, o above 4095, and a parameter block that does not close within three words or within
the buffer (R350, R352, R354, R358). -/
def Obligations.MnemonicCodecTraps : Prop :=
  ∀ (s : State) (rd rs1 rs2 : Reg),
    (2047 < s.regNat rs1 →
      exec (.bpushw rs1) s = .next (s.raise .validation (encode (.bpushw rs1)))) ∧
    (s.regNat rs1 ≤ 2047 → 4096 < s.bl + 11 →
      exec (.bpushw rs1) s = .next (s.raise .capacity (encode (.bpushw rs1)))) ∧
    (s.bl < 11 → exec (.bpopw rd) s = .next (s.raise .capacity (encode (.bpopw rd)))) ∧
    (s.regNat rs1 < 2 ∨ 4095 < s.regNat rs1 ∨ 4095 < s.regNat rs2 →
      exec (.penc rs1 rs2) s = .next (s.raise .validation (encode (.penc rs1 rs2)))) ∧
    (2 ≤ s.regNat rs1 → s.regNat rs1 ≤ 4095 → s.regNat rs2 ≤ 4095 →
      ((max (s.regNat rs1) (s.regNat rs2) < 32 ∧ 4096 < s.bl + 11) ∨
        (32 ≤ max (s.regNat rs1) (s.regNat rs2) ∧ max (s.regNat rs1) (s.regNat rs2) < 1024 ∧
          4096 < s.bl + 22) ∨
        (1024 ≤ max (s.regNat rs1) (s.regNat rs2) ∧ 4096 < s.bl + 33)) →
      exec (.penc rs1 rs2) s = .next (s.raise .capacity (encode (.penc rs1 rs2)))) ∧
    (∀ (words : List Nat) (rest : BitString), words.length ≤ 3 → (∀ w ∈ words, 1024 ≤ w ∧ w < 2048) →
      s.bb = words.flatMap (bitsOf 11) ++ rest → (words.length = 3 ∨ rest.length < 11) →
      exec (.pdec rd) s = .next (s.raise .validation (encode (.pdec rd))))
end

