-- ==== Sys2Proof/Laws/Bits.lean ====
section
/-! SUPPORT. Bit strings (spec/00_scope.md R13). -/

namespace Sys2Proof.Machine

@[simp] theorem length_bitsOf (n v : Nat) : (bitsOf n v).length = n := by
  induction n with
  | zero => rfl
  | succ n ih => simp [bitsOf, ih]

@[simp] theorem length_zeroBits (n : Nat) : (zeroBits n).length = n := by simp [zeroBits]

theorem bitsVal_lt (s : BitString) : bitsVal s < 2 ^ s.length := by
  induction s with
  | nil => simp [bitsVal]
  | cons bit rest ih =>
    have : bit.toNat ≤ 1 := by cases bit <;> simp
    have : bit.toNat * 2 ^ rest.length ≤ 1 * 2 ^ rest.length := Nat.mul_le_mul_right _ this
    simp only [bitsVal, List.length_cons, Nat.pow_succ]; omega

theorem bitsVal_bitsOf_mod (n v : Nat) : bitsVal (bitsOf n v) = v % 2 ^ n := by
  induction n with
  | zero => simp [bitsOf, bitsVal, Nat.mod_one]
  | succ n ih =>
    rw [bitsOf, bitsVal, ih, length_bitsOf, Nat.mod_pow_succ, Nat.testBit_eq_decide_div_mod_eq]
    have : v / 2 ^ n % 2 < 2 := Nat.mod_lt _ (by decide)
    interval_cases v / 2 ^ n % 2 <;> (simp; try omega)

/-- `val(bits_n(v)) = v` (R13). -/
theorem bitsVal_bitsOf {n v : Nat} (h : v < 2 ^ n) : bitsVal (bitsOf n v) = v := by
  rw [bitsVal_bitsOf_mod, Nat.mod_eq_of_lt h]

@[simp] theorem bitsVal_append (s t : BitString) :
    bitsVal (s ++ t) = bitsVal s * 2 ^ t.length + bitsVal t := by
  induction s with
  | nil => simp [bitsVal]
  | cons bit rest ih => simp only [List.cons_append, bitsVal, ih, List.length_append, pow_add]; ring

@[simp] theorem bitsVal_zeroBits (n : Nat) : bitsVal (zeroBits n) = 0 := by
  induction n with
  | zero => rfl
  | succ n ih => simpa [zeroBits, List.replicate_succ, bitsVal] using ih

@[simp] theorem takeBack_append (s t : BitString) : takeBack t.length (s ++ t) = t := by
  simp [takeBack]

@[simp] theorem dropBack_append (s t : BitString) : dropBack t.length (s ++ t) = s := by
  simp [dropBack]

theorem dropBack_append_takeBack (n : Nat) (s : BitString) : dropBack n s ++ takeBack n s = s :=
  List.take_append_drop _ s

end Sys2Proof.Machine
end

