-- ==== Sys2Proof/Laws/Decode.lean ====
section
/-! SUPPORT. The fields of a packed word (spec/30_encoding.md R101). -/

namespace Sys2Proof

@[simp] theorem Reg.ofBits_bits (r : Reg) : Reg.ofBits r.bits = r := by cases r <;> rfl

@[simp] theorem Reg.bits_ofBits : ∀ f : BitVec 3, (Reg.ofBits f).bits = f := by decide

variable (op : BitVec 8) (rd rs1 rs2 : BitVec 3) (imm : BitVec 15)

theorem packWord_toNat : (packWord op rd rs1 rs2 imm).toNat
    = op.toNat * 2 ^ 24 + rd.toNat * 2 ^ 21 + rs1.toNat * 2 ^ 18 + rs2.toNat * 2 ^ 15 + imm.toNat := by
  simp only [packWord, BitVec.toNat_append]
  rw [← Nat.shiftLeft_add_eq_or_of_lt imm.isLt, ← Nat.shiftLeft_add_eq_or_of_lt rs2.isLt,
    ← Nat.shiftLeft_add_eq_or_of_lt rs1.isLt, ← Nat.shiftLeft_add_eq_or_of_lt rd.isLt]
  simp only [Nat.shiftLeft_eq]; ring

@[simp] theorem fieldOp_packWord : fieldOp (packWord op rd rs1 rs2 imm) = op := by
  apply BitVec.eq_of_toNat_eq
  simp only [fieldOp, BitVec.extractLsb'_toNat, packWord_toNat, Nat.shiftRight_eq_div_pow]
  have := op.isLt; have := rd.isLt; have := rs1.isLt; have := rs2.isLt; have := imm.isLt
  omega

@[simp] theorem fieldRd_packWord : fieldRd (packWord op rd rs1 rs2 imm) = rd := by
  apply BitVec.eq_of_toNat_eq
  simp only [fieldRd, BitVec.extractLsb'_toNat, packWord_toNat, Nat.shiftRight_eq_div_pow]
  have := op.isLt; have := rd.isLt; have := rs1.isLt; have := rs2.isLt; have := imm.isLt
  omega

@[simp] theorem fieldRs1_packWord : fieldRs1 (packWord op rd rs1 rs2 imm) = rs1 := by
  apply BitVec.eq_of_toNat_eq
  simp only [fieldRs1, BitVec.extractLsb'_toNat, packWord_toNat, Nat.shiftRight_eq_div_pow]
  have := op.isLt; have := rd.isLt; have := rs1.isLt; have := rs2.isLt; have := imm.isLt
  omega

@[simp] theorem fieldRs2_packWord : fieldRs2 (packWord op rd rs1 rs2 imm) = rs2 := by
  apply BitVec.eq_of_toNat_eq
  simp only [fieldRs2, BitVec.extractLsb'_toNat, packWord_toNat, Nat.shiftRight_eq_div_pow]
  have := op.isLt; have := rd.isLt; have := rs1.isLt; have := rs2.isLt; have := imm.isLt
  omega

@[simp] theorem fieldImm_packWord : fieldImm (packWord op rd rs1 rs2 imm) = imm := by
  apply BitVec.eq_of_toNat_eq
  simp only [fieldImm, BitVec.extractLsb'_toNat, packWord_toNat, Nat.shiftRight_eq_div_pow]
  have := op.isLt; have := rd.isLt; have := rs1.isLt; have := rs2.isLt; have := imm.isLt
  omega

/-- A word is the packing of its five fields. -/
theorem packWord_fields (w : Word) :
    packWord (fieldOp w) (fieldRd w) (fieldRs1 w) (fieldRs2 w) (fieldImm w) = w := by
  apply BitVec.eq_of_toNat_eq
  simp only [packWord_toNat, fieldOp, fieldRd, fieldRs1, fieldRs2, fieldImm,
    BitVec.extractLsb'_toNat, Nat.shiftRight_eq_div_pow]
  have := w.isLt
  omega

end Sys2Proof
end

