-- ==== Sys2Proof/Laws/Field.lean ====
section
/-! SUPPORT. The field functions (spec/41_gf.md): results are field elements, and LOG finds what the
exp table holds. -/

namespace Sys2Proof.Machine

theorem fieldMax_lt (F : FieldParams) : fieldMax F < 2 ^ F.width :=
  Nat.sub_lt (Nat.two_pow_pos _) Nat.one_pos

theorem expStep_lt (F : FieldParams) {v : Nat} (_ : v < 2 ^ F.width) : expStep F v < 2 ^ F.width := by
  unfold expStep
  split
  · exact lt_of_le_of_lt Nat.and_le_right (fieldMax_lt F)
  · omega

theorem expEntry_succ (F : FieldParams) (i : Nat) : expEntry F (i + 1) = expStep F (expEntry F i) :=
  Function.iterate_succ_apply' ..

theorem expEntry_lt (F : FieldParams) (h : 0 < F.width) (i : Nat) : expEntry F i < 2 ^ F.width := by
  induction i with
  | zero => exact Nat.one_lt_two_pow h.ne'
  | succ i ih => rw [expEntry_succ]; exact expStep_lt F ih

theorem gfExp_lt (F : FieldParams) (h : 0 < F.width) (i : Nat) : gfExp F i < 2 ^ F.width :=
  expEntry_lt F h _

/-- What the search of the table can answer: an entry between `i` and `i + fuel` that holds `a`. -/
theorem logSearch_some (F : FieldParams) (a fuel i v j : Nat) (h : logSearch F a fuel i v = some j) :
    i ≤ j ∧ j < i + fuel ∧ (expStep F)^[j - i] v = a := by
  induction fuel generalizing i v with
  | zero => simp [logSearch] at h
  | succ fuel ih =>
    rw [logSearch] at h
    split at h
    · cases h; simp_all
    · obtain ⟨h1, h2, h3⟩ := ih _ _ h
      refine ⟨by omega, by omega, ?_⟩
      rw [show j - i = (j - (i + 1)) + 1 by omega, Function.iterate_succ_apply]
      exact h3

theorem logSearch_none (F : FieldParams) (a fuel i v : Nat) (h : logSearch F a fuel i v = none) :
    ∀ k < fuel, (expStep F)^[k] v ≠ a := by
  induction fuel generalizing i v with
  | zero => intro k hk; omega
  | succ fuel ih =>
    rw [logSearch] at h
    split at h
    · cases h
    · rename_i hv
      intro k hk
      cases k with
      | zero => exact hv
      | succ k => exact ih _ _ h k (by omega)

/-- LOG finds an exponent below MAX that the exp table maps to `a` (R143). -/
theorem gfLog?_some (F : FieldParams) (a j : Nat) (h : gfLog? F a = some j) :
    j < fieldMax F ∧ expEntry F j = a := by
  obtain ⟨-, h2, h3⟩ := logSearch_some F a _ _ _ _ h
  exact ⟨by omega, h3⟩

theorem gfLog?_none (F : FieldParams) (a : Nat) (h : gfLog? F a = none) :
    ∀ k < fieldMax F, expEntry F k ≠ a := logSearch_none F a _ _ _ h

/-- A field whose LOG table has every nonzero element is primitive (R141, R143). -/
theorem primitiveField_of_gfLog? (F : FieldParams) (hprim : F.prim < 2 ^ F.width)
    (h : ∀ a < 2 ^ F.width, a ≠ 0 → (gfLog? F a).isSome) : PrimitiveField F where
  lowOrder := hprim
  visitsAll a hpos ha := by
    obtain ⟨i, hi⟩ := Option.isSome_iff_exists.mp (h a ha hpos.ne')
    exact ⟨i, gfLog?_some F a i hi⟩

/-- In a primitive field every nonzero element has a LOG below MAX, which EXP maps back to it (R143). -/
theorem gfLog_spec {F : FieldParams} (hF : PrimitiveField F) {a : Nat} (hpos : 0 < a)
    (ha : a < 2 ^ F.width) : gfLog F a < fieldMax F ∧ expEntry F (gfLog F a) = a := by
  obtain ⟨i, hi, hexp⟩ := hF.visitsAll a hpos ha
  cases h : gfLog? F a with
  | none => exact absurd hexp (gfLog?_none F a h i hi)
  | some j => simpa [gfLog, h] using gfLog?_some F a j h

theorem gfMul_lt (F : FieldParams) (h : 0 < F.width) (a c : Nat) : gfMul F a c < 2 ^ F.width := by
  unfold gfMul
  split
  · exact Nat.two_pow_pos _
  · exact gfExp_lt F h _

@[simp] theorem gfMul_zero_left (F : FieldParams) (c : Nat) : gfMul F 0 c = 0 := by simp [gfMul]
@[simp] theorem gfMul_zero_right (F : FieldParams) (a : Nat) : gfMul F a 0 = 0 := by simp [gfMul]

theorem gfPow_lt (F : FieldParams) (h : 0 < F.width) (a n : Nat) : gfPow F a n < 2 ^ F.width := by
  unfold gfPow
  split
  · split
    · exact Nat.one_lt_two_pow h.ne'
    · exact Nat.two_pow_pos _
  · exact gfExp_lt F h _

theorem horner_cons (F : FieldParams) (x c : Nat) (rest : List Nat) :
    horner F x (c :: rest) = gfMul F (horner F x rest) x ^^^ c := rfl

/-- The evaluator's result is a field element where the coefficients are. -/
theorem horner_lt (F : FieldParams) (h : 0 < F.width) (x : Nat) (coef : List Nat)
    (hc : ∀ c ∈ coef, c < 2 ^ F.width) : horner F x coef < 2 ^ F.width := by
  induction coef with
  | nil => exact Nat.two_pow_pos _
  | cons c rest _ =>
    rw [horner_cons]
    exact Nat.xor_lt_two_pow (gfMul_lt F h _ _) (hc c (by simp))

theorem lagrangeTerm_lt (F : FieldParams) (h : 0 < F.width) (t : Nat) (p : Nat × Nat)
    (others : List (Nat × Nat)) : lagrangeTerm F t p others < 2 ^ F.width := by
  unfold lagrangeTerm
  split
  · exact Nat.two_pow_pos _
  · split
    · exact Nat.two_pow_pos _
    · exact gfExp_lt F h _

/-- The interpolator's result is a field element. -/
theorem interpolate_lt (F : FieldParams) (h : 0 < F.width) (samples : List (Nat × Nat)) (t : Nat) :
    interpolate F samples t < 2 ^ F.width := by
  unfold interpolate
  suffices H : ∀ (l : List ((Nat × Nat) × Nat)) (z : Nat), z < 2 ^ F.width →
      l.foldl (fun sum p => sum ^^^ lagrangeTerm F t p.1 (samples.eraseIdx p.2)) z < 2 ^ F.width from
    H _ 0 (Nat.two_pow_pos _)
  intro l
  induction l with
  | nil => intro z hz; exact hz
  | cons p l ih => intro z hz; exact ih _ (Nat.xor_lt_two_pow hz (lagrangeTerm_lt F h _ _ _))

end Sys2Proof.Machine
end

