-- ==== Sys2Proof/Laws/State.lean ====
section
/-! SUPPORT. One lemma per field per update of the state, so that no proof unfolds a record update. -/

namespace Sys2Proof.Machine

variable (s : State)

/-! ## `State.setReg` -/

@[simp] theorem setReg_prim (i : Reg) (v : Word) : (s.setReg i v).prim = s.prim := rfl
@[simp] theorem setReg_regs (i : Reg) (v : Word) : (s.setReg i v).regs = s.regs.set v i := rfl
@[simp] theorem setReg_b (i : Reg) (v : Word) : (s.setReg i v).b = s.b := rfl
@[simp] theorem setReg_thresh (i : Reg) (v : Word) : (s.setReg i v).thresh = s.thresh := rfl
@[simp] theorem setReg_coef (i : Reg) (v : Word) : (s.setReg i v).coef = s.coef := rfl
@[simp] theorem setReg_samples (i : Reg) (v : Word) : (s.setReg i v).samples = s.samples := rfl
@[simp] theorem setReg_bb (i : Reg) (v : Word) : (s.setReg i v).bb = s.bb := rfl
@[simp] theorem setReg_inProgress (i : Reg) (v : Word) : (s.setReg i v).inProgress = s.inProgress := rfl
@[simp] theorem setReg_err (i : Reg) (v : Word) : (s.setReg i v).err = s.err := rfl
@[simp] theorem setReg_errcode (i : Reg) (v : Word) : (s.setReg i v).errcode = s.errcode := rfl
@[simp] theorem setReg_insec (i : Reg) (v : Word) : (s.setReg i v).insec = s.insec := rfl
@[simp] theorem setReg_errcmd (i : Reg) (v : Word) : (s.setReg i v).errcmd = s.errcmd := rfl
@[simp] theorem setReg_inseccnt (i : Reg) (v : Word) : (s.setReg i v).inseccnt = s.inseccnt := rfl
@[simp] theorem setReg_genDraws (i : Reg) (v : Word) : (s.setReg i v).genDraws = s.genDraws := rfl
@[simp] theorem setReg_entPresent (i : Reg) (v : Word) : (s.setReg i v).entPresent = s.entPresent := rfl
@[simp] theorem setReg_entReady (i : Reg) (v : Word) : (s.setReg i v).entReady = s.entReady := rfl
@[simp] theorem setReg_inbox (i : Reg) (v : Word) : (s.setReg i v).inbox = s.inbox := rfl
@[simp] theorem setReg_reply (i : Reg) (v : Word) : (s.setReg i v).reply = s.reply := rfl

/-! ## `State.setRegNat` -/

@[simp] theorem setRegNat_prim (i : Reg) (n : Nat) : (s.setRegNat i n).prim = s.prim := rfl
@[simp] theorem setRegNat_regs (i : Reg) (n : Nat) : (s.setRegNat i n).regs = s.regs.set (BitVec.ofNat 32 n) i := rfl
@[simp] theorem setRegNat_b (i : Reg) (n : Nat) : (s.setRegNat i n).b = s.b := rfl
@[simp] theorem setRegNat_thresh (i : Reg) (n : Nat) : (s.setRegNat i n).thresh = s.thresh := rfl
@[simp] theorem setRegNat_coef (i : Reg) (n : Nat) : (s.setRegNat i n).coef = s.coef := rfl
@[simp] theorem setRegNat_samples (i : Reg) (n : Nat) : (s.setRegNat i n).samples = s.samples := rfl
@[simp] theorem setRegNat_bb (i : Reg) (n : Nat) : (s.setRegNat i n).bb = s.bb := rfl
@[simp] theorem setRegNat_inProgress (i : Reg) (n : Nat) : (s.setRegNat i n).inProgress = s.inProgress := rfl
@[simp] theorem setRegNat_err (i : Reg) (n : Nat) : (s.setRegNat i n).err = s.err := rfl
@[simp] theorem setRegNat_errcode (i : Reg) (n : Nat) : (s.setRegNat i n).errcode = s.errcode := rfl
@[simp] theorem setRegNat_insec (i : Reg) (n : Nat) : (s.setRegNat i n).insec = s.insec := rfl
@[simp] theorem setRegNat_errcmd (i : Reg) (n : Nat) : (s.setRegNat i n).errcmd = s.errcmd := rfl
@[simp] theorem setRegNat_inseccnt (i : Reg) (n : Nat) : (s.setRegNat i n).inseccnt = s.inseccnt := rfl
@[simp] theorem setRegNat_genDraws (i : Reg) (n : Nat) : (s.setRegNat i n).genDraws = s.genDraws := rfl
@[simp] theorem setRegNat_entPresent (i : Reg) (n : Nat) : (s.setRegNat i n).entPresent = s.entPresent := rfl
@[simp] theorem setRegNat_entReady (i : Reg) (n : Nat) : (s.setRegNat i n).entReady = s.entReady := rfl
@[simp] theorem setRegNat_inbox (i : Reg) (n : Nat) : (s.setRegNat i n).inbox = s.inbox := rfl
@[simp] theorem setRegNat_reply (i : Reg) (n : Nat) : (s.setRegNat i n).reply = s.reply := rfl

/-! ## `State.raise` -/

@[simp] theorem raise_prim (e : ErrorClass) (w : Word) : (s.raise e w).prim = s.prim := rfl
@[simp] theorem raise_regs (e : ErrorClass) (w : Word) : (s.raise e w).regs = s.regs := rfl
@[simp] theorem raise_b (e : ErrorClass) (w : Word) : (s.raise e w).b = s.b := rfl
@[simp] theorem raise_thresh (e : ErrorClass) (w : Word) : (s.raise e w).thresh = s.thresh := rfl
@[simp] theorem raise_coef (e : ErrorClass) (w : Word) : (s.raise e w).coef = s.coef := rfl
@[simp] theorem raise_samples (e : ErrorClass) (w : Word) : (s.raise e w).samples = s.samples := rfl
@[simp] theorem raise_bb (e : ErrorClass) (w : Word) : (s.raise e w).bb = s.bb := rfl
@[simp] theorem raise_inProgress (e : ErrorClass) (w : Word) : (s.raise e w).inProgress = none := rfl
@[simp] theorem raise_err (e : ErrorClass) (w : Word) : (s.raise e w).err = true := rfl
@[simp] theorem raise_errcode (e : ErrorClass) (w : Word) : (s.raise e w).errcode = errorCode e := rfl
@[simp] theorem raise_insec (e : ErrorClass) (w : Word) : (s.raise e w).insec = s.insec := rfl
@[simp] theorem raise_errcmd (e : ErrorClass) (w : Word) : (s.raise e w).errcmd = w := rfl
@[simp] theorem raise_inseccnt (e : ErrorClass) (w : Word) : (s.raise e w).inseccnt = s.inseccnt := rfl
@[simp] theorem raise_genDraws (e : ErrorClass) (w : Word) : (s.raise e w).genDraws = s.genDraws := rfl
@[simp] theorem raise_entPresent (e : ErrorClass) (w : Word) : (s.raise e w).entPresent = s.entPresent := rfl
@[simp] theorem raise_entReady (e : ErrorClass) (w : Word) : (s.raise e w).entReady = s.entReady := rfl
@[simp] theorem raise_inbox (e : ErrorClass) (w : Word) : (s.raise e w).inbox = s.inbox := rfl
@[simp] theorem raise_reply (e : ErrorClass) (w : Word) : (s.raise e w).reply = s.reply := rfl

/-! ## `State.clearErr` -/

@[simp] theorem clearErr_prim : (s.clearErr).prim = s.prim := rfl
@[simp] theorem clearErr_regs : (s.clearErr).regs = s.regs := rfl
@[simp] theorem clearErr_b : (s.clearErr).b = s.b := rfl
@[simp] theorem clearErr_thresh : (s.clearErr).thresh = s.thresh := rfl
@[simp] theorem clearErr_coef : (s.clearErr).coef = s.coef := rfl
@[simp] theorem clearErr_samples : (s.clearErr).samples = s.samples := rfl
@[simp] theorem clearErr_bb : (s.clearErr).bb = s.bb := rfl
@[simp] theorem clearErr_inProgress : (s.clearErr).inProgress = s.inProgress := rfl
@[simp] theorem clearErr_err : (s.clearErr).err = false := rfl
@[simp] theorem clearErr_errcode : (s.clearErr).errcode = 0#4 := rfl
@[simp] theorem clearErr_insec : (s.clearErr).insec = s.insec := rfl
@[simp] theorem clearErr_errcmd : (s.clearErr).errcmd = s.errcmd := rfl
@[simp] theorem clearErr_inseccnt : (s.clearErr).inseccnt = s.inseccnt := rfl
@[simp] theorem clearErr_genDraws : (s.clearErr).genDraws = s.genDraws := rfl
@[simp] theorem clearErr_entPresent : (s.clearErr).entPresent = s.entPresent := rfl
@[simp] theorem clearErr_entReady : (s.clearErr).entReady = s.entReady := rfl
@[simp] theorem clearErr_inbox : (s.clearErr).inbox = s.inbox := rfl
@[simp] theorem clearErr_reply : (s.clearErr).reply = s.reply := rfl

/-! ## `State.drawInsecure` -/

@[simp] theorem drawInsecure_prim (k : Nat) : (s.drawInsecure k).prim = s.prim := rfl
@[simp] theorem drawInsecure_regs (k : Nat) : (s.drawInsecure k).regs = s.regs := rfl
@[simp] theorem drawInsecure_b (k : Nat) : (s.drawInsecure k).b = s.b := rfl
@[simp] theorem drawInsecure_thresh (k : Nat) : (s.drawInsecure k).thresh = s.thresh := rfl
@[simp] theorem drawInsecure_coef (k : Nat) : (s.drawInsecure k).coef = s.coef ++ s.defaultDraws k := rfl
@[simp] theorem drawInsecure_samples (k : Nat) : (s.drawInsecure k).samples = s.samples := rfl
@[simp] theorem drawInsecure_bb (k : Nat) : (s.drawInsecure k).bb = s.bb := rfl
@[simp] theorem drawInsecure_inProgress (k : Nat) : (s.drawInsecure k).inProgress = s.inProgress := rfl
@[simp] theorem drawInsecure_err (k : Nat) : (s.drawInsecure k).err = s.err := rfl
@[simp] theorem drawInsecure_errcode (k : Nat) : (s.drawInsecure k).errcode = s.errcode := rfl
@[simp] theorem drawInsecure_insec (k : Nat) : (s.drawInsecure k).insec = true := rfl
@[simp] theorem drawInsecure_errcmd (k : Nat) : (s.drawInsecure k).errcmd = s.errcmd := rfl
@[simp] theorem drawInsecure_inseccnt (k : Nat) : (s.drawInsecure k).inseccnt = saturatingAdd s.inseccnt k := rfl
@[simp] theorem drawInsecure_genDraws (k : Nat) : (s.drawInsecure k).genDraws = s.genDraws + k := rfl
@[simp] theorem drawInsecure_entPresent (k : Nat) : (s.drawInsecure k).entPresent = s.entPresent := rfl
@[simp] theorem drawInsecure_entReady (k : Nat) : (s.drawInsecure k).entReady = s.entReady := rfl
@[simp] theorem drawInsecure_inbox (k : Nat) : (s.drawInsecure k).inbox = s.inbox := rfl
@[simp] theorem drawInsecure_reply (k : Nat) : (s.drawInsecure k).reply = s.reply := rfl

/-! ## `State.resetBlock` -/

@[simp] theorem resetBlock_prim : (s.resetBlock).prim = s.prim := rfl
@[simp] theorem resetBlock_regs : (s.resetBlock).regs = State.reset.regs := rfl
@[simp] theorem resetBlock_b : (s.resetBlock).b = 8 := rfl
@[simp] theorem resetBlock_thresh : (s.resetBlock).thresh = 0 := rfl
@[simp] theorem resetBlock_coef : (s.resetBlock).coef = [] := rfl
@[simp] theorem resetBlock_samples : (s.resetBlock).samples = [] := rfl
@[simp] theorem resetBlock_bb : (s.resetBlock).bb = [] := rfl
@[simp] theorem resetBlock_inProgress : (s.resetBlock).inProgress = none := rfl
@[simp] theorem resetBlock_err : (s.resetBlock).err = false := rfl
@[simp] theorem resetBlock_errcode : (s.resetBlock).errcode = 0#4 := rfl
@[simp] theorem resetBlock_insec : (s.resetBlock).insec = false := rfl
@[simp] theorem resetBlock_errcmd : (s.resetBlock).errcmd = 0#32 := rfl
@[simp] theorem resetBlock_inseccnt : (s.resetBlock).inseccnt = 0#32 := rfl
@[simp] theorem resetBlock_genDraws : (s.resetBlock).genDraws = s.genDraws := rfl
@[simp] theorem resetBlock_entPresent : (s.resetBlock).entPresent = s.entPresent := rfl
@[simp] theorem resetBlock_entReady : (s.resetBlock).entReady = s.entReady := rfl
@[simp] theorem resetBlock_inbox : (s.resetBlock).inbox = s.inbox := rfl
@[simp] theorem resetBlock_reply : (s.resetBlock).reply = s.reply := rfl

/-! ## `State.resetWith` -/

@[simp] theorem resetWith_prim (table : PrimTable) : (State.resetWith table).prim = table := rfl
@[simp] theorem resetWith_default : State.resetWith defaultPrimTable = State.reset := rfl

end Sys2Proof.Machine
end

