-- ==== Sys2Proof/Laws/Ops.lean ====
section
/-! SUPPORT. For each shared operation, once, everything it can do. -/

namespace Sys2Proof.Machine

/-! ## Registers -/

@[simp] theorem regs_get_set_same (g : Regs) (v : Word) (i : Reg) : (g.set v i).get i = v := by
  cases i <;> rfl

theorem regs_get_set (g : Regs) (v : Word) (i j : Reg) :
    (g.set v i).get j = if j = i then v else g.get j := by
  cases i <;> cases j <;> rfl

theorem regs_ext (g h : Regs) (heq : ∀ i, g.get i = h.get i) : g = h := by
  cases g; cases h
  simp only [Regs.mk.injEq]
  exact ⟨heq .r0, heq .r1, heq .r2, heq .r3, heq .r4, heq .r5, heq .r6, heq .r7⟩

@[simp] theorem reg_setReg_same (s : State) (i : Reg) (v : Word) : (s.setReg i v).reg i = v :=
  regs_get_set_same s.regs v i

theorem reg_setReg (s : State) (i j : Reg) (v : Word) :
    (s.setReg i v).reg j = if j = i then v else s.reg j := regs_get_set s.regs v i j

theorem reg_setReg_other (s : State) {i j : Reg} (v : Word) (h : j ≠ i) :
    (s.setReg i v).reg j = s.reg j := by rw [reg_setReg, if_neg h]

theorem reg_setRegNat (s : State) (i j : Reg) (n : Nat) :
    (s.setRegNat i n).reg j = if j = i then BitVec.ofNat 32 n else s.reg j := reg_setReg s i j _

@[simp] theorem reg_setRegNat_same (s : State) (i : Reg) (n : Nat) :
    (s.setRegNat i n).reg i = BitVec.ofNat 32 n := reg_setReg_same s i _

/-- Writing one register changes no other register and no other field. -/
theorem setReg_onlyRegsChange (s : State) (i : Reg) (v : Word) :
    OnlyRegsChange s (s.setReg i v) [i] :=
  ⟨fun _ hr => reg_setReg_other s v (by simpa using hr), rfl⟩

theorem setRegNat_onlyRegsChange (s : State) (i : Reg) (n : Nat) :
    OnlyRegsChange s (s.setRegNat i n) [i] := setReg_onlyRegsChange s i _

theorem nextReg_ne (i : Reg) : nextReg i ≠ i := by cases i <;> decide

/-! ## Checks -/

theorem require_pos {ok : Prop} [Decidable ok] (h : ok) (e : ErrorClass) : require ok e = .ok () :=
  if_pos h

theorem require_neg {ok : Prop} [Decidable ok] (h : ¬ ok) (e : ErrorClass) :
    require ok e = .error e := if_neg h

theorem require_cases (ok : Prop) [Decidable ok] (e : ErrorClass) :
    (ok ∧ require ok e = .ok ()) ∨ (¬ ok ∧ require ok e = .error e) := by
  by_cases h : ok
  · exact .inl ⟨h, if_pos h⟩
  · exact .inr ⟨h, if_neg h⟩

@[simp] theorem complete_ok (i : Instr) (s t : State) : complete i s (.ok t) = .next t := rfl
@[simp] theorem complete_error (i : Instr) (s : State) (e : ErrorClass) :
    complete i s (.error e) = .next (s.raise e (encode i)) := rfl

@[simp] theorem except_ok_bind {ε α β : Type} (a : α) (f : α → Except ε β) :
    ((Except.ok a : Except ε α) >>= f) = f a := rfl
@[simp] theorem except_error_bind {ε α β : Type} (e : ε) (f : α → Except ε β) :
    ((Except.error e : Except ε α) >>= f) = .error e := rfl

theorem fieldOperand_ok {s : State} {i : Reg} (h : s.regNat i ≤ s.maxElem) :
    s.fieldOperand i = .ok (s.regNat i) := if_pos h

theorem fieldOperand_error {s : State} {i : Reg} (h : s.maxElem < s.regNat i) :
    s.fieldOperand i = .error .validation := if_neg (Nat.not_le.mpr h)

theorem maxElem_eq (s : State) : s.maxElem = 2 ^ s.b - 1 := rfl

theorem holdsElem_iff (s : State) (i : Reg) : s.holdsElem i ↔ s.regNat i ≤ s.maxElem := by
  have : 0 < 2 ^ s.b := Nat.two_pow_pos s.b
  rw [State.holdsElem, maxElem_eq]; omega

theorem fieldOperand_cases (s : State) (i : Reg) :
    (s.holdsElem i ∧ s.fieldOperand i = .ok (s.regNat i)) ∨
      (¬ s.holdsElem i ∧ s.fieldOperand i = .error .validation) := by
  by_cases h : s.regNat i ≤ s.maxElem
  · exact .inl ⟨(holdsElem_iff s i).mpr h, if_pos h⟩
  · exact .inr ⟨fun hc => h ((holdsElem_iff s i).mp hc), if_neg h⟩

theorem rangeOperand_cases (s : State) (i : Reg) (lo hi : Nat) :
    ((lo ≤ s.regNat i ∧ s.regNat i ≤ hi) ∧ s.rangeOperand i lo hi = .ok (s.regNat i)) ∨
      (¬ (lo ≤ s.regNat i ∧ s.regNat i ≤ hi) ∧ s.rangeOperand i lo hi = .error .validation) := by
  by_cases h : lo ≤ s.regNat i ∧ s.regNat i ≤ hi
  · exact .inl ⟨h, if_pos h⟩
  · exact .inr ⟨h, if_neg h⟩

theorem groupWidth_cases (imm : Nat) :
    ((1 ≤ imm ∧ imm ≤ 32) ∧ groupWidth imm = .ok imm) ∨
      (¬ (1 ≤ imm ∧ imm ≤ 32) ∧ groupWidth imm = .error .validation) := by
  by_cases h : 1 ≤ imm ∧ imm ≤ 32
  · exact .inl ⟨h, if_pos h⟩
  · exact .inr ⟨h, if_neg h⟩

theorem threshSet_cases (s : State) :
    (s.thresh ≠ 0 ∧ s.threshSet = .ok ()) ∨ (s.thresh = 0 ∧ s.threshSet = .error .validation) := by
  by_cases h : s.thresh = 0
  · exact .inr ⟨h, require_neg (by simpa using h) _⟩
  · exact .inl ⟨h, require_pos h _⟩

/-! ## The bit buffer -/

theorem pushBack_cases (s : State) (bits : BitString) :
    (s.bl + bits.length ≤ 4096 ∧ s.pushBack bits = .ok { s with bb := s.bb ++ bits }) ∨
      (4096 < s.bl + bits.length ∧ s.pushBack bits = .error .capacity) := by
  by_cases h : s.bl + bits.length ≤ 4096
  · exact .inl ⟨h, if_pos h⟩
  · exact .inr ⟨Nat.not_le.mp h, if_neg h⟩

theorem pushFront_cases (s : State) (bits : BitString) :
    (s.bl + bits.length ≤ 4096 ∧ s.pushFront bits = .ok { s with bb := bits ++ s.bb }) ∨
      (4096 < s.bl + bits.length ∧ s.pushFront bits = .error .capacity) := by
  by_cases h : s.bl + bits.length ≤ 4096
  · exact .inl ⟨h, if_pos h⟩
  · exact .inr ⟨Nat.not_le.mp h, if_neg h⟩

theorem popFront_cases (s : State) (n : Nat) (rd : Reg) :
    (n ≤ s.bl ∧ s.popFront n rd
        = .ok { s.setRegNat rd (bitsVal (s.bb.take n)) with bb := s.bb.drop n }) ∨
      (s.bl < n ∧ s.popFront n rd = .error .capacity) := by
  by_cases h : n ≤ s.bl
  · exact .inl ⟨h, if_pos h⟩
  · exact .inr ⟨Nat.not_le.mp h, if_neg h⟩

/-! ## Random draws -/

theorem drawValue_lt (b : Nat) (bits : BitVec 20) : drawValue b bits < 2 ^ b :=
  Nat.mod_lt _ (Nat.two_pow_pos b)

@[simp] theorem length_defaultDraws (s : State) (k : Nat) : (s.defaultDraws k).length = k := by
  simp [State.defaultDraws]

theorem defaultDraws_lt (s : State) (k : Nat) : ∀ v ∈ s.defaultDraws k, v < 2 ^ s.b := by
  intro v hv
  obtain ⟨j, -, rfl⟩ := List.mem_map.mp hv
  exact drawValue_lt _ _

theorem toNat_saturatingAdd (count : Word) (k : Nat) :
    (saturatingAdd count k).toNat = min (count.toNat + k) (2 ^ 32 - 1) := by
  simp only [saturatingAdd, BitVec.toNat_ofNat]
  exact Nat.mod_eq_of_lt (by omega)

/-- What a CRAND does with the values the port has ready: all of them are there and it completes, or it
takes what there is and waits. -/
theorem drawSecure_cases (s : State) (need : Nat) (got : List Nat) :
    (need ≤ s.entReady.length ∧ s.drawSecure need got =
        { s with
          coef := s.coef ++ (got ++ (s.entReady.take need).map (drawValue s.b))
          entReady := s.entReady.drop need
          inProgress := none }) ∨
      (s.entReady.length < need ∧ s.drawSecure need got =
        { s with
          entReady := []
          inProgress := some ⟨need - s.entReady.length, got ++ s.entReady.map (drawValue s.b)⟩ }) := by
  by_cases h : need ≤ s.entReady.length
  · refine .inl ⟨h, ?_⟩
    have hl : need ≤ ((s.entReady.take need).map (drawValue s.b)).length := by simp [h]
    simp only [State.drawSecure, if_pos hl]
  · have hlt := Nat.not_le.mp h
    refine .inr ⟨hlt, ?_⟩
    have htake : s.entReady.take need = s.entReady := List.take_of_length_le hlt.le
    have hdrop : s.entReady.drop need = [] := List.drop_of_length_le hlt.le
    simp only [State.drawSecure, htake, hdrop, List.length_map, if_neg h]

/-! ## The next input -/

/-- While BUSY = 1 the first input that is not held is taken, and the others keep their order. -/
theorem takeUnheld_append (before : List Input) (i : Input) (rest : List Input)
    (hb : ∀ j ∈ before, heldWhileBusy j = true) (hi : heldWhileBusy i = false) :
    takeUnheld (before ++ i :: rest) = some (i, before ++ rest) := by
  induction before with
  | nil => simp [takeUnheld, hi]
  | cons j before ih =>
    simp [takeUnheld, hb j (by simp), ih fun k hk => hb k (by simp [hk])]

theorem takeUnheld_none (l : List Input) (h : ∀ j ∈ l, heldWhileBusy j = true) :
    takeUnheld l = none := by
  induction l with
  | nil => rfl
  | cons j l ih => simp [takeUnheld, h j (by simp), ih fun k hk => h k (by simp [hk])]

/-- Every command answers with a next state: its own effect, or the error latch set (R410). -/
theorem complete_cases (i : Instr) (s : State) (r : Except ErrorClass State) :
    (∃ t, r = .ok t ∧ complete i s r = .next t) ∨
      (∃ e, r = .error e ∧ complete i s r = .next (s.raise e (encode i))) := by
  cases r with
  | ok t => exact .inl ⟨t, rfl, rfl⟩
  | error e => exact .inr ⟨e, rfl, rfl⟩

end Sys2Proof.Machine
end

