-- ==== Sys2Proof/Laws/PerInstr.lean ====
section
/-! SUPPORT. Statements for all instructions, made per instruction. -/

namespace Sys2Proof.Laws.EncodingFitsItsRow

/-- The encoding of the command matches a row of the opcode map: its opcode stands in bits 31:24 and
every field it does not use is zero (spec/30_encoding.md R102, R105). -/
def Statement (i : Instr) : Prop := isCommandWord (encode i) = true

/-- The mask of a row as the packing of its fields. -/
theorem rowMask_eq (d a c n : Bool) :
    rowMask d a c n = packWord 0xFF#8 (if d then 0#3 else 7#3) (if a then 0#3 else 7#3)
      (if c then 0#3 else 7#3) (if n then 0#15 else 0x7FFF#15) := by
  cases d <;> cases a <;> cases c <;> cases n <;> rfl

/-- OP·2^24 as the packing of its fields. -/
theorem opcode_eq : ∀ op : BitVec 8, (op ++ 0#24 : Word) = packWord op 0#3 0#3 0#3 0#15 := by decide

theorem packWord_and (op op' : BitVec 8) (d d' a a' c c' : BitVec 3) (n n' : BitVec 15) :
    packWord op d a c n &&& packWord op' d' a' c' n'
      = packWord (op &&& op') (d &&& d') (a &&& a') (c &&& c') (n &&& n') := by
  have h : (op ++ d ++ a ++ c ++ n) &&& (op' ++ d' ++ a' ++ c' ++ n')
      = (op &&& op') ++ (d &&& d') ++ (a &&& a') ++ (c &&& c') ++ (n &&& n') := by
    simp only [BitVec.and_append]
  exact h

/-- A packed word is a command word if some row has its opcode and the row's unused fields are zero. -/
theorem of_row {op : BitVec 8} {d a c : BitVec 3} {n : BitVec 15} (ud ua uc un : Bool)
    (hmem : opcodeRow op ud ua uc un ∈ opcodeRows)
    (hd : ud = false → d = 0#3) (ha : ua = false → a = 0#3) (hc : uc = false → c = 0#3)
    (hn : un = false → n = 0#15) : isCommandWord (packWord op d a c n) = true := by
  refine List.any_eq_true.mpr ⟨_, hmem, ?_⟩
  have hop : op &&& 0xFF#8 = op := BitVec.and_allOnes
  rw [beq_iff_eq, opcodeRow, opcode_eq, rowMask_eq, packWord_and, hop]
  cases ud <;> cases ua <;> cases uc <;> cases un <;> simp_all

theorem li (rd : Reg) (imm : Nat) : Statement (.li rd imm) :=
  of_row true false false true (by decide) (fun h => nomatch h) (fun _ => rfl) (fun _ => rfl) (fun h => nomatch h)

theorem mov (rd rs1 : Reg) : Statement (.mov rd rs1) :=
  of_row true true false false (by decide) (fun h => nomatch h) (fun h => nomatch h) (fun _ => rfl) (fun _ => rfl)

theorem setb (imm : Nat) : Statement (.setb imm) :=
  of_row false false false true (by decide) (fun _ => rfl) (fun _ => rfl) (fun _ => rfl) (fun h => nomatch h)

theorem sett (rs1 : Reg) : Statement (.sett rs1) :=
  of_row false true false false (by decide) (fun _ => rfl) (fun h => nomatch h) (fun _ => rfl) (fun _ => rfl)

theorem gadd (rd rs1 rs2 : Reg) : Statement (.gadd rd rs1 rs2) :=
  of_row true true true false (by decide) (fun h => nomatch h) (fun h => nomatch h) (fun h => nomatch h) (fun _ => rfl)

theorem gmul (rd rs1 rs2 : Reg) : Statement (.gmul rd rs1 rs2) :=
  of_row true true true false (by decide) (fun h => nomatch h) (fun h => nomatch h) (fun h => nomatch h) (fun _ => rfl)

theorem ginv (rd rs1 : Reg) : Statement (.ginv rd rs1) :=
  of_row true true false false (by decide) (fun h => nomatch h) (fun h => nomatch h) (fun _ => rfl) (fun _ => rfl)

theorem gpow (rd rs1 rs2 : Reg) : Statement (.gpow rd rs1 rs2) :=
  of_row true true true false (by decide) (fun h => nomatch h) (fun h => nomatch h) (fun h => nomatch h) (fun _ => rfl)

theorem glog (rd rs1 : Reg) : Statement (.glog rd rs1) :=
  of_row true true false false (by decide) (fun h => nomatch h) (fun h => nomatch h) (fun _ => rfl) (fun _ => rfl)

theorem gexp (rd rs1 : Reg) : Statement (.gexp rd rs1) :=
  of_row true true false false (by decide) (fun h => nomatch h) (fun h => nomatch h) (fun _ => rfl) (fun _ => rfl)

theorem cclr : Statement .cclr :=
  of_row false false false false (by decide) (fun _ => rfl) (fun _ => rfl) (fun _ => rfl) (fun _ => rfl)

theorem cpush (rs1 : Reg) : Statement (.cpush rs1) :=
  of_row false true false false (by decide) (fun _ => rfl) (fun h => nomatch h) (fun _ => rfl) (fun _ => rfl)

theorem crand : Statement .crand :=
  of_row false false false false (by decide) (fun _ => rfl) (fun _ => rfl) (fun _ => rfl) (fun _ => rfl)

theorem eval (rd rs1 : Reg) : Statement (.eval rd rs1) :=
  of_row true true false false (by decide) (fun h => nomatch h) (fun h => nomatch h) (fun _ => rfl) (fun _ => rfl)

theorem sclr : Statement .sclr :=
  of_row false false false false (by decide) (fun _ => rfl) (fun _ => rfl) (fun _ => rfl) (fun _ => rfl)

theorem sadd (rs1 rs2 : Reg) : Statement (.sadd rs1 rs2) :=
  of_row false true true false (by decide) (fun _ => rfl) (fun h => nomatch h) (fun h => nomatch h) (fun _ => rfl)

theorem interp (rd rs1 : Reg) : Statement (.interp rd rs1) :=
  of_row true true false false (by decide) (fun h => nomatch h) (fun h => nomatch h) (fun _ => rfl) (fun _ => rfl)

theorem bclr : Statement .bclr :=
  of_row false false false false (by decide) (fun _ => rfl) (fun _ => rfl) (fun _ => rfl) (fun _ => rfl)

theorem bpushh (rs1 : Reg) : Statement (.bpushh rs1) :=
  of_row false true false false (by decide) (fun _ => rfl) (fun h => nomatch h) (fun _ => rfl) (fun _ => rfl)

theorem bpoph (rd : Reg) : Statement (.bpoph rd) :=
  of_row true false false false (by decide) (fun h => nomatch h) (fun _ => rfl) (fun _ => rfl) (fun _ => rfl)

theorem bpushe (rs1 : Reg) : Statement (.bpushe rs1) :=
  of_row false true false false (by decide) (fun _ => rfl) (fun h => nomatch h) (fun _ => rfl) (fun _ => rfl)

theorem bpope (rd : Reg) : Statement (.bpope rd) :=
  of_row true false false false (by decide) (fun h => nomatch h) (fun _ => rfl) (fun _ => rfl) (fun _ => rfl)

theorem blpad (imm : Nat) : Statement (.blpad imm) :=
  of_row false false false true (by decide) (fun _ => rfl) (fun _ => rfl) (fun _ => rfl) (fun h => nomatch h)

theorem balign (imm : Nat) : Statement (.balign imm) :=
  of_row false false false true (by decide) (fun _ => rfl) (fun _ => rfl) (fun _ => rfl) (fun h => nomatch h)

theorem btrim (imm : Nat) : Statement (.btrim imm) :=
  of_row false false false true (by decide) (fun _ => rfl) (fun _ => rfl) (fun _ => rfl) (fun h => nomatch h)

theorem bsent : Statement .bsent :=
  of_row false false false false (by decide) (fun _ => rfl) (fun _ => rfl) (fun _ => rfl) (fun _ => rfl)

theorem bstrip : Statement .bstrip :=
  of_row false false false false (by decide) (fun _ => rfl) (fun _ => rfl) (fun _ => rfl) (fun _ => rfl)

theorem bpushw (rs1 : Reg) : Statement (.bpushw rs1) :=
  of_row false true false false (by decide) (fun _ => rfl) (fun h => nomatch h) (fun _ => rfl) (fun _ => rfl)

theorem bpopw (rd : Reg) : Statement (.bpopw rd) :=
  of_row true false false false (by decide) (fun h => nomatch h) (fun _ => rfl) (fun _ => rfl) (fun _ => rfl)

theorem penc (rs1 rs2 : Reg) : Statement (.penc rs1 rs2) :=
  of_row false true true false (by decide) (fun _ => rfl) (fun h => nomatch h) (fun h => nomatch h) (fun _ => rfl)

theorem pdec (rd : Reg) : Statement (.pdec rd) :=
  of_row true false false false (by decide) (fun h => nomatch h) (fun _ => rfl) (fun _ => rfl) (fun _ => rfl)

end Sys2Proof.Laws.EncodingFitsItsRow
end

