-- ==== Sys2Proof/Machine/Asm.lean ====
section
/-! DEFINITION. The assembler of spec/30_encoding.md R110 and R111: one line of text, as characters, to
the host accesses it stands for (log 19). It is the host's language and no part of the step. -/

namespace Sys2Proof.Machine

/-! ## Words of a line -/

/-- The line without its comment (R110). -/
def stripComment (line : List Char) : List Char := line.takeWhile fun c => c != ';'

/-- A blank. -/
def isBlank (c : Char) : Bool := c == ' ' || c == '\t'

/-- The text without blanks at either end. -/
def trimBlanks (text : List Char) : List Char :=
  ((text.dropWhile isBlank).reverse.dropWhile isBlank).reverse

/-- The pieces between commas; the last piece is the one after the last comma. -/
def splitCommas : List Char → List (List Char)
  | [] => [[]]
  | c :: rest =>
    if c == ',' then [] :: splitCommas rest
    else match splitCommas rest with
      | [] => [[c]]
      | piece :: pieces => (c :: piece) :: pieces

/-- The operands after the mnemonic, separated by commas (R110). -/
def operandTexts (text : List Char) : List (List Char) :=
  if trimBlanks text = [] then [] else (splitCommas text).map trimBlanks

/-! ## Numbers and registers -/

/-- The value of a digit in base 16, letters in either case. -/
def digitValue (c : Char) : Option Nat :=
  let n := c.toNat
  if 48 ≤ n ∧ n ≤ 57 then some (n - 48)
  else if 97 ≤ n ∧ n ≤ 102 then some (n - 87)
  else if 65 ≤ n ∧ n ≤ 70 then some (n - 55)
  else none

/-- The number that digits of a base spell, after `acc`. -/
def digitsValue (base : Nat) : List Char → Nat → Option Nat
  | [], acc => some acc
  | c :: rest, acc =>
    match digitValue c with
    | none => none
    | some d => if d < base then digitsValue base rest (acc * base + d) else none

/-- A decimal or 0x-prefixed hexadecimal number (R110). -/
def parseNumber : List Char → Option Nat
  | [] => none
  | ['0', 'x'] => none
  | '0' :: 'x' :: digits => digitsValue 16 digits 0
  | digits => digitsValue 10 digits 0

/-- `r0` to `r7`, with the given first letter (R110). -/
def parseRegister (letter : Char) : List Char → Option Reg
  | [c, d] =>
    match digitValue d with
    | none => none
    | some n => if c = letter ∧ n < 8 then some (Reg.ofBits (BitVec.ofNat 3 n)) else none
  | _ => none

/-- The offset of a window register's name (R71, R110). -/
def windowName (name : List Char) : Option (BitVec 8) :=
  match String.ofList name with
  | "ID" => some offId
  | "CTRL" => some offCtrl
  | "STATUS" => some offStatus
  | "CMD" => some offCmd
  | "ERRCMD" => some 0x10#8
  | "CFGB" => some 0x14#8
  | "THRESH" => some 0x18#8
  | "FILL" => some 0x1C#8
  | "SCOUNT" => some 0x20#8
  | "BLEN" => some 0x24#8
  | "INSECCNT" => some offInseccnt
  | _ => (parseRegister 'R' name).map offReg

/-! ## Lines -/

/-- An operand of a line. -/
inductive AsmOperand where
  | reg (r : Reg)
  | num (n : Nat)
  | name (offset : BitVec 8)
deriving DecidableEq, Repr

/-- One operand: a register, a number or a window register. -/
def parseOperand (text : List Char) : Option AsmOperand :=
  match parseRegister 'r' text with
  | some r => some (.reg r)
  | none =>
    match parseNumber text with
    | some n => some (.num n)
    | none => (windowName text).map AsmOperand.name

/-- All operands, or none if one of them is not an operand. -/
def parseOperands : List (List Char) → Option (List AsmOperand)
  | [] => some []
  | text :: rest =>
    match parseOperand text, parseOperands rest with
    | some o, some os => some (o :: os)
    | _, _ => none

/-- The command of a mnemonic and its operands, in the order of R105's syntax column, and the two
pseudo-instructions that expand to a command (R111). -/
def asmCommand (mnemonic : List Char) (operands : List AsmOperand) : Option Instr :=
  match String.ofList mnemonic, operands with
  | "LI", [.reg rd, .num imm] => some (.li rd imm)
  | "MOV", [.reg rd, .reg rs1] => some (.mov rd rs1)
  | "SETB", [.num imm] => some (.setb imm)
  | "SETT", [.reg rs1] => some (.sett rs1)
  | "GADD", [.reg rd, .reg rs1, .reg rs2] => some (.gadd rd rs1 rs2)
  | "GMUL", [.reg rd, .reg rs1, .reg rs2] => some (.gmul rd rs1 rs2)
  | "GINV", [.reg rd, .reg rs1] => some (.ginv rd rs1)
  | "GPOW", [.reg rd, .reg rs1, .reg rs2] => some (.gpow rd rs1 rs2)
  | "GLOG", [.reg rd, .reg rs1] => some (.glog rd rs1)
  | "GEXP", [.reg rd, .reg rs1] => some (.gexp rd rs1)
  | "CCLR", [] => some .cclr
  | "CPUSH", [.reg rs1] => some (.cpush rs1)
  | "CRAND", [] => some .crand
  | "EVAL", [.reg rd, .reg rs1] => some (.eval rd rs1)
  | "SCLR", [] => some .sclr
  | "SADD", [.reg rs1, .reg rs2] => some (.sadd rs1 rs2)
  | "INTERP", [.reg rd, .reg rs1] => some (.interp rd rs1)
  | "BCLR", [] => some .bclr
  | "BPUSHH", [.reg rs1] => some (.bpushh rs1)
  | "BPOPH", [.reg rd] => some (.bpoph rd)
  | "BPUSHE", [.reg rs1] => some (.bpushe rs1)
  | "BPOPE", [.reg rd] => some (.bpope rd)
  | "BLPAD", [.num imm] => some (.blpad imm)
  | "BALIGN", [.num imm] => some (.balign imm)
  | "BTRIM", [.num imm] => some (.btrim imm)
  | "BSENT", [] => some .bsent
  | "BSTRIP", [] => some .bstrip
  | "BPUSHW", [.reg rs1] => some (.bpushw rs1)
  | "BPOPW", [.reg rd] => some (.bpopw rd)
  | "PENC", [.reg rs1, .reg rs2] => some (.penc rs1 rs2)
  | "PDEC", [.reg rd] => some (.pdec rd)
  | "NOP", [] => some pseudoNop
  | "GSUB", [.reg rd, .reg rs1, .reg rs2] => some (pseudoGsub rd rs1 rs2)
  | _, _ => none

/-- The access of a line that is no command: `WR`, `RD`, and the pseudo-instructions that expand to a
host write (R110, R111). A value is a 32-bit number. -/
def asmAccess (mnemonic : List Char) (operands : List AsmOperand) : Option Input :=
  match String.ofList mnemonic, operands with
  | "WR", [.name offset, .num v] =>
    if v < 2 ^ 32 then some (.write offset 4 (BitVec.ofNat 32 v)) else none
  | "RD", [.name offset] => some (.read offset 4)
  | "LI32", [.reg r, .num v] =>
    if v < 2 ^ 32 then some (pseudoLi32 r (BitVec.ofNat 32 v)) else none
  | "CLRERR", [] => some pseudoClrErr
  | _, _ => none

/-- One line of assembler text: no access for a line without a command, one access otherwise; none for
a line that is not in the language. A command is encoded by R101, its immediate in 0..32767 (R110). -/
def assembleLine (line : List Char) : Option (List Input) :=
  let text := trimBlanks (stripComment line)
  let mnemonic := text.takeWhile fun c => !isBlank c
  if text = [] then some []
  else match parseOperands (operandTexts (text.drop mnemonic.length)) with
    | none => none
    | some operands =>
      match asmCommand mnemonic operands with
      | some i => if i.wellFormed then some [commandInput (encode i)] else none
      | none => (asmAccess mnemonic operands).map fun access => [access]

end Sys2Proof.Machine
end

