-- ==== Sys2Proof/Tests/Slice0.lean ====
section
/-! SUPPORT. The author's tests: well-formedness, decoding of every command's word, one or two vectors
of spec/95_test_vectors.md per command, and for every statement a state and operands that meet its
hypotheses. Expected values come from spec/95_test_vectors.md and the rules' examples. -/

namespace Sys2Proof.Tests

-- Elaborate these theorems one after another: the kernel's evaluations would otherwise each hold a
-- thread while they wait for one another, and the threads' stacks would fill the check's memory.
set_option Elab.async false

open Sys2Proof.Machine

/-! ## Helpers -/

/-- The reset state with width `b` and values in r1, r2 and r3. -/
def at' (b v1 v2 v3 : Nat) : State :=
  (({ State.reset with b := b }.setRegNat .r1 v1).setRegNat .r2 v2).setRegNat .r3 v3

/-- The reset state with a bit buffer and a value in r1. -/
def bits (bb : BitString) (v1 : Nat) : State := { at' 8 v1 0 0 with bb := bb }

/-- A bit string from 0 and 1 digits. -/
def bin (l : List Nat) : BitString := l.map fun d => d == 1

/-- What a command leaves: the value `f` reads, or the error code. -/
def out {α : Type} (f : State → α) (o : Host.Outcome State Fault Refusal) : Except (BitVec 4) α :=
  match o with
  | .next t => if t.err then .error t.errcode else .ok (f t)
  | .fault _ => .error 0#4
  | .refused _ => .error 0#4

/-- The polynomial 0x2A + 7x + 0x10x^2 of 95_test_vectors.md 2.4, at B = 8, with THRESH = 3. -/
def poly (v1 : Nat) : State := { at' 8 v1 0 0 with thresh := 3, coef := [0x2A, 7, 0x10] }

/-- A sample set of 95_test_vectors.md 2.5, with THRESH = 3 and the target in r1. -/
def sampled (samples : List (Nat × Nat)) (t : Nat) : State :=
  { at' 8 t 0x11 0 with thresh := 3, samples := samples }

/-! ## Well-formedness (R103): an immediate of 16 bits is no operand -/

theorem test_illformed_li : (Instr.li .r0 32768).wellFormed = false := by decide
theorem test_illformed_setb : (Instr.setb 32768).wellFormed = false := by decide
theorem test_illformed_blpad : (Instr.blpad 32768).wellFormed = false := by decide
theorem test_illformed_balign : (Instr.balign 40000).wellFormed = false := by decide
theorem test_illformed_btrim : (Instr.btrim 32768).wellFormed = false := by decide

/-! ## Decoding: every word of 95_test_vectors.md 2.1, by family -/

theorem test_decode_moves :
    decode 0b00000001011000000000000000101010#32 = .ok (.li .r3 42) ∧
    decode 0b00000001111000000111111111111111#32 = .ok (.li .r7 32767) ∧
    decode 0b00000010001010000000000000000000#32 = .ok (.mov .r1 .r2) ∧
    decode 0b00000010111111000000000000000000#32 = .ok (.mov .r7 .r7) := by decide

theorem test_decode_galois :
    decode 0b00000011000000000000000000001000#32 = .ok (.setb 8) ∧
    decode 0b00010000100000001000000000000000#32 = .ok (.gadd .r4 .r0 .r1) ∧
    decode 0b00010001010000001000000000000000#32 = .ok (.gmul .r2 .r0 .r1) ∧
    decode 0b00010001111111111000000000000000#32 = .ok (.gmul .r7 .r7 .r7) ∧
    decode 0b00010010011000000000000000000000#32 = .ok (.ginv .r3 .r0) ∧
    decode 0b00010011101000001000000000000000#32 = .ok (.gpow .r5 .r0 .r1) ∧
    decode 0b00010100110001000000000000000000#32 = .ok (.glog .r6 .r1) ∧
    decode 0b00010101111110000000000000000000#32 = .ok (.gexp .r7 .r6) := by decide

theorem test_decode_evaluator :
    decode 0b00000100000000000000000000000000#32 = .ok (.sett .r0) ∧
    decode 0b00100000000000000000000000000000#32 = .ok .cclr ∧
    decode 0b00100001000001000000000000000000#32 = .ok (.cpush .r1) ∧
    decode 0b00100010000000000000000000000000#32 = .ok .crand ∧
    decode 0b00100011010011000000000000000000#32 = .ok (.eval .r2 .r3) := by decide

theorem test_decode_interpolator :
    decode 0b00110000000000000000000000000000#32 = .ok .sclr ∧
    decode 0b00110001000001010000000000000000#32 = .ok (.sadd .r1 .r2) ∧
    decode 0b00110010101110000000000000000000#32 = .ok (.interp .r5 .r6) := by decide

theorem test_decode_bit_codec :
    decode 0b01000000000000000000000000000000#32 = .ok .bclr ∧
    decode 0b01000001000001000000000000000000#32 = .ok (.bpushh .r1) ∧
    decode 0b01000010010000000000000000000000#32 = .ok (.bpoph .r2) ∧
    decode 0b01000011000001000000000000000000#32 = .ok (.bpushe .r1) ∧
    decode 0b01000100010000000000000000000000#32 = .ok (.bpope .r2) ∧
    decode 0b01000101000000000000000000000100#32 = .ok (.blpad 4) ∧
    decode 0b01000110000000000000000000000100#32 = .ok (.balign 4) ∧
    decode 0b01000111000000000000000000001011#32 = .ok (.btrim 11) ∧
    decode 0b01000111000000000000000000100000#32 = .ok (.btrim 32) ∧
    decode 0b01001000000000000000000000000000#32 = .ok .bsent ∧
    decode 0b01001001000000000000000000000000#32 = .ok .bstrip := by decide

theorem test_decode_mnemonic_codec :
    decode 0b01010000000001000000000000000000#32 = .ok (.bpushw .r1) ∧
    decode 0b01010001100000000000000000000000#32 = .ok (.bpopw .r4) ∧
    decode 0b01010010000000001000000000000000#32 = .ok (.penc .r0 .r1) ∧
    decode 0b01010011010000000000000000000000#32 = .ok (.pdec .r2) ∧
    decode 0b01010011111000000000000000000000#32 = .ok (.pdec .r7) := by decide

/-- The illegal words E-1 to E-7 of 95_test_vectors.md 2.1. -/
theorem test_decode_illegal :
    decode 0x00000000#32 = .error (.unassignedOpcode 0x00#8) ∧
    decode 0x0164002A#32 = .error (.nonzeroUnusedField 0x01#8) ∧
    decode 0x05000000#32 = .error (.unassignedOpcode 0x05#8) ∧
    decode 0x20000001#32 = .error (.nonzeroUnusedField 0x20#8) ∧
    decode 0x12608000#32 = .error (.nonzeroUnusedField 0x12#8) ∧
    decode 0x4A000000#32 = .error (.unassignedOpcode 0x4A#8) ∧
    decode 0xFF000000#32 = .error (.unassignedOpcode 0xFF#8) := by decide

theorem test_table_word : decodeTableWord 32 0x12600000 = some (.ginv .r3 .r0) ∧
    decodeTableWord 32 0x12608000 = none := by decide

/-- R110: a command line, its comment, and two host lines. -/
theorem test_assembler :
    assembleLine "LI r3, 0x2A ; the answer".toList = some [.write 0x0C#8 4 0x0160002A#32] ∧
    assembleLine "LI r3, 32768".toList = none ∧
    assembleLine "WR STATUS, 0x2".toList = some [pseudoClrErr] := by decide

/-! ## One command, from the vectors of 95_test_vectors.md sections 2.2 to 2.7 -/

theorem test_li :
    out (State.regNat · .r7) (exec (.li .r7 32767) State.reset) = .ok 0x7FFF := by decide

theorem test_mov :
    out (State.regNat · .r1) (exec (.mov .r1 .r2) (at' 8 0 0x1234 0)) = .ok 0x1234 := by decide

theorem test_setb :
    out (fun s => (s.b, s.fill, s.scount)) (exec (.setb 8) (poly 0)) = .ok (8, 0, 0) ∧
    out (fun _ => ()) (exec (.setb 21) State.reset) = .error 6#4 := by decide

theorem test_sett :
    out State.thresh (exec (.sett .r1) (at' 8 4095 0 0)) = .ok 4095 ∧
    out (fun _ => ()) (exec (.sett .r1) (at' 8 4096 0 0)) = .error 1#4 := by decide

theorem test_gadd :
    out (State.regNat · .r3) (exec (.gadd .r3 .r1 .r2) (at' 8 0x53 0xCA 0)) = .ok 0x99 ∧
    out (fun _ => ()) (exec (.gadd .r3 .r1 .r2) (at' 8 0x37 0x100 0)) = .error 1#4 := by decide

theorem test_gmul :
    out (State.regNat · .r1) (exec (.gmul .r1 .r1 .r2) (at' 8 0x53 0xCA 0)) = .ok 0x8F ∧
    out (State.regNat · .r3) (exec (.gmul .r3 .r1 .r2) (at' 12 0xFFF 2 0)) = .ok 0xFAD := by decide +kernel

theorem test_gmul_other_table :
    out (State.regNat · .r3) (exec (.gmul .r3 .r1 .r2) { at' 3 2 4 0 with prim := [(3, 5)] }) = .ok 5 := by decide

theorem test_ginv :
    out (State.regNat · .r3) (exec (.ginv .r3 .r1) (at' 8 0x53 0 0)) = .ok 0x8C ∧
    out (fun _ => ()) (exec (.ginv .r3 .r1) (at' 8 0 0 0)) = .error 7#4 := by decide +kernel

theorem test_gpow :
    out (State.regNat · .r3) (exec (.gpow .r3 .r1 .r2) (at' 8 0 0 0)) = .ok 1 ∧
    out (State.regNat · .r3) (exec (.gpow .r3 .r1 .r2) (at' 8 0x53 254 0)) = .ok 0x8C := by decide +kernel

theorem test_glog :
    out (State.regNat · .r3) (exec (.glog .r3 .r1) (at' 8 0xCA 0 0)) = .ok 73 ∧
    out (fun _ => ()) (exec (.glog .r3 .r1) (at' 8 0 0 0)) = .error 7#4 := by decide

theorem test_gexp :
    out (State.regNat · .r3) (exec (.gexp .r3 .r1) (at' 8 1000 0 0)) = .ok 0xEB ∧
    out (State.regNat · .r3) (exec (.gexp .r3 .r1) (at' 8 0xFFFFFFFF 0 0)) = .ok 1 := by decide +kernel

theorem test_cclr :
    out State.fill (exec .cclr (poly 0)) = .ok 0 := by decide

theorem test_cpush :
    out (fun _ => ()) (exec (.cpush .r1) (poly 5)) = .error 8#4 ∧
    out (fun _ => ()) (exec (.cpush .r1) (at' 8 5 0 0)) = .error 1#4 := by decide

theorem test_crand_insecure :
    out (fun s => (s.fill, s.insec, s.inseccnt, s.genDraws))
      (exec .crand { poly 0 with coef := [42] }) = .ok (3, true, 2#32, 2) ∧
    out (fun s => (s.fill, s.insec, s.inseccnt, s.genDraws)) (exec .crand (poly 0)) = .ok (3, false, 0#32, 0) := by decide

theorem test_crand_secure :
    out (fun s => (s.coef, s.insec, s.inseccnt, s.busy))
      (exec .crand { poly 0 with coef := [42], entPresent := true, entReady := [7#20, 0x110#20, 9#20] })
      = .ok ([42, 7, 0x10], false, 0#32, false) := by decide

theorem test_eval :
    out (State.regNat · .r2) (exec (.eval .r2 .r1) (poly 200)) = .ok 0x7D ∧
    out (fun _ => ()) (exec (.eval .r2 .r1) (poly 0)) = .error 1#4 := by decide +kernel

theorem test_sclr :
    out State.scount (exec .sclr (sampled [(1, 4), (3, 6)] 0)) = .ok 0 := by decide

theorem test_sadd :
    out State.samples (exec (.sadd .r1 .r2) (sampled [(3, 0x73), (1, 0x3D)] 3)) = .ok [(3, 0x11), (1, 0x3D)] ∧
    out (fun _ => ()) (exec (.sadd .r1 .r2) (sampled [] 0)) = .error 1#4 := by decide

theorem test_interp :
    out (State.regNat · .r2) (exec (.interp .r2 .r1) (sampled [(1, 0x3D), (3, 0x73), (5, 0x3C)] 7)) = .ok 0x72 ∧
    out (State.regNat · .r2) (exec (.interp .r2 .r1) (sampled [(1, 0x31), (5, 0x00), (6, 0x4D)] 0)) = .ok 0x2A := by decide +kernel

theorem test_interp_shares :
    out (fun _ => ()) (exec (.interp .r2 .r1) (sampled [(1, 0x3D), (3, 0x73)] 0)) = .error 5#4 ∧
    out (State.regNat · .r2) (exec (.interp .r2 .r1) (sampled [(1, 0x3D), (3, 0x73), (5, 0x3C)] 5)) = .ok 0x3C := by decide

theorem test_bclr :
    out State.bb (exec .bclr (bits (bin [1, 0, 1, 1, 0]) 0)) = .ok [] := by decide

theorem test_bpushh :
    out State.bb (exec (.bpushh .r1) (bits [] 10)) = .ok (bin [1, 0, 1, 0]) ∧
    out (fun _ => ()) (exec (.bpushh .r1) (bits (List.replicate 4093 true) 10)) = .error 8#4 := by decide +kernel

theorem test_bpoph :
    out (fun s => (s.regNat .r2, s.bb)) (exec (.bpoph .r2) (bits (bin [1, 0, 1, 1, 0]) 0)) = .ok (11, [false]) ∧
    out (fun _ => ()) (exec (.bpoph .r2) (bits (bin [1, 0, 1]) 0)) = .error 8#4 := by decide

theorem test_bpushe :
    out State.bb (exec (.bpushe .r1) (bits [] 0x14)) = .ok (bin [0, 0, 0, 1, 0, 1, 0, 0]) ∧
    out (fun _ => ()) (exec (.bpushe .r1) { bits [] 8 with b := 3 }) = .error 1#4 := by decide

theorem test_bpope :
    out (fun s => (s.regNat .r2, s.bb)) (exec (.bpope .r2) (bits (bin [1, 0, 1, 0, 0, 1, 1, 1, 0, 1, 0, 1, 1]) 0)) =
      .ok (235, (bin [1, 0, 1, 0, 0])) ∧
    out (fun s => (s.regNat .r2, s.bb)) (exec (.bpope .r2) (bits (bin [1, 0, 1]) 0)) = .ok (5, []) := by decide

theorem test_blpad :
    out State.bb (exec (.blpad 4) (bits (bin [1, 0, 1, 1, 0]) 0)) = .ok (bin [0, 0, 0, 1, 0, 1, 1, 0]) ∧
    out State.bb (exec (.blpad 4) (bits [] 0)) = .ok (bin [0, 0, 0, 0]) := by decide

theorem test_balign :
    out State.bb (exec (.balign 11) (bits (bin [1, 0, 1, 1, 0]) 0)) = .ok (bin [0, 0, 0, 0, 0, 0, 1, 0, 1, 1, 0]) ∧
    out State.bb (exec (.balign 4) (bits (bin [0, 0, 0, 1, 0, 1, 1, 0]) 0)) = .ok (bin [0, 0, 0, 1, 0, 1, 1, 0]) := by decide

theorem test_btrim :
    out State.bb (exec (.btrim 11) (bits (bin [0, 0, 0, 1, 0, 1, 1, 0, 1, 0, 1, 1, 0]) 0)) = .ok (bin [0, 1, 0, 1, 1, 0, 1, 0, 1, 1, 0]) ∧
    out State.bb (exec (.btrim 32) (bits (bin [1, 0, 1, 1, 0]) 0)) = .ok [] := by decide

theorem test_bsent :
    out State.bb (exec .bsent (bits (bin [1, 0, 1, 1, 0]) 0)) = .ok (bin [1, 1, 0, 1, 1, 0]) ∧
    out (fun _ => ()) (exec .bsent (bits (List.replicate 4096 true) 0)) = .error 8#4 := by decide +kernel

theorem test_bstrip :
    out State.bb (exec .bstrip (bits (bin [0, 0, 0, 1, 0, 1, 1, 0, 1]) 0)) = .ok (bin [0, 1, 1, 0, 1]) ∧
    out (fun _ => ()) (exec .bstrip (bits (bin [0, 0, 0, 0]) 0)) = .error 1#4 := by decide

theorem test_bpushw :
    out State.bb (exec (.bpushw .r1) (bits [] 1000)) = .ok (bin [0, 1, 1, 1, 1, 1, 0, 1, 0, 0, 0]) ∧
    out (fun _ => ()) (exec (.bpushw .r1) (bits [] 2048)) = .error 1#4 := by decide

theorem test_bpopw :
    out (fun s => (s.regNat .r2, s.bb)) (exec (.bpopw .r2) (bits (bin [0, 0, 0, 0, 0, 0, 1, 0, 0, 0, 1, 0, 0, 1, 1, 1, 1, 0, 1, 1, 0, 1]) 0)) =
      .ok (17, (bin [0, 0, 1, 1, 1, 1, 0, 1, 1, 0, 1])) ∧
    out (fun _ => ()) (exec (.bpopw .r2) (bits (bin [0, 0, 0, 0, 0, 0, 0, 0, 0, 0]) 0)) = .error 8#4 := by decide

theorem test_penc :
    out State.bb (exec (.penc .r1 .r2) (at' 8 40 3 0)) = .ok (bin [1, 0, 0, 0, 0, 1, 0, 0, 0, 0, 0, 0, 0, 1, 0, 0, 0, 0, 0, 0, 1, 1]) ∧
    out (fun _ => ()) (exec (.penc .r1 .r2) (at' 8 1 1 0)) = .error 1#4 := by decide

theorem test_pdec :
    out (fun s => (s.regNat .r7, s.regNat .r0, s.bb))
      (exec (.pdec .r7) (bits ([1123, 2047, 1023].flatMap (bitsOf 11) ++ [false, true]) 0)) =
      .ok (4095, 4095, [false, true]) ∧
    out (fun _ => ()) (exec (.pdec .r0) (bits (List.replicate 44 true) 0)) = .error 1#4 := by decide

/-! ## Steps -/

/-- The host's word runs as the first command after reset. -/
theorem test_step_first_command :
    step (State.reset.withFetchWord 32 0x0160002A)
      = .next ({ State.reset with reply := some .written }.setReg .r3 42#32) := rfl

/-- A command that raises: the latch records code 7 and the word GINV r3, r0. -/
theorem test_step_raise :
    step (State.reset.withFetchWord 32 0x12600000) = .next { State.reset with
      reply := some .written, err := true, errcode := 7#4, errcmd := 0x12600000#32 } := rfl

/-- A waiting CRAND: a read of FILL is held, a read of STATUS is performed (BUSY and ENT set). -/
theorem test_step_held :
    out (fun s => (s.inbox, s.reply)) (step { poly 0 with
      coef := [42], entPresent := true, inProgress := some ⟨2, []⟩
      inbox := [.read 0x1C#8 4, .read 0x08#8 4] })
      = .ok ([.read 0x1C#8 4], some (.data 0x201#32)) := by decide

/-- A CRAND that nothing answers is stuck. -/
theorem test_step_stuck :
    step { poly 0 with coef := [42], entPresent := true, inProgress := some ⟨2, []⟩ }
      = .fault .stuckAwaitingEntropy := rfl

/-! ## Witnesses: for every statement with hypotheses, a state and operands that meet them

Each theorem lists the hypotheses of the clauses of its statement, at boundary values of their ranges. -/

/-- A state that latched an error. -/
def failed : State := { at' 8 0 0 0 with err := true, errcode := 1#4, errcmd := 1#32 }

/-- A CRAND that waits for its last value. -/
def waiting : State := { poly 0 with coef := [42, 7], entPresent := true, inProgress := some ⟨1, []⟩ }

theorem reset_legal : BuffersLegal State.reset :=
  ⟨by decide, by decide, by decide, by decide, by decide, by decide, by decide, by decide⟩

theorem sampled_legal : BuffersLegal (sampled [(1, 0x3D), (255, 0x73), (5, 0)] 255) :=
  ⟨by decide, by decide, by decide, by decide, by decide, by decide, by decide, by decide⟩

theorem field8_primitive : PrimitiveField (fieldOf defaultPrimTable 8) :=
  primitiveField_of_gfLog? _ (by decide) (by decide +kernel)

theorem field3_primitive : PrimitiveField (fieldOf defaultPrimTable 3) :=
  primitiveField_of_gfLog? _ (by decide) (by decide)

/-- A block with another table: at B = 3 the polynomial x^3 + x^2 + 1, which is primitive too. -/
theorem other_table_primitive : PrimitiveField (fieldOf [(3, 5)] 3) :=
  primitiveField_of_gfLog? _ (by decide) (by decide)

theorem witness_DecodeOfEncode : (Instr.li .r7 32767).wellFormed = true ∧
    (Instr.btrim 0).wellFormed = true ∧ Instr.bstrip.wellFormed = true := by decide

theorem witness_EncodeOfDecode : decode 0x01E07FFF#32 = .ok (.li .r7 32767) := by decide

theorem witness_StepRuns :
    let s := { State.reset with inbox := [.write 0x0C#8 4 0x01E07FFF#32, .rst] }
    s.busy = false ∧ s.err = false ∧ s.inbox = .write 0x0C#8 4 0x01E07FFF#32 :: [.rst] ∧
      decode 0x01E07FFF#32 = .ok (.li .r7 32767) := by decide

theorem witness_AccessesWhileErr : failed.busy = false ∧ failed.err = true ∧
    { failed with inbox := [.write 0x0C#8 4 0#32] }.inbox = .write 0x0C#8 4 0#32 :: [] ∧
    (0xFC#8).toNat % 4 = 0 ∧ { failed with inbox := [.read 0xFC#8 4] }.inbox = .read 0xFC#8 4 :: [] ∧
    { failed with inbox := [.write 0x5C#8 4 9#32] }.inbox = .write (offReg .r7) 4 9#32 :: [] ∧
    { failed with inbox := [.write 0x28#8 4 9#32] }.inbox = .write 0x28#8 4 9#32 :: [] ∧
    { failed with inbox := [.write 0x08#8 4 0x102#32] }.inbox = .write 0x08#8 4 0x102#32 :: [] ∧
    { failed with inbox := [.write 0x04#8 4 1#32] }.inbox = .write 0x04#8 4 1#32 :: [] := by decide

theorem witness_IllegalWords : State.reset.busy = false ∧ State.reset.err = false ∧
    ∀ row ∈ opcodeRows, 0x0164002A#32 &&& row.1 ≠ row.2 := by
  have h : isCommandWord 0x0164002A#32 = false := by decide
  exact ⟨rfl, rfl, fun row hrow heq => by
    rw [isCommandWord, List.any_eq_false] at h
    exact h row hrow (beq_iff_eq.mpr heq)⟩

theorem witness_UnassignedOpcodes :
    (0x05000000#32).toNat / 2 ^ 24 = 0x05 ∧ (0xFF000000#32).toNat / 2 ^ 24 = 0xFF := by decide

theorem witness_PermittedWrites :
    let s := { State.reset with inbox := [.write 0x5C#8 4 7#32] }
    s.busy = false ∧ (0x5C#8).toNat % 4 = 0 ∧ s.inbox = .write 0x5C#8 4 7#32 :: [] := by decide

theorem witness_WindowReads :
    (let s := { State.reset with inbox := [.read 0xFC#8 4] }
     s.busy = false ∧ (0xFC#8).toNat % 4 = 0 ∧ s.inbox = .read 0xFC#8 4 :: []) ∧
    BuffersLegal State.reset := ⟨by decide, reset_legal⟩

theorem witness_ReadOnlyAndReserved :
    ∀ off ∈ [0x00#8, 0x10#8, 0x24#8, 0x2C#8, 0x3C#8, 0x60#8, 0xFC#8], off.toNat % 4 = 0 ∧
      (off.toNat = 0 ∨ (0x10 ≤ off.toNat ∧ off.toNat ≤ 0x24) ∨
        (0x2C ≤ off.toNat ∧ off.toNat ≤ 0x3C) ∨ (0x60 ≤ off.toNat ∧ off.toNat ≤ 0xFC)) := by decide

theorem witness_UnpermittedAccesses : State.reset.busy = false ∧ (2 ≠ 4 ∨ (0x40#8).toNat % 4 ≠ 0) ∧
    (4 ≠ 4 ∨ (0xFF#8).toNat % 4 ≠ 0) ∧
    { State.reset with inbox := [.read 0x40#8 2] }.inbox = .read 0x40#8 2 :: [] ∧
    { State.reset with inbox := [.write 0xFF#8 4 1#32] }.inbox = .write 0xFF#8 4 1#32 :: [] := by decide

theorem witness_ResetTable : (1#32).getLsbD 0 = true ∧
    { waiting with inbox := [.rst] }.inbox = .rst :: [] ∧
    { waiting with inbox := [.write 0x04#8 4 1#32] }.inbox = .write 0x04#8 4 1#32 :: [] := by decide

theorem witness_InputsInOrder :
    (let s := { waiting with inbox := [.read 0x1C#8 4, .entReply 5#20] }
     s.busy = true ∧ s.inbox = [.read 0x1C#8 4] ++ .entReply 5#20 :: [] ∧
      (∀ j ∈ [Input.read 0x1C#8 4], heldWhileBusy j = true) ∧
      heldWhileBusy (.entReply 5#20) = false) ∧
    (let s := { State.reset with inbox := [.rst] }
     s.busy = false ∧ s.inbox = .rst :: []) ∧
    State.reset.busy = false ∧ State.reset.inbox = [] := by decide

theorem witness_StepStops : waiting.busy = true ∧
    ∀ j ∈ { waiting with inbox := [.read 0x10#8 4] }.inbox, heldWhileBusy j = true := by decide

theorem witness_SrstAborts :
    let s := { waiting with inbox := [.read 0x1C#8 4, .write 0x04#8 4 1#32, .rst] }
    s.busy = true ∧ (1#32).getLsbD 0 = true ∧
      s.inbox = [.read 0x1C#8 4] ++ .write 0x04#8 4 1#32 :: [.rst] ∧
      ∀ j ∈ [Input.read 0x1C#8 4], heldWhileBusy j = true := by decide

theorem witness_PortInputs :
    { waiting with inbox := [.entReply 5#20] }.inbox = .entReply 5#20 :: [] ∧
    { waiting with inbox := [.entLevel false] }.inbox = .entLevel false :: [] ∧
    { waiting with inbox := [.rst] }.inbox = .rst :: [] ∧ State.reset.busy = false ∧
    waiting.inProgress = some ⟨1, []⟩ ∧ waiting.entReady = [] ∧
    { waiting with inProgress := some ⟨2, []⟩ }.inProgress = some ⟨2, []⟩ := by decide

theorem witness_NoStepChangesPolynomials :
    (∃ t, step { waiting with prim := [(8, 0x2B)], inbox := [.rst] } = .next t ∧ t.busy = false) ∧
    ∃ t, exec (.setb 3) State.reset = .next t ∧ t.b = 3 := ⟨⟨_, rfl, rfl⟩, ⟨_, rfl, rfl⟩⟩

theorem witness_DefaultTable : 3 ≤ 3 ∧ 3 ≤ 20 ∧ 20 ≤ 20 := by decide

theorem witness_StepKeepsInvariant : ∃ s t, Invariant s ∧ step s = .next t ∧ t.b = 3 :=
  ⟨{ State.reset with inbox := [commandInput 0x03000003#32] }, _,
    ⟨⟨by decide, by decide, by decide, by decide, by decide, by decide, by decide, by decide⟩,
      ⟨fun _ => rfl, fun h => nomatch h⟩, fun _ h => nomatch h⟩, rfl, rfl⟩

theorem witness_WaitingInvariant : Invariant waiting :=
  ⟨⟨by decide, by decide, by decide, by decide, by decide, by decide, by decide, by decide⟩,
    ⟨fun _ => rfl, fun h => nomatch h⟩,
    fun w h => by
      cases (Option.some.inj h : _ = w)
      exact ⟨rfl, by decide, by decide, by decide, rfl⟩⟩

theorem witness_Reachable : ∃ s, Reachable s ∧ s.b = 3 :=
  ⟨_, .stepped { State.reset with inbox := [commandInput 0x03000003#32] } _
    (.inputs _ _ (.reset _)) rfl, rfl⟩

/-- One command for each class of `ErrorClassesHaveTheirCommands`, from states with ERR = 0. -/
theorem witness_ErrorClasses :
    (∃ t, exec (.interp .r2 .r1) (sampled [(1, 4), (3, 6)] 0) = .next t ∧ t.err = true ∧ t.errcode = 5#4) ∧
    (∃ t, exec (.setb 21) State.reset = .next t ∧ t.err = true ∧ t.errcode = 6#4) ∧
    (∃ t, exec (.glog .r2 .r1) State.reset = .next t ∧ t.err = true ∧ t.errcode = 7#4) ∧
    State.reset.err = false ∧ (sampled [(1, 4), (3, 6)] 0).err = false :=
  ⟨⟨_, rfl, rfl, rfl⟩, ⟨_, rfl, rfl, rfl⟩, ⟨_, rfl, rfl, rfl⟩, rfl, rfl⟩

/-- A change for each clause of `OnlyTheirCommandsChangeState`. -/
theorem witness_OnlyTheirCommands :
    (∃ t, exec (.setb 3) (poly 0) = .next t ∧ t.b ≠ 8 ∧ t.coef ≠ (poly 0).coef) ∧
    (∃ t, exec (.sett .r1) (at' 8 2 0 0) = .next t ∧ t.thresh ≠ 0) ∧
    (∃ t, exec .crand { poly 0 with coef := [] } = .next t ∧ t.insec ≠ false ∧ t.genDraws ≠ 0) ∧
    (∃ t, exec (.sadd .r1 .r2) (sampled [] 1) = .next t ∧ t.samples ≠ []) ∧
    (∃ t, exec (.li .r1 1) State.reset = .next t ∧ t.regs ≠ State.reset.regs) ∧
    (∃ t, exec .bsent State.reset = .next t ∧ t.bb ≠ []) :=
  ⟨⟨_, rfl, by decide, by decide⟩, ⟨_, rfl, by decide⟩, ⟨_, rfl, by decide, by decide⟩,
    ⟨_, rfl, by decide⟩, ⟨_, rfl, by decide⟩, ⟨_, rfl, by decide⟩⟩

theorem witness_WindowHides : [1, 2, 3].length = (poly 0).coef.length ∧
    [(1, 1)].length = (sampled [(2, 2)] 0).samples.length ∧ [true].length = (bits [false] 0).bb.length := by
  decide

theorem witness_Moves : 32767 < 2 ^ 15 := by decide

theorem witness_Setb : (3 ≤ 3 ∧ 3 ≤ 20) ∧ 3 ≤ 20 ∧ 20 ≤ 20 := by decide

/-- Operands for GADD, GMUL, GINV, GPOW, GLOG, GEXP, CPUSH and SADD: the greatest element, at the least
and the greatest width, and legal fields at B = 3 and B = 8. That the field of B = 20 is primitive is the
statement DefaultTableIsPrimitive. -/
theorem witness_FieldOperands :
    FieldLegal (at' 3 7 7 0) ∧ FieldLegal (at' 8 255 255 0) ∧
    ((at' 3 7 7 0).widthLegal ∧ (at' 3 7 7 0).holdsElem .r1 ∧ (at' 3 7 7 0).holdsElem .r2 ∧
      (at' 3 7 7 0).reg .r1 ≠ 0#32) ∧
    ((at' 20 0xFFFFF 0 0).widthLegal ∧ (at' 20 0xFFFFF 0 0).holdsElem .r1 ∧
      (at' 20 0xFFFFF 0 0).holdsElem .r2 ∧ (at' 20 0xFFFFF 0 0).reg .r1 ≠ 0#32) := by
  refine ⟨⟨by decide, field3_primitive⟩, ⟨by decide, field8_primitive⟩, ?_⟩
  simp only [State.widthLegal, State.holdsElem]; decide

theorem witness_FieldLaws : PrimitiveField (fieldOf [(3, 5)] 3) ∧ PrimitiveField (fieldOf defaultPrimTable 8) ∧
    3 ≤ 3 ∧ 3 ≤ 20 ∧ 7 < 2 ^ 3 ∧ 0 < 2 ^ 3 ∧ 1 < 2 ^ 3 ∧ 7 ≠ 0 :=
  ⟨other_table_primitive, field8_primitive, by decide⟩

theorem witness_FieldTraps : (2 < 3 ∨ 20 < 2) ∧ (21 < 3 ∨ 20 < 21) ∧
    ¬ (at' 8 256 0 0).holdsElem .r1 ∧ (at' 8 255 256 0).holdsElem .r1 ∧
    ¬ (at' 8 255 256 0).holdsElem .r2 ∧ (at' 8 0 0 0).reg .r1 = 0#32 := by
  simp only [State.holdsElem]; decide

theorem witness_Sett : 2 ≤ (at' 8 2 4095 0).regNat .r1 ∧ (at' 8 2 4095 0).regNat .r2 ≤ 4095 := by
  decide

theorem witness_Cpush : (let s := { poly 255 with coef := [1, 2] }
    s.thresh ≠ 0 ∧ s.holdsElem .r1 ∧ s.fill < s.thresh) := by
  simp only [State.holdsElem]; decide

theorem witness_CrandDefault : (poly 0).thresh ≠ 0 ∧ (poly 0).thresh ≤ (poly 0).fill ∧
    { poly 0 with coef := [1, 2] }.fill < { poly 0 with coef := [1, 2] }.thresh ∧
    { poly 0 with coef := [1, 2] }.entPresent = false := by decide

theorem witness_CrandPort :
    let s := { poly 0 with coef := [1], entPresent := true, entReady := [7#20, 9#20] }
    let u := { poly 0 with coef := [1], entPresent := true, entReady := [7#20] }
    s.thresh ≠ 0 ∧ s.fill < s.thresh ∧ s.entPresent = true ∧ s.thresh - s.fill ≤ s.entReady.length ∧
      u.thresh ≠ 0 ∧ u.fill < u.thresh ∧ u.entPresent = true ∧ u.entReady.length < u.thresh - u.fill := by
  decide

theorem witness_CrandDelivered : ∃ t,
    let s := { poly 0 with coef := [1], entPresent := true, entReady := [7#20] }
    s.thresh ≠ 0 ∧ s.entPresent = true ∧ [9#20] ≠ [] ∧
      s.fill + s.entReady.length + [9#20].length = s.thresh ∧ exec .crand s = .next t :=
  ⟨_, by decide, by decide, by decide, by decide, rfl⟩

theorem witness_Eval : FieldLegal (poly 255) ∧ (poly 255).thresh ≠ 0 ∧ (poly 255).holdsElem .r1 ∧
    (poly 255).reg .r1 ≠ 0#32 ∧ (poly 255).fill = (poly 255).thresh ∧
    ∀ c ∈ (poly 255).coef, c < 2 ^ (poly 255).b := by
  refine ⟨⟨by decide, field8_primitive⟩, ?_⟩
  simp only [State.holdsElem]; decide

theorem witness_EvaluatorTraps :
    ((at' 8 1 0 0).regNat .r1 < 2 ∨ 4095 < (at' 8 1 0 0).regNat .r1) ∧
    ((at' 8 4096 0 0).regNat .r1 < 2 ∨ 4095 < (at' 8 4096 0 0).regNat .r1) ∧
    State.reset.thresh = 0 ∧ ¬ (poly 256).holdsElem .r1 ∧
    ((poly 255).thresh ≠ 0 ∧ (poly 255).holdsElem .r1 ∧ (poly 255).thresh ≤ (poly 255).fill) ∧
    (poly 0).reg .r1 = 0#32 ∧ { poly 1 with coef := [1, 2] }.fill ≠ { poly 1 with coef := [1, 2] }.thresh := by
  simp only [State.holdsElem]; decide

theorem witness_Sadd :
    let s := sampled [(1, 2), (255, 3)] 254
    let u := sampled [(1, 2), (255, 3)] 255
    s.holdsElem .r1 ∧ s.holdsElem .r2 ∧ s.reg .r1 ≠ 0#32 ∧ (∀ p ∈ s.samples, p.1 ≠ s.regNat .r1) ∧
      s.scount < 4095 ∧ u.holdsElem .r1 ∧ u.holdsElem .r2 ∧ u.reg .r1 ≠ 0#32 ∧
      u.samples = [(1, 2)] ++ (u.regNat .r1, 3) :: [] ∧ ∀ p ∈ [(1, 2)] ++ [], p.1 ≠ u.regNat .r1 := by
  simp only [State.holdsElem]; decide

/-- Samples of the constant polynomial 1 at B = 8, THRESH = 3, and the target 0. -/
theorem witness_InterpReturns :
    let s := sampled [(1, 1), (255, 1), (5, 1)] 0
    BuffersLegal s ∧ PrimitiveField s.field ∧ s.thresh ≠ 0 ∧ s.holdsElem .r1 ∧ s.thresh ≤ s.scount ∧ [1].length ≤ s.scount ∧
      (∀ c ∈ [1], c < 2 ^ s.b) ∧ s.reg .r1 = 0#32 ∧
      ∀ p ∈ s.samples, polyOf p.2 = evalPoly [1] p.1 %ₘ modulusOf s.field := by
  refine ⟨⟨by decide, by decide, by decide, by decide, by decide, by decide, by decide, by decide⟩,
    field8_primitive, by decide, by simp only [State.holdsElem]; decide, by decide, by decide, by decide, by decide, ?_⟩
  have hone : polyOf 1 = 1 := by
    rw [polyOf, Finset.sum_eq_single 0] <;> simp +contextual [Nat.testBit_one_eq_true_iff_self_eq_zero]
  have hmod : modulusOf ⟨8, 29⟩ = Polynomial.X ^ 8 + polyOf 29 := rfl
  have h29 : (polyOf 29).degree < 8 := by
    refine Polynomial.mem_degreeLT.mp (Submodule.sum_mem _ fun i _ => ?_)
    split
    · rename_i hbit
      have hi : i < 8 := by
        by_contra hge
        rw [Nat.testBit_lt_two_pow (lt_of_lt_of_le (by decide : 29 < 2 ^ 8)
          (Nat.pow_le_pow_right (by decide) (Nat.not_lt.mp hge)))] at hbit
        cases hbit
      exact Polynomial.mem_degreeLT.mpr ((Polynomial.degree_X_pow_le i).trans_lt (by exact_mod_cast hi))
    · exact Submodule.zero_mem _
  have hmonic : (modulusOf ⟨8, 29⟩).Monic := Polynomial.monic_X_pow_add h29
  have hdeg : (1 : Polynomial (ZMod 2)).degree < (modulusOf ⟨8, 29⟩).degree := by
    rw [hmod, Polynomial.degree_add_eq_left_of_degree_lt (by rw [Polynomial.degree_X_pow]; exact h29),
      Polynomial.degree_X_pow, Polynomial.degree_one]; norm_num
  intro p hp
  have hy : p.2 = 1 := by revert p; decide
  rw [hy, hone, show (sampled [(1, 1), (255, 1), (5, 1)] 0).field = ⟨8, 29⟩ from rfl,
    show evalPoly [1] p.1 = 1 by simp [evalPoly, hone],
    (Polynomial.modByMonic_eq_self_iff hmonic).mpr hdeg]

theorem witness_InterpAtASample :
    let s := sampled [(1, 0x3D), (255, 0x73), (5, 0)] 255
    BuffersLegal s ∧ PrimitiveField s.field ∧ s.thresh ≠ 0 ∧ s.thresh ≤ s.scount ∧ (s.regNat .r1, 0x73) ∈ s.samples :=
  ⟨sampled_legal, field8_primitive, by decide, by decide, by decide⟩

theorem witness_InterpOrder :
    let s := sampled [(1, 0x3D), (255, 0x73), (5, 0)] 255
    BuffersLegal s ∧ PrimitiveField s.field ∧ s.thresh ≠ 0 ∧ s.holdsElem .r1 ∧ s.thresh ≤ s.scount ∧
      [(5, 0), (1, 0x3D), (255, 0x73)].Perm s.samples :=
  ⟨sampled_legal, field8_primitive, by decide, by simp only [State.holdsElem]; decide, by decide, by decide⟩

theorem witness_InterpolatorTraps :
    let s := sampled [(1, 4), (2, 5)] 255
    (s.widthLegal ∧ s.thresh ≠ 0 ∧ s.holdsElem .r1 ∧
      { s with thresh := 2 }.thresh ≤ { s with thresh := 2 }.scount) ∧
    (State.reset.thresh = 0 ∨ ¬ State.reset.holdsElem .r1) ∧ ¬ (sampled [] 256).holdsElem .r1 ∧
    s.scount < s.thresh ∧ ¬ (at' 8 1 256 0).holdsElem .r2 ∧ State.reset.reg .r1 = 0#32 := by
  simp only [State.widthLegal, State.holdsElem]; decide

/-- A full sample buffer of 4095 samples at B = 12, and an x that is not in it. -/
theorem witness_SaddFull :
    let s := { sampled ((List.range 4095).map fun k => (k, 0)) 4095 with b := 12 }
    s.holdsElem .r1 ∧ s.holdsElem .r2 ∧ s.reg .r1 ≠ 0#32 ∧ s.scount = 4095 ∧
      ∀ p ∈ s.samples, p.1 ≠ s.regNat .r1 := by
  refine ⟨(by decide : 4095 < 2 ^ 12), (by decide : 0x11 < 2 ^ 12), (by decide : 4095#32 ≠ 0#32),
    by simp [State.scount, sampled], fun p hp => ?_⟩
  simp only [sampled, List.mem_map, List.mem_range] at hp
  obtain ⟨k, hk, rfl⟩ := hp
  exact Nat.ne_of_lt (show k < 4095 from hk)

theorem witness_Pushes :
    ((bits (List.replicate 4092 true) 15).regNat .r1 ≤ 15 ∧ (bits (List.replicate 4092 true) 15).bl + 4 ≤ 4096) ∧
    ((bits (List.replicate 4088 true) 255).holdsElem .r1 ∧
      (bits (List.replicate 4088 true) 255).bl + (bits (List.replicate 4088 true) 255).b ≤ 4096) ∧
    ((bits (List.replicate 4085 true) 2047).regNat .r1 ≤ 2047 ∧
      (bits (List.replicate 4085 true) 2047).bl + 11 ≤ 4096) := by
  simp only [State.holdsElem]; decide +kernel

theorem witness_Pops :
    ((bits (bin [1, 0, 1, 1]) 0).bb = bin [1, 0, 1, 1] ++ [] ∧ (bin [1, 0, 1, 1]).length = 4) ∧
    ((bits (List.replicate 12 true) 0).bb = List.replicate 11 true ++ [true] ∧
      (List.replicate 11 true).length = 11) ∧
    ((bits (bin [1, 0, 1]) 0).bb = [] ++ bin [1, 0, 1] ∧ (bits (bin [1, 0, 1]) 0).bb ≠ [] ∧
      (bits (bin [1, 0, 1]) 0).b ≤ 20 ∧
      (bin [1, 0, 1]).length = min (bits (bin [1, 0, 1]) 0).b (bits (bin [1, 0, 1]) 0).bl) := by decide

theorem witness_PadsAndTrim : 1 ≤ 1 ∧ 32 ≤ 32 ∧
    ((bits (List.replicate 4064 true) 0).bl + 32) % 32 = 0 ∧ (bits (List.replicate 4064 true) 0).bl + 32 ≤ 4096 ∧
    0 < 32 ∧ ((bits (List.replicate 4096 true) 0).bl + 0) % 32 = 0 ∧
    ((bits (bin [1, 0, 1]) 0).bb = [true] ++ bin [0, 1] ∧ [true].length < 2 ∧ (bin [0, 1]).length % 2 = 0) := by
  decide +kernel

theorem witness_Sentinel : (bits (List.replicate 4095 true) 0).bl < 4096 ∧
    (bits (bin [0, 0, 1, 0]) 0).bb = List.replicate 2 false ++ true :: [false] := by decide +kernel

theorem witness_BitCodecTraps :
    15 < (bits [] 16).regNat .r1 ∧
    ((bits (List.replicate 4093 true) 15).regNat .r1 ≤ 15 ∧ 4096 < (bits (List.replicate 4093 true) 15).bl + 4) ∧
    ¬ (bits [] 256).holdsElem .r1 ∧
    ((bits (List.replicate 4089 true) 255).holdsElem .r1 ∧ 4096 < (bits (List.replicate 4089 true) 255).bl + 8) ∧
    (bits (bin [1, 0, 1]) 0).bl < 4 ∧ (bits [] 0).bb = [] ∧ (33 = 0 ∨ 32 < 33) ∧
    ((4094 + 3) % 17 = 0 ∧ 4096 < (bits (List.replicate 4094 true) 0).bl + 3) ∧
    4096 ≤ (bits (List.replicate 4096 true) 0).bl ∧
    ∀ bit ∈ (bits [false, false] 0).bb, bit = false := by
  simp only [State.holdsElem]; decide +kernel

theorem witness_HexRoundTrip : State.reset.err = false ∧ (∀ d ∈ List.replicate 1024 15, d < 16) ∧
    4 * (List.replicate 1024 15).length ≤ 4096 := by decide +kernel

theorem witness_ChunkRoundTrip :
    (bits [false] 0).err = false ∧ (bits [false] 0).widthLegal ∧ 1 ≤ (bits [false] 0).bl ∧
    (4091 + (4 - 4091 % 4) + 1 + (8 - 1)) / 8 * 8 ≤ 4096 ∧ (bits (List.replicate 4091 true) 0).bl = 4091 ∧
    (4081 + (4 - 4081 % 4) + 1 + (8 - 1)) / 8 * 8 ≤ 4096 ∧
    (bits (List.replicate 4081 true) 0).bl % 11 = 0 := by
  simp only [State.widthLegal]; decide +kernel

theorem witness_Penc :
    (2 ≤ (at' 8 31 31 0).regNat .r1 ∧ max ((at' 8 31 31 0).regNat .r1) ((at' 8 31 31 0).regNat .r2) < 32) ∧
    (32 ≤ max ((at' 8 2 32 0).regNat .r1) ((at' 8 2 32 0).regNat .r2) ∧
      max ((at' 8 1023 0 0).regNat .r1) ((at' 8 1023 0 0).regNat .r2) < 1024) ∧
    (1024 ≤ max ((at' 8 4095 4095 0).regNat .r1) ((at' 8 4095 4095 0).regNat .r2) ∧
      (at' 8 4095 4095 0).regNat .r1 ≤ 4095 ∧ (at' 8 4095 4095 0).regNat .r2 ≤ 4095) ∧
    (at' 8 4095 4095 0).bl + 33 ≤ 4096 := by decide

theorem witness_Pdec : [1024, 2047].length ≤ 2 ∧ (∀ w ∈ [1024, 2047], 1024 ≤ w ∧ w < 2048) ∧ 1023 < 1024 ∧
    (bits (([1024, 2047] ++ [1023]).flatMap (bitsOf 11) ++ [true]) 0).bb
      = ([1024, 2047] ++ [1023]).flatMap (bitsOf 11) ++ [true] := by decide

theorem witness_ParameterRoundTrip : (at' 8 2 4095 0).bb = [] ∧ 2 ≤ (at' 8 2 4095 0).regNat .r1 ∧
    (at' 8 2 4095 0).regNat .r1 ≤ 4095 ∧ (at' 8 2 4095 0).regNat .r2 ≤ 4095 := by decide

theorem witness_MnemonicTraps :
    2047 < (at' 8 2048 0 0).regNat .r1 ∧
    ((bits (List.replicate 4086 true) 2047).regNat .r1 ≤ 2047 ∧ 4096 < (bits (List.replicate 4086 true) 2047).bl + 11) ∧
    (bits (List.replicate 10 true) 0).bl < 11 ∧ (at' 8 1 0 0).regNat .r1 < 2 ∧
    4095 < (at' 8 4096 0 0).regNat .r1 ∧ 4095 < (at' 8 2 4096 0).regNat .r2 ∧
    (max ((bits (List.replicate 4086 true) 2).regNat .r1) ((bits (List.replicate 4086 true) 2).regNat .r2) < 32 ∧
      4096 < (bits (List.replicate 4086 true) 2).bl + 11) ∧
    (max ((bits (List.replicate 4075 true) 32).regNat .r1) 0 < 1024 ∧ 4096 < (bits (List.replicate 4075 true) 32).bl + 22) ∧
    (1024 ≤ max ((bits (List.replicate 4064 true) 1024).regNat .r1) 0 ∧
      4096 < (bits (List.replicate 4064 true) 1024).bl + 33) ∧
    ([1024, 2047, 1024].length ≤ 3 ∧ (∀ w ∈ [1024, 2047, 1024], 1024 ≤ w ∧ w < 2048) ∧
      (bits ([1024, 2047, 1024].flatMap (bitsOf 11) ++ []) 0).bb = [1024, 2047, 1024].flatMap (bitsOf 11) ++ []) ∧
    ((bits ([2047].flatMap (bitsOf 11) ++ [true]) 0).bb = [2047].flatMap (bitsOf 11) ++ [true] ∧
      [true].length < 11) := by decide +kernel

end Sys2Proof.Tests
end

section
/-! SUPPORT. What a command can do at all (spec/00_scope.md R15): it ends in a state that differs from
the start only in what commands own, or in an error of a class that the block raises. -/

namespace Sys2Proof.Machine

/-- What no completing command changes: the configuration, the error latch, the inputs and the last bus
response. -/
structure CommandFrame (s t : State) : Prop where
  prim : t.prim = s.prim
  err : t.err = s.err
  errcode : t.errcode = s.errcode
  errcmd : t.errcmd = s.errcmd
  entPresent : t.entPresent = s.entPresent
  inbox : t.inbox = s.inbox
  reply : t.reply = s.reply

/-- A check, an operand or a command's result either answers a value with the property `P`, or an error
of a class that the block raises itself (R401). -/
def Answers {α : Type} (P : α → Prop) : Except ErrorClass α → Prop
  | .ok a => P a
  | .error e => raisedByBlock e = true

/-! ## Checks and operands -/

theorem answers_ok {α : Type} {P : α → Prop} {a : α} (h : P a) : Answers P (.ok a) := h

theorem answers_error {α : Type} {P : α → Prop} {e : ErrorClass} (h : raisedByBlock e = true) :
    Answers P (.error e) := h

/-- A sequence of checks answers if each of its parts does. -/
theorem Answers.bind {α β : Type} {P : α → Prop} {Q : β → Prop} {x : Except ErrorClass α}
    {f : α → Except ErrorClass β} (hx : Answers P x) (hf : ∀ a, P a → Answers Q (f a)) :
    Answers Q (x >>= f) := by
  cases x with
  | ok a => exact hf a hx
  | error e => exact hx

theorem answers_require {ok : Prop} [Decidable ok] {e : ErrorClass} (he : raisedByBlock e = true) :
    Answers (fun _ => ok) (require ok e) := by
  obtain ⟨hok, h⟩ | ⟨-, h⟩ := require_cases ok e <;> rw [h]
  exacts [answers_ok hok, answers_error he]

theorem answers_fieldOperand (s : State) (i : Reg) :
    Answers (fun v => v = s.regNat i ∧ s.holdsElem i) (s.fieldOperand i) := by
  obtain ⟨helem, h⟩ | ⟨-, h⟩ := fieldOperand_cases s i <;> rw [h]
  exacts [answers_ok ⟨rfl, helem⟩, answers_error rfl]

theorem answers_rangeOperand (s : State) (i : Reg) (lo hi : Nat) :
    Answers (fun v => v = s.regNat i ∧ lo ≤ v ∧ v ≤ hi) (s.rangeOperand i lo hi) := by
  obtain ⟨hrange, h⟩ | ⟨-, h⟩ := rangeOperand_cases s i lo hi <;> rw [h]
  exacts [answers_ok ⟨rfl, hrange⟩, answers_error rfl]

theorem answers_groupWidth (imm : Nat) :
    Answers (fun w => w = imm ∧ 1 ≤ w ∧ w ≤ 32) (groupWidth imm) := by
  obtain ⟨hrange, h⟩ | ⟨-, h⟩ := groupWidth_cases imm <;> rw [h]
  exacts [answers_ok ⟨rfl, hrange⟩, answers_error rfl]

theorem answers_threshSet (s : State) : Answers (fun _ => s.thresh ≠ 0) s.threshSet :=
  answers_require rfl

/-! ## Frames of the state operations -/

theorem CommandFrame.refl (s : State) : CommandFrame s s := ⟨rfl, rfl, rfl, rfl, rfl, rfl, rfl⟩

theorem commandFrame_setReg (s : State) (i : Reg) (v : Word) : CommandFrame s (s.setReg i v) :=
  ⟨rfl, rfl, rfl, rfl, rfl, rfl, rfl⟩

theorem commandFrame_setRegNat (s : State) (i : Reg) (n : Nat) : CommandFrame s (s.setRegNat i n) :=
  commandFrame_setReg s i _

/-- Commands own B, THRESH and the three buffers: writing them is within the frame. -/
theorem commandFrame_buffers (s : State) (b thresh : Nat) (coef : List Nat)
    (samples : List (Nat × Nat)) (bb : BitString) :
    CommandFrame s { s with b := b, thresh := thresh, coef := coef, samples := samples, bb := bb } :=
  ⟨rfl, rfl, rfl, rfl, rfl, rfl, rfl⟩

theorem commandFrame_drawInsecure (s : State) (k : Nat) : CommandFrame s (s.drawInsecure k) :=
  ⟨rfl, rfl, rfl, rfl, rfl, rfl, rfl⟩

theorem commandFrame_drawSecure (s : State) (need : Nat) (got : List Nat) :
    CommandFrame s (s.drawSecure need got) := by
  obtain ⟨-, h⟩ | ⟨-, h⟩ := drawSecure_cases s need got <;> rw [h] <;>
    exact ⟨rfl, rfl, rfl, rfl, rfl, rfl, rfl⟩

theorem answers_pushBack (s : State) (bits : BitString) :
    Answers (CommandFrame s) (s.pushBack bits) := by
  obtain ⟨-, h⟩ | ⟨-, h⟩ := pushBack_cases s bits <;> rw [h]
  exacts [answers_ok (commandFrame_buffers ..), answers_error rfl]

theorem answers_pushFront (s : State) (bits : BitString) :
    Answers (CommandFrame s) (s.pushFront bits) := by
  obtain ⟨-, h⟩ | ⟨-, h⟩ := pushFront_cases s bits <;> rw [h]
  exacts [answers_ok (commandFrame_buffers ..), answers_error rfl]

theorem CommandFrame.setBits {s t : State} (h : CommandFrame s t) (bb : BitString) :
    CommandFrame s { t with bb := bb } := ⟨h.1, h.2, h.3, h.4, h.5, h.6, h.7⟩

theorem answers_popFront (s : State) (n : Nat) (rd : Reg) :
    Answers (CommandFrame s) (s.popFront n rd) := by
  obtain ⟨-, h⟩ | ⟨-, h⟩ := popFront_cases s n rd <;> rw [h]
  exacts [answers_ok ((commandFrame_setRegNat ..).setBits _), answers_error rfl]

/-! ## Every command -/

/-- Every command is `complete` of a result that keeps the frame or is an error the block raises: the one
walk over the commands that the claims about all of them rest on (R15, R410). -/
theorem exec_answers (i : Instr) (s : State) :
    ∃ r, exec i s = complete i s r ∧ Answers (CommandFrame s) r := by
  cases i
  case li | mov => exact ⟨.ok _, rfl, commandFrame_setReg ..⟩
  case gexp => exact ⟨.ok _, rfl, commandFrame_setRegNat ..⟩
  case cclr | sclr | bclr => exact ⟨.ok _, rfl, commandFrame_buffers ..⟩
  all_goals refine ⟨_, rfl, ?_⟩
  case setb =>
    exact (answers_require rfl).bind fun _ _ => answers_ok (commandFrame_buffers ..)
  case sett =>
    exact (answers_rangeOperand ..).bind fun _ _ => answers_ok (commandFrame_buffers ..)
  case gadd | gmul =>
    exact (answers_fieldOperand ..).bind fun _ _ => (answers_fieldOperand ..).bind fun _ _ =>
      answers_ok (commandFrame_setRegNat ..)
  case ginv | glog =>
    exact (answers_fieldOperand ..).bind fun _ _ => (answers_require rfl).bind fun _ _ =>
      answers_ok (commandFrame_setRegNat ..)
  case gpow =>
    exact (answers_fieldOperand ..).bind fun _ _ => answers_ok (commandFrame_setRegNat ..)
  case cpush =>
    exact (answers_threshSet s).bind fun _ _ => (answers_fieldOperand ..).bind fun _ _ =>
      (answers_require rfl).bind fun _ _ => answers_ok (commandFrame_buffers ..)
  case crand =>
    refine (answers_threshSet s).bind fun _ _ => answers_ok ?_
    split
    · exact .refl s
    · split
      · exact commandFrame_drawSecure ..
      · exact commandFrame_drawInsecure ..
  case eval =>
    exact (answers_threshSet s).bind fun _ _ => (answers_fieldOperand ..).bind fun _ _ =>
      (answers_require rfl).bind fun _ _ => (answers_require rfl).bind fun _ _ =>
      answers_ok (commandFrame_setRegNat ..)
  case sadd =>
    refine (answers_fieldOperand ..).bind fun _ _ => (answers_fieldOperand ..).bind fun _ _ =>
      (answers_require rfl).bind fun _ _ => ?_
    split
    · exact answers_ok (commandFrame_buffers ..)
    · split
      · exact answers_error rfl
      · exact answers_ok (commandFrame_buffers ..)
  case interp =>
    exact (answers_threshSet s).bind fun _ _ => (answers_fieldOperand ..).bind fun _ _ =>
      (answers_require rfl).bind fun _ _ => answers_ok (commandFrame_setRegNat ..)
  case bpushh | bpushw =>
    exact (answers_rangeOperand ..).bind fun _ _ => answers_pushBack ..
  case bpushe => exact (answers_fieldOperand ..).bind fun _ _ => answers_pushBack ..
  case penc =>
    exact (answers_rangeOperand ..).bind fun _ _ => (answers_rangeOperand ..).bind fun _ _ =>
      answers_pushBack ..
  case bpoph | bpopw => exact answers_popFront ..
  case bpope =>
    exact (answers_require rfl).bind fun _ _ => answers_ok ((commandFrame_setRegNat ..).setBits _)
  case blpad | balign => exact (answers_groupWidth _).bind fun _ _ => answers_pushFront ..
  case btrim => exact (answers_groupWidth _).bind fun _ _ => answers_ok (commandFrame_buffers ..)
  case bsent => exact answers_pushFront ..
  case bstrip => exact (answers_require rfl).bind fun _ _ => answers_ok (commandFrame_buffers ..)
  case pdec =>
    split
    · exact answers_error rfl
    · exact answers_ok ⟨rfl, rfl, rfl, rfl, rfl, rfl, rfl⟩

/-- Every command completes within the frame or takes an error of a class that the block raises. -/
theorem exec_cases (i : Instr) (s : State) :
    (∃ t, exec i s = .next t ∧ CommandFrame s t) ∨
      ∃ e, raisedByBlock e = true ∧ exec i s = .next (s.raise e (encode i)) := by
  obtain ⟨r, hexec, hr⟩ := exec_answers i s
  cases r with
  | ok t => exact .inl ⟨t, hexec, hr⟩
  | error e => exact .inr ⟨e, hr, hexec⟩

/-- Settles O23: the two cases of `exec_cases`. -/
theorem commandsAreAtomic : Obligations.CommandsAreAtomic := by
  intro i s
  obtain ⟨t, hexec, hframe⟩ | ⟨e, he, hexec⟩ := exec_cases i s
  · exact ⟨t, hexec, .inl ⟨hframe.err, hframe.errcode, hframe.errcmd⟩⟩
  · exact ⟨_, hexec, .inr ⟨e, he, rfl, rfl⟩⟩

end Sys2Proof.Machine
end

section
/-! SUPPORT. What one step can do to the configuration PRIM (spec/00_scope.md R9): nothing, whatever the
input it performs. -/

namespace Sys2Proof.Machine

theorem exec_prim {i : Instr} {s t : State} (h : exec i s = .next t) : t.prim = s.prim := by
  obtain ⟨u, hexec, hframe⟩ | ⟨e, -, hexec⟩ := exec_cases i s <;>
    obtain rfl := Host.Outcome.next.inj (h.symm.trans hexec)
  · exact hframe.prim
  · exact raise_prim s e _

/-- What a word written to CMD does (R83, R108, R412): it is discarded, executed, or illegal. -/
theorem writeCmd_cases (s : State) (word : Word) :
    (s.err = true ∧ writeCmd s word = .next s) ∨
      (s.err = false ∧ ∃ i, decode word = .ok i ∧ writeCmd s word = exec i s) ∨
      (s.err = false ∧ (∃ d, decode word = .error d) ∧
        writeCmd s word = .next (s.raise .illegalCommand word)) := by
  unfold writeCmd
  cases s.err with
  | true => exact .inl ⟨rfl, rfl⟩
  | false =>
    cases hd : decode word with
    | ok i => exact .inr (.inl ⟨rfl, i, rfl, rfl⟩)
    | error d => exact .inr (.inr ⟨rfl, ⟨d, rfl⟩, rfl⟩)

/-- What a permitted write to the window can do (R71): the effect of CTRL, STATUS, CMD or INSECCNT, one
general register written, or nothing. -/
inductive WindowEffect (s : State) (offset : BitVec 8) (v : Word) :
    Host.Outcome State Fault Refusal → Prop where
  | ctrl (hoffset : offset = offCtrl) : WindowEffect s offset v (.next (s.writeCtrl v))
  | status (hoffset : offset = offStatus) : WindowEffect s offset v (.next (s.writeStatus v))
  | command {o : Host.Outcome State Fault Refusal} (hoffset : offset = offCmd) (ho : writeCmd s v = o) :
      WindowEffect s offset v o
  | inseccnt (hoffset : offset = offInseccnt) : WindowEffect s offset v (.next { s with inseccnt := 0#32 })
  | register (i : Reg) (hoffset : offset = offReg i) : WindowEffect s offset v (.next (s.setReg i v))
  | ignored : WindowEffect s offset v (.next s)

theorem windowWrite_effect (s : State) (offset : BitVec 8) (v : Word) :
    WindowEffect s offset v (windowWrite s offset v) := by
  unfold windowWrite
  split
  next h => exact .ctrl (BitVec.eq_of_toNat_eq h)
  next h => exact .status (BitVec.eq_of_toNat_eq h)
  next h => exact .command (BitVec.eq_of_toNat_eq h) rfl
  next h => exact .inseccnt (BitVec.eq_of_toNat_eq h)
  next h => exact .register .r0 (BitVec.eq_of_toNat_eq h)
  next h => exact .register .r1 (BitVec.eq_of_toNat_eq h)
  next h => exact .register .r2 (BitVec.eq_of_toNat_eq h)
  next h => exact .register .r3 (BitVec.eq_of_toNat_eq h)
  next h => exact .register .r4 (BitVec.eq_of_toNat_eq h)
  next h => exact .register .r5 (BitVec.eq_of_toNat_eq h)
  next h => exact .register .r6 (BitVec.eq_of_toNat_eq h)
  next h => exact .register .r7 (BitVec.eq_of_toNat_eq h)
  next => exact .ignored

theorem writeCmd_prim {s t : State} {word : Word} (h : writeCmd s word = .next t) :
    t.prim = s.prim := by
  obtain ⟨-, hw⟩ | ⟨-, i, -, hw⟩ | ⟨-, -, hw⟩ := writeCmd_cases s word <;> rw [hw] at h
  · obtain rfl := Host.Outcome.next.inj h; rfl
  · exact exec_prim h
  · obtain rfl := Host.Outcome.next.inj h; exact raise_prim ..

@[simp] theorem writeCtrl_prim (s : State) (v : Word) : (s.writeCtrl v).prim = s.prim := by
  unfold State.writeCtrl
  split
  · exact resetBlock_prim s
  · rfl

@[simp] theorem writeStatus_prim (s : State) (v : Word) : (s.writeStatus v).prim = s.prim := by
  unfold State.writeStatus
  split <;> split <;> rfl

theorem windowWrite_prim {s t : State} {offset : BitVec 8} {v : Word}
    (h : windowWrite s offset v = .next t) : t.prim = s.prim := by
  have heffect := windowWrite_effect s offset v
  rw [h] at heffect
  cases heffect with
  | ctrl => exact writeCtrl_prim s v
  | status => exact writeStatus_prim s v
  | command _ hcmd => exact writeCmd_prim hcmd
  | inseccnt => rfl
  | register i => exact setReg_prim s i v
  | ignored => rfl

@[simp] theorem drawSecure_prim (s : State) (need : Nat) (got : List Nat) :
    (s.drawSecure need got).prim = s.prim := (commandFrame_drawSecure s need got).prim

@[simp] theorem receiveEntropy_prim (s : State) (data : BitVec 20) :
    (s.receiveEntropy data).prim = s.prim := by
  unfold State.receiveEntropy
  split
  · rfl
  · exact drawSecure_prim ..

/-- No input changes PRIM, RST included (R9, R451). -/
theorem perform_prim {i : Input} {s t : State} (h : perform i s = .next t) : t.prim = s.prim := by
  cases i with
  | read offset bytes =>
    simp only [perform] at h
    split at h <;> (obtain rfl := Host.Outcome.next.inj h; rfl)
  | write offset bytes v =>
    simp only [perform] at h
    split at h
    · exact (windowWrite_prim h).trans rfl
    · obtain rfl := Host.Outcome.next.inj h; rfl
  | rst => obtain rfl := Host.Outcome.next.inj h; exact resetBlock_prim s
  | entLevel present => obtain rfl := Host.Outcome.next.inj h; rfl
  | entReply data => obtain rfl := Host.Outcome.next.inj h; exact receiveEntropy_prim s data

/-- What a step that answers a next state did: it performed an input, or the block was idle (R84; log
17). -/
theorem step_cases {s t : State} (h : step s = .next t) :
    (∃ i rest, nextInput s = some (i, rest) ∧ perform i { s with inbox := rest } = .next t) ∨
      (nextInput s = none ∧ s.busy = false ∧ t = s) := by
  unfold step stepBlock at h
  split at h
  next i rest hnext => exact .inl ⟨i, rest, hnext, h⟩
  next hnext =>
    split at h
    · cases h
    next hidle => exact .inr ⟨hnext, by simpa using hidle, (Host.Outcome.next.inj h).symm⟩

theorem step_prim {s t : State} (h : step s = .next t) : t.prim = s.prim := by
  obtain ⟨i, rest, -, hperform⟩ | ⟨-, -, rfl⟩ := step_cases h
  · exact (perform_prim hperform).trans rfl
  · rfl

/-- Settles O19: a step performs an input or nothing, and neither an input nor a command changes PRIM. -/
theorem noStepChangesThePolynomials : Obligations.NoStepChangesThePolynomials :=
  ⟨fun _ _ => step_prim, fun _ _ _ => exec_prim⟩

end Sys2Proof.Machine
end

section
/-! SUPPORT. Elements of the field as polynomials over GF(2) (spec/41_gf.md R140): XOR is addition, one
turn of the table loop is multiplication by x modulo x^b + PRIM(b), so EXP(i) is x^i and multiplication
in the log domain is multiplication of polynomials. -/

namespace Sys2Proof.Machine

open Polynomial

/-! ## The polynomial of an integer -/

theorem coeff_polyOf (v i : Nat) :
    (polyOf v).coeff i = if i < 32 ∧ v.testBit i = true then 1 else 0 := by
  have hterm (j : Nat) : (if v.testBit j then (X ^ j : (ZMod 2)[X]) else 0).coeff i
      = if i = j then (if v.testBit i then 1 else 0) else 0 := by
    by_cases hij : i = j
    · subst hij; split <;> simp
    · split <;> simp [coeff_X_pow, hij]
  simp only [polyOf, finsetSum_coeff, hterm, Finset.sum_ite_eq, Finset.mem_range, ite_and]

theorem testBit_eq_false_of_le {v n i : Nat} (hv : v < 2 ^ n) (hi : n ≤ i) : v.testBit i = false :=
  Nat.testBit_lt_two_pow (hv.trans_le (Nat.pow_le_pow_right Nat.two_pos hi))

/-- For an integer of 32 bits, coefficient i is bit i (R140). -/
theorem coeff_polyOf_of_lt {v : Nat} (hv : v < 2 ^ 32) (i : Nat) :
    (polyOf v).coeff i = if v.testBit i = true then 1 else 0 := by
  rw [coeff_polyOf]
  by_cases hi : i < 32
  · simp [hi]
  · simp [testBit_eq_false_of_le hv (Nat.not_lt.mp hi)]

@[simp] theorem polyOf_zero : polyOf 0 = 0 := by simp [polyOf]

/-- XOR of integers is addition of polynomials over GF(2) (R140). -/
theorem polyOf_xor (a c : Nat) : polyOf (a ^^^ c) = polyOf a + polyOf c := by
  ext i
  simp only [coeff_add, coeff_polyOf, Nat.testBit_xor]
  by_cases hi : i < 32
  · cases a.testBit i <;> cases c.testBit i <;> simp [hi, CharTwo.add_self_eq_zero]
  · simp [hi]

theorem polyOf_two_pow {k : Nat} (hk : k < 32) : polyOf (2 ^ k) = X ^ k := by
  ext i
  rw [coeff_polyOf_of_lt (Nat.pow_lt_pow_right Nat.one_lt_two hk), Nat.testBit_two_pow, coeff_X_pow]
  simp [eq_comm]

@[simp] theorem polyOf_one : polyOf 1 = 1 := polyOf_two_pow (k := 0) (by decide)

theorem polyOf_two_mul {v : Nat} (hv : v < 2 ^ 31) : polyOf (2 * v) = X * polyOf v := by
  ext i
  rw [coeff_polyOf_of_lt (by omega)]
  cases i with
  | zero => simp
  | succ i =>
    rw [coeff_X_mul, coeff_polyOf_of_lt (by omega), Nat.testBit_succ,
      Nat.mul_div_cancel_left v Nat.two_pos]

theorem degree_polyOf_lt {v n : Nat} (hv : v < 2 ^ n) : (polyOf v).degree < n := by
  rw [degree_lt_iff_coeff_zero]
  intro i hi
  simp [coeff_polyOf, testBit_eq_false_of_le hv hi]

/-- Different integers of 32 bits stand for different polynomials. -/
theorem polyOf_inj {a c : Nat} (ha : a < 2 ^ 32) (hc : c < 2 ^ 32) (h : polyOf a = polyOf c) :
    a = c := by
  refine Nat.eq_of_testBit_eq fun i => ?_
  have hcoeff := congrArg (coeff · i) h
  simp only [coeff_polyOf_of_lt ha, coeff_polyOf_of_lt hc] at hcoeff
  cases hbit : a.testBit i <;> cases hbit' : c.testBit i <;> simp [hbit, hbit'] at hcoeff ⊢

/-! ## The table loop is multiplication by x (R142) -/

section

variable {F : FieldParams}

theorem modulusOf_monic (hp : F.prim < 2 ^ F.width) : (modulusOf F).Monic :=
  monic_X_pow_add (degree_polyOf_lt hp)

theorem degree_modulusOf (hp : F.prim < 2 ^ F.width) : (modulusOf F).degree = F.width := by
  rw [modulusOf, degree_add_eq_left_of_degree_lt (by rw [degree_X_pow]; exact degree_polyOf_lt hp),
    degree_X_pow]

/-- A field element is its own remainder. -/
theorem polyOf_modByMonic {v : Nat} (hp : F.prim < 2 ^ F.width) (hv : v < 2 ^ F.width) :
    polyOf v %ₘ modulusOf F = polyOf v := by
  rw [modByMonic_eq_self_iff (modulusOf_monic hp), degree_modulusOf hp]
  exact degree_polyOf_lt hv

/-- The turn that overflows: taking the leading bit away and adding PRIM is adding the modulus. -/
theorem expStep_overflow {v : Nat} (hp : F.prim < 2 ^ F.width) (hv : v < 2 ^ F.width)
    (h : 2 ^ F.width ≤ 2 * v) : expStep F v = 2 * v ^^^ 2 ^ F.width ^^^ F.prim := by
  rw [expStep, if_pos h, fieldMax]
  have hv2 : 2 * v < 2 ^ (F.width + 1) := by rw [Nat.pow_succ]; omega
  refine Nat.eq_of_testBit_eq fun i => ?_
  simp only [Nat.testBit_and, Nat.testBit_xor, Nat.testBit_two_pow_sub_one, Nat.testBit_two_pow]
  obtain hi | rfl | hi := lt_trichotomy i F.width
  · simp [hi, hi.ne']
  · simp [Nat.testBit_of_two_pow_le_and_two_pow_add_one_gt h hv2, testBit_eq_false_of_le hp le_rfl]
  · simp [hi.ne, hi.not_gt, testBit_eq_false_of_le hv2 hi, testBit_eq_false_of_le hp hi.le]

theorem polyOf_expStep {v : Nat} (hw : F.width ≤ 31) (hp : F.prim < 2 ^ F.width)
    (hv : v < 2 ^ F.width) : polyOf (expStep F v) = (X * polyOf v) %ₘ modulusOf F := by
  have hv' : v < 2 ^ 31 := hv.trans_le (Nat.pow_le_pow_right Nat.two_pos hw)
  have hreduced := polyOf_modByMonic hp (expStep_lt F hv)
  by_cases h : 2 ^ F.width ≤ 2 * v
  · rw [← hreduced, expStep_overflow hp hv h, polyOf_xor, polyOf_xor, polyOf_two_mul hv',
      polyOf_two_pow (by omega), add_assoc, ← modulusOf, add_modByMonic,
      modByMonic_self (modulusOf_monic hp), add_zero]
  · rw [← hreduced, expStep, if_neg h, polyOf_two_mul hv']

/-- Entry i of the table loop is x^i (R142). -/
theorem polyOf_expEntry (h0 : 0 < F.width) (hw : F.width ≤ 31) (hp : F.prim < 2 ^ F.width) (i : Nat) :
    polyOf (expEntry F i) = X ^ i %ₘ modulusOf F := by
  induction i with
  | zero =>
    rw [pow_zero, ← polyOf_one]
    exact (polyOf_modByMonic hp (expEntry_lt F h0 0)).symm
  | succ i ih =>
    rw [expEntry_succ, polyOf_expStep hw hp (expEntry_lt F h0 i), mul_modByMonic,
      polyOf_modByMonic hp (expEntry_lt F h0 i), ih, ← mul_modByMonic, pow_succ']

end

/-! ## In a primitive field the generator has order MAX (R141, R142) -/

section

variable {F : FieldParams} (hF : PrimitiveField F) (h2 : 2 ≤ F.width) (hw : F.width ≤ 31)

include hF h2 hw

/-- The element x + 1 is an entry of the table, so x has an inverse modulo the polynomial. -/
theorem isCoprime_X_modulusOf : IsCoprime X (modulusOf F) := by
  have hwidth : 2 ^ 2 ≤ 2 ^ F.width := Nat.pow_le_pow_right Nat.two_pos h2
  obtain ⟨i, -, hi⟩ := hF.visitsAll 3 (by decide) (by omega)
  cases i with
  | zero => exact absurd (show 1 = 3 from hi) (by decide)
  | succ i =>
    have hthree : polyOf 3 = X + 1 := by
      rw [show 3 = 2 ^ 1 ^^^ 1 by decide, polyOf_xor, polyOf_two_pow (by decide), polyOf_one, pow_one]
    have hpow := polyOf_expEntry (by omega) hw hF.lowOrder (i + 1)
    rw [hi, hthree] at hpow
    have hdiv := modByMonic_add_div (X ^ (i + 1)) (modulusOf F)
    rw [← hpow] at hdiv
    exact ⟨X ^ i - 1, -(X ^ (i + 1) /ₘ modulusOf F), by linear_combination -hdiv⟩

/-- One turn of the table loop can be undone: x is invertible modulo the polynomial. -/
theorem expEntry_succ_inj {i j : Nat}
    (h : expEntry F (i + 1) = expEntry F (j + 1)) : expEntry F i = expEntry F j := by
  have hentry := polyOf_expEntry (by omega) hw hF.lowOrder
  have hdvd : modulusOf F ∣ X * (X ^ i - X ^ j) := by
    rw [mul_sub, ← pow_succ', ← pow_succ', ← modByMonic_eq_zero_iff_dvd (modulusOf_monic hF.lowOrder),
      sub_modByMonic, ← hentry, ← hentry, h, sub_self]
  have hpoly : polyOf (expEntry F i) = polyOf (expEntry F j) := by
    rw [hentry, hentry]
    exact modByMonic_eq_of_dvd_sub (modulusOf_monic hF.lowOrder)
      ((isCoprime_X_modulusOf hF h2 hw).symm.dvd_of_dvd_mul_left hdvd)
  have hlt (k : Nat) : expEntry F k < 2 ^ 32 :=
    (expEntry_lt F (by omega) k).trans (Nat.pow_lt_pow_right Nat.one_lt_two (by omega))
  exact polyOf_inj (hlt i) (hlt j) hpoly

theorem expEntry_ne_zero (i : Nat) : expEntry F i ≠ 0 := by
  intro h
  have hzero := polyOf_expEntry (by omega) hw hF.lowOrder i
  rw [h, polyOf_zero, eq_comm, modByMonic_eq_zero_iff_dvd (modulusOf_monic hF.lowOrder)] at hzero
  have hunit := ((isCoprime_X_modulusOf hF h2 hw).symm.pow_right (n := i)).isUnit_of_dvd' dvd_rfl hzero
  have hdeg := degree_eq_zero_of_isUnit hunit
  rw [degree_modulusOf hF.lowOrder] at hdeg
  exact absurd (Nat.cast_eq_zero.mp hdeg) (by omega)

theorem expEntry_injOn : Set.InjOn (expEntry F) (Finset.range (fieldMax F)) := by
  have hpos (i : Nat) := Nat.pos_of_ne_zero (expEntry_ne_zero hF h2 hw i)
  have hlt (i : Nat) := expEntry_lt F (by omega) i
  refine Finset.injOn_of_surjOn_of_card_le (t := Finset.Icc 1 (fieldMax F)) _ ?_ ?_ (by simp)
  · intro i _
    have := hlt i
    simp only [Finset.coe_Icc, Set.mem_Icc, fieldMax]
    exact ⟨hpos i, by omega⟩
  · intro a ha
    simp only [Finset.coe_Icc, Set.mem_Icc, fieldMax] at ha
    obtain ⟨i, hi, rfl⟩ := hF.visitsAll a ha.1 (by have := Nat.two_pow_pos F.width; omega)
    exact ⟨i, by simpa using hi, rfl⟩

/-- After MAX turns the table loop is back at 1 (R142). -/
theorem expEntry_fieldMax : expEntry F (fieldMax F) = 1 := by
  obtain ⟨j, hj, hexp⟩ := hF.visitsAll (expEntry F (fieldMax F))
    (Nat.pos_of_ne_zero (expEntry_ne_zero hF h2 hw _)) (expEntry_lt F (by omega) _)
  cases j with
  | zero => exact hexp.symm
  | succ j =>
    obtain ⟨m, hm⟩ : ∃ m, fieldMax F = m + 1 := ⟨fieldMax F - 1, by omega⟩
    rw [hm] at hexp
    have hjm := expEntry_injOn hF h2 hw (by simp; omega) (by simp; omega)
      (expEntry_succ_inj hF h2 hw hexp)
    omega

theorem expEntry_periodic : Function.Periodic (expEntry F) (fieldMax F) := fun i => by
  rw [expEntry, Function.iterate_add_apply]
  exact congrArg ((expStep F)^[i]) (expEntry_fieldMax hF h2 hw)

/-- EXP needs no reduction of its exponent: it is the table loop's entry at any index (R142). -/
theorem gfExp_eq_expEntry (i : Nat) :
    gfExp F i = expEntry F i := (expEntry_periodic hF h2 hw).map_mod_nat i

/-- A nonzero element is the power of x that its LOG says (R143). -/
theorem polyOf_eq_X_pow_gfLog {a : Nat} (ha0 : a ≠ 0) (ha : a < 2 ^ F.width) :
    polyOf a = X ^ gfLog F a %ₘ modulusOf F := by
  rw [← polyOf_expEntry (by omega) hw hF.lowOrder, (gfLog_spec hF (Nat.pos_of_ne_zero ha0) ha).2]

/-- Multiplication in the log domain is multiplication modulo x^b + PRIM(b) (R140, R144). -/
theorem polyOf_gfMul {a c : Nat} (ha : a < 2 ^ F.width) (hc : c < 2 ^ F.width) :
    polyOf (gfMul F a c) = (polyOf a * polyOf c) %ₘ modulusOf F := by
  by_cases h : a = 0 ∨ c = 0
  · obtain rfl | rfl := h <;> simp
  · obtain ⟨ha0, hc0⟩ := not_or.mp h
    have hentry : gfMul F a c = expEntry F (gfLog F a + gfLog F c) := by
      rw [gfMul, if_neg h, gfExp, Nat.mod_mod]
      exact gfExp_eq_expEntry hF h2 hw _
    rw [hentry, polyOf_expEntry (by omega) hw hF.lowOrder, pow_add, mul_modByMonic,
      ← polyOf_eq_X_pow_gfLog hF h2 hw ha0 ha, ← polyOf_eq_X_pow_gfLog hF h2 hw hc0 hc]

end

/-! ## The commands GADD and GMUL -/

theorem exec_gadd {s : State} {rs1 rs2 : Reg} (h1 : s.holdsElem rs1) (h2 : s.holdsElem rs2) (rd : Reg) :
    exec (.gadd rd rs1 rs2) s = .next (s.setRegNat rd (s.regNat rs1 ^^^ s.regNat rs2)) := by
  simp [exec, execGadd, fieldOperand_ok ((holdsElem_iff s _).mp h1),
    fieldOperand_ok ((holdsElem_iff s _).mp h2)]

theorem exec_gmul {s : State} {rs1 rs2 : Reg} (h1 : s.holdsElem rs1) (h2 : s.holdsElem rs2) (rd : Reg) :
    exec (.gmul rd rs1 rs2) s
      = .next (s.setRegNat rd (gfMul s.field (s.regNat rs1) (s.regNat rs2))) := by
  simp [exec, execGmul, fieldOperand_ok ((holdsElem_iff s _).mp h1),
    fieldOperand_ok ((holdsElem_iff s _).mp h2)]

/-- A result of 32 bits is read back as it was written. -/
theorem regNat_setRegNat_same (s : State) (i : Reg) {n : Nat} (h : n < 2 ^ 32) :
    (s.setRegNat i n).regNat i = n := by
  rw [State.regNat, reg_setRegNat_same, BitVec.toNat_ofNat, Nat.mod_eq_of_lt h]

/-- Settles O31: XOR is addition, and the log domain is multiplication modulo x^B + PRIM(B). -/
theorem fieldOperationsArePolynomialOperations :
    Obligations.FieldOperationsArePolynomialOperations := by
  intro rd rs1 rs2 s ⟨⟨hmin, hmax⟩, hF⟩ h1 h2
  have hproduct : gfMul s.field (s.regNat rs1) (s.regNat rs2) < 2 ^ s.b :=
    gfMul_lt s.field (show 0 < s.b by omega) _ _
  have hword : gfMul s.field (s.regNat rs1) (s.regNat rs2) < 2 ^ 32 :=
    hproduct.trans (Nat.pow_lt_pow_right Nat.one_lt_two (by omega))
  have hsum : s.regNat rs1 ^^^ s.regNat rs2 < 2 ^ 32 :=
    Nat.xor_lt_two_pow (s.reg rs1).isLt (s.reg rs2).isLt
  refine ⟨⟨_, exec_gadd h1 h2 rd, ?_⟩, _, exec_gmul h1 h2 rd, ?_, ?_, setRegNat_onlyRegsChange ..⟩
  · rw [regNat_setRegNat_same s rd hsum, polyOf_xor]
  · rw [State.holdsElem, regNat_setRegNat_same s rd hword]
    exact hproduct
  · rw [regNat_setRegNat_same s rd hword]
    exact polyOf_gfMul hF (show 2 ≤ s.b by omega) (show s.b ≤ 31 by omega) h1 h2

end Sys2Proof.Machine
end

section
/-! SUPPORT. The inputs at the block's ports and the wait of a CRAND (spec/10_state.md R44, R45;
spec/60_exceptions.md R425): what one delivered value does, and what all the values of a wait do
together. -/

namespace Sys2Proof.Machine

/-! ## An input that is never held -/

/-- The oldest input is performed next, busy or not, when it is none that BUSY = 1 holds (R84). -/
theorem step_of_head_unheld {s : State} {i : Input} {rest : List Input} (hinbox : s.inbox = i :: rest)
    (hi : heldWhileBusy i = false) : step s = perform i { s with inbox := rest } := by
  have hnext : nextInput s = some (i, rest) := by
    unfold nextInput
    split
    · rw [hinbox]
      exact takeUnheld_append [] i rest (by simp) hi
    · rw [hinbox]
  simp only [step, stepBlock, hnext]

theorem inProgress_of_not_busy {s : State} (h : s.busy = false) : s.inProgress = none := by
  simpa [State.busy] using h

/-! ## The entropy port -/

theorem drawSecure_of_enough {s : State} {need : Nat} (h : need ≤ s.entReady.length) (got : List Nat) :
    s.drawSecure need got =
      { s with
        coef := s.coef ++ (got ++ (s.entReady.take need).map (drawValue s.b))
        entReady := s.entReady.drop need
        inProgress := none } := by
  obtain ⟨-, heq⟩ | ⟨hlt, -⟩ := drawSecure_cases s need got
  · exact heq
  · exact absurd h hlt.not_ge

theorem drawSecure_of_few {s : State} {need : Nat} (h : s.entReady.length < need) (got : List Nat) :
    s.drawSecure need got =
      { s with
        entReady := []
        inProgress := some ⟨need - s.entReady.length, got ++ s.entReady.map (drawValue s.b)⟩ } := by
  obtain ⟨hle, -⟩ | ⟨-, heq⟩ := drawSecure_cases s need got
  · exact absurd h hle.not_gt
  · exact heq

theorem receiveEntropy_idle {s : State} (h : s.inProgress = none) (data : BitVec 20) :
    s.receiveEntropy data = { s with entReady := s.entReady ++ [data] } := by
  simp only [State.receiveEntropy, h]

theorem receiveEntropy_waiting {s : State} {w : WaitingCrand} (h : s.inProgress = some w)
    (data : BitVec 20) : s.receiveEntropy data
      = State.drawSecure { s with entReady := s.entReady ++ [data] } w.need w.got := by
  simp only [State.receiveEntropy, h]

section

variable {s : State} {w : WaitingCrand} (hwait : s.inProgress = some w) (hempty : s.entReady = [])

include hwait hempty

/-- The value that a waiting CRAND needs last completes it (R207). -/
theorem receiveEntropy_last (hneed : w.need = 1) (data : BitVec 20) :
    s.receiveEntropy data =
      { s with coef := s.coef ++ (w.got ++ [drawValue s.b data]), inProgress := none } := by
  rw [receiveEntropy_waiting hwait, drawSecure_of_enough (by simp [hempty, hneed])]
  simp [hempty, hneed]

/-- Any other value is kept by the waiting CRAND, which goes on waiting (R207). -/
theorem receiveEntropy_more (hneed : 2 ≤ w.need) (data : BitVec 20) :
    s.receiveEntropy data =
      { s with inProgress := some ⟨w.need - 1, w.got ++ [drawValue s.b data]⟩ } := by
  rw [receiveEntropy_waiting hwait, drawSecure_of_few (by simp [hempty]; omega)]
  simp [hempty]

end

/-- Delivered one by one, the values a CRAND waits for are all appended, after those it has. -/
theorem foldl_receiveEntropy (s : State) (ds : List (BitVec 20)) (hds : ds ≠ []) (got : List Nat) :
    ds.foldl State.receiveEntropy { s with entReady := [], inProgress := some ⟨ds.length, got⟩ } =
      { s with
        coef := s.coef ++ (got ++ ds.map (drawValue s.b)), entReady := [], inProgress := none } := by
  induction ds generalizing got with
  | nil => exact absurd rfl hds
  | cons d ds ih =>
    rw [List.foldl_cons]
    cases ds with
    | nil => exact receiveEntropy_last (w := ⟨1, got⟩) rfl rfl rfl d
    | cons d' ds =>
      rw [receiveEntropy_more rfl rfl (by simp) d]
      simpa using ih (by simp) (got ++ [drawValue s.b d])

/-- Settles O18: each such input heads the inbox and is performed by `step_of_head_unheld`. -/
theorem portInputsArePerformedAtOnce : Obligations.PortInputsArePerformedAtOnce := by
  refine ⟨?delivered, ?level, ?reset, fun _ _ => ⟨rfl, rfl, rfl⟩, ?idle, ?waiting⟩
  case delivered | level => exact fun s rest _ h => step_of_head_unheld h rfl
  case reset => exact fun s rest h => step_of_head_unheld h rfl
  case idle => exact fun s data hidle => receiveEntropy_idle (inProgress_of_not_busy hidle) data
  case waiting =>
    exact fun s w data hwait hempty => ⟨fun hneed => receiveEntropy_last hwait hempty hneed data,
      fun hneed => receiveEntropy_more hwait hempty hneed data⟩

/-! ## CRAND (R207) -/

theorem exec_crand {s : State} (h : s.thresh ≠ 0) :
    exec .crand s = .next (if s.thresh - s.fill = 0 then s
      else if s.entPresent then s.drawSecure (s.thresh - s.fill) []
      else s.drawInsecure (s.thresh - s.fill)) := by
  have hset : s.threshSet = .ok () := require_pos h _
  simp only [exec, execCrand, hset, except_ok_bind, complete_ok]

theorem exec_crand_full {s : State} (h : s.thresh ≠ 0) (hfill : s.thresh ≤ s.fill) :
    exec .crand s = .next s := by
  rw [exec_crand h, if_pos (Nat.sub_eq_zero_of_le hfill)]

theorem exec_crand_insecure {s : State} (hfill : s.fill < s.thresh) (hent : s.entPresent = false) :
    exec .crand s = .next (s.drawInsecure (s.thresh - s.fill)) := by
  rw [exec_crand (by omega), if_neg (by omega), hent, if_neg Bool.false_ne_true]

theorem exec_crand_secure {s : State} (hfill : s.fill < s.thresh) (hent : s.entPresent = true) :
    exec .crand s = .next (s.drawSecure (s.thresh - s.fill) []) := by
  rw [exec_crand (by omega), if_neg (by omega), if_pos hent]

/-- Settles O40: the free values are the generator's next draws. -/
theorem crandWithTheDefaultGenerator : Obligations.CrandWithTheDefaultGenerator := by
  intro s hthresh
  refine ⟨exec_crand_full hthresh, fun hfill hent => ?_⟩
  refine ⟨s.defaultDraws (s.thresh - s.fill), length_defaultDraws .., defaultDraws_lt s _, _,
    exec_crand_insecure hfill hent, rfl, ?_, rfl, toNat_saturatingAdd .., rfl⟩
  rw [State.fill, drawInsecure_coef, List.length_append, length_defaultDraws]
  exact Nat.add_sub_cancel' hfill.le

/-- Settles O41: the two cases of what a CRAND does with the values that are ready. -/
theorem crandWithTheEntropyPort : Obligations.CrandWithTheEntropyPort := by
  intro s _ hfill hent
  rw [exec_crand_secure hfill hent]
  refine ⟨fun henough => ?_, fun hfew => ?_⟩
  · rw [drawSecure_of_enough henough]
    rfl
  · rw [drawSecure_of_few hfew]
    exact ⟨_, rfl, rfl, rfl, rfl⟩

/-- Settles O42: the CRAND waits for exactly the values that then come. -/
theorem crandCompletesWhenThePortHasDelivered : Obligations.CrandCompletesWhenThePortHasDelivered := by
  intro s t ds _ hent hds hsum hexec
  have hpos : 0 < ds.length := List.length_pos_iff.mpr hds
  have hneed : s.thresh - s.fill - s.entReady.length = ds.length := by omega
  rw [exec_crand_secure (by omega) hent, drawSecure_of_few (by omega), hneed] at hexec
  obtain rfl := Host.Outcome.next.inj hexec
  rw [foldl_receiveEntropy s ds hds, List.nil_append, ← List.map_append]
  rfl

end Sys2Proof.Machine
end

section
/-! SUPPORT. What each command does to the state when it completes (spec/10_state.md R31 to R40), as one
list of effects; the claims about every command are read off that list. -/

namespace Sys2Proof.Machine

/-- The commands that write a general register (R31). -/
def writesRegs : Instr → Bool
  | .li .. | .mov .. | .gadd .. | .gmul .. | .ginv .. | .gpow .. | .glog .. | .gexp .. => true
  | .eval .. | .interp .. | .bpoph .. | .bpope .. | .bpopw .. | .pdec .. => true
  | _ => false

/-- The commands that write the bit buffer (R37). -/
def writesBits : Instr → Bool
  | .bclr | .bpushh .. | .bpoph .. | .bpushe .. | .bpope .. | .blpad .. | .balign .. => true
  | .btrim .. | .bsent | .bstrip | .bpushw .. | .bpopw .. | .penc .. | .pdec .. => true
  | _ => false

/-- What a completing command does (R15): the next state, and the checks that it passed as far as they
bear on the buffers. -/
inductive CommandEffect (s : State) : Instr → State → Prop where
  | register (i : Instr) (rd : Reg) (v : Word) (hi : writesRegs i = true) :
      CommandEffect s i (s.setReg rd v)
  | bits (i : Instr) (bb : BitString) (hi : writesBits i = true)
      (hcap : s.bl ≤ 4096 → bb.length ≤ 4096) : CommandEffect s i { s with bb := bb }
  | pop (i : Instr) (regs : Regs) (bb : BitString) (hregs : writesRegs i = true)
      (hbits : writesBits i = true) (hlen : bb.length ≤ s.bl) :
      CommandEffect s i { s with regs := regs, bb := bb }
  | setb (imm : Nat) (hrange : 3 ≤ imm ∧ imm ≤ 20) :
      CommandEffect s (.setb imm) { s with b := imm, coef := [], samples := [] }
  | sett (rs1 : Reg) (hrange : 2 ≤ s.regNat rs1 ∧ s.regNat rs1 ≤ 4095) :
      CommandEffect s (.sett rs1) { s with thresh := s.regNat rs1 }
  | cclr : CommandEffect s .cclr { s with coef := [] }
  | cpush (rs1 : Reg) (helem : s.holdsElem rs1) (hfill : s.fill < s.thresh) :
      CommandEffect s (.cpush rs1) { s with coef := s.coef ++ [s.regNat rs1] }
  | crandFull : CommandEffect s .crand s
  | crandSecure (hfill : s.fill < s.thresh) :
      CommandEffect s .crand (s.drawSecure (s.thresh - s.fill) [])
  | crandInsecure (hfill : s.fill < s.thresh) :
      CommandEffect s .crand (s.drawInsecure (s.thresh - s.fill))
  | sclr : CommandEffect s .sclr { s with samples := [] }
  | saddOverwrite (rs1 rs2 : Reg) (hy : s.holdsElem rs2) :
      CommandEffect s (.sadd rs1 rs2)
        { s with samples := overwriteY s.samples (s.regNat rs1) (s.regNat rs2) }
  | saddAppend (rs1 rs2 : Reg) (hx : s.holdsElem rs1) (hx0 : s.regNat rs1 ≠ 0)
      (hy : s.holdsElem rs2) (hnew : holdsX s.samples (s.regNat rs1) = false)
      (hcap : s.scount ≠ 4095) :
      CommandEffect s (.sadd rs1 rs2)
        { s with samples := s.samples ++ [(s.regNat rs1, s.regNat rs2)] }

/-! ## Every command has its effect -/

theorem answers_pushBack_effect {i : Instr} (hi : writesBits i = true) (s : State) (bits : BitString) :
    Answers (CommandEffect s i) (s.pushBack bits) := by
  obtain ⟨hle, h⟩ | ⟨-, h⟩ := pushBack_cases s bits <;> rw [h]
  · exact answers_ok (.bits i _ hi fun _ => by rwa [List.length_append])
  · exact answers_error rfl

theorem answers_pushFront_effect {i : Instr} (hi : writesBits i = true) (s : State) (bits : BitString) :
    Answers (CommandEffect s i) (s.pushFront bits) := by
  obtain ⟨hle, h⟩ | ⟨-, h⟩ := pushFront_cases s bits <;> rw [h]
  · exact answers_ok (.bits i _ hi fun _ => by rwa [List.length_append, Nat.add_comm])
  · exact answers_error rfl

theorem answers_popFront_effect {i : Instr} (hregs : writesRegs i = true) (hbits : writesBits i = true)
    (s : State) (n : Nat) (rd : Reg) : Answers (CommandEffect s i) (s.popFront n rd) := by
  obtain ⟨-, h⟩ | ⟨-, h⟩ := popFront_cases s n rd <;> rw [h]
  · exact answers_ok (.pop i _ _ hregs hbits (List.drop_sublist ..).length_le)
  · exact answers_error rfl

/-- What PDEC leaves in the buffer is no longer than what it found there (R358). -/
theorem paramScan_length_le {left : Nat} {x rest : BitString} {m o m' o' : Nat}
    (h : paramScan left x m o = some (m', o', rest)) : rest.length ≤ x.length := by
  induction left generalizing x m o with
  | zero => cases h
  | succ left ih =>
    simp only [paramScan] at h
    split at h
    · cases h
    · split at h
      · exact (ih h).trans (List.drop_sublist ..).length_le
      · cases h
        exact (List.drop_sublist ..).length_le

/-- Every command is `complete` of its effect or of an error that the block raises: the walk over the
commands that the claims about what they write rest on. -/
theorem exec_answers_effect (i : Instr) (s : State) :
    ∃ r, exec i s = complete i s r ∧ Answers (CommandEffect s i) r := by
  cases i
  case li | mov | gexp => exact ⟨.ok _, rfl, .register _ _ _ rfl⟩
  case cclr => exact ⟨.ok _, rfl, .cclr⟩
  case sclr => exact ⟨.ok _, rfl, .sclr⟩
  case bclr => exact ⟨.ok _, rfl, .bits _ _ rfl fun _ => Nat.zero_le _⟩
  all_goals refine ⟨_, rfl, ?_⟩
  case setb => exact (answers_require rfl).bind fun _ hrange => answers_ok (.setb _ hrange)
  case sett =>
    refine (answers_rangeOperand ..).bind ?_
    rintro _ ⟨rfl, hrange⟩
    exact answers_ok (.sett _ hrange)
  case gadd | gmul =>
    exact (answers_fieldOperand ..).bind fun _ _ => (answers_fieldOperand ..).bind fun _ _ =>
      answers_ok (.register _ _ _ rfl)
  case ginv | glog =>
    exact (answers_fieldOperand ..).bind fun _ _ => (answers_require rfl).bind fun _ _ =>
      answers_ok (.register _ _ _ rfl)
  case gpow => exact (answers_fieldOperand ..).bind fun _ _ => answers_ok (.register _ _ _ rfl)
  case cpush =>
    refine (answers_threshSet s).bind fun _ _ => (answers_fieldOperand ..).bind ?_
    rintro _ ⟨rfl, helem⟩
    exact (answers_require rfl).bind fun _ hfill => answers_ok (.cpush _ helem hfill)
  case crand =>
    refine (answers_threshSet s).bind fun _ _ => answers_ok ?_
    split
    · exact .crandFull
    next hfill =>
      split
      · exact .crandSecure (by omega)
      · exact .crandInsecure (by omega)
  case eval =>
    exact (answers_threshSet s).bind fun _ _ => (answers_fieldOperand ..).bind fun _ _ =>
      (answers_require rfl).bind fun _ _ => (answers_require rfl).bind fun _ _ =>
      answers_ok (.register _ _ _ rfl)
  case sadd =>
    refine (answers_fieldOperand ..).bind ?_
    rintro _ ⟨rfl, hx⟩
    refine (answers_fieldOperand ..).bind ?_
    rintro _ ⟨rfl, hy⟩
    refine (answers_require rfl).bind fun _ hx0 => ?_
    split
    · exact answers_ok (.saddOverwrite _ _ hy)
    next hnew =>
      split
      · exact answers_error rfl
      next hcap => exact answers_ok (.saddAppend _ _ hx hx0 hy (Bool.eq_false_of_not_eq_true hnew) hcap)
  case interp =>
    exact (answers_threshSet s).bind fun _ _ => (answers_fieldOperand ..).bind fun _ _ =>
      (answers_require rfl).bind fun _ _ => answers_ok (.register _ _ _ rfl)
  case bpushh | bpushw =>
    exact (answers_rangeOperand ..).bind fun _ _ => answers_pushBack_effect rfl ..
  case bpushe => exact (answers_fieldOperand ..).bind fun _ _ => answers_pushBack_effect rfl ..
  case penc =>
    exact (answers_rangeOperand ..).bind fun _ _ => (answers_rangeOperand ..).bind fun _ _ =>
      answers_pushBack_effect rfl ..
  case bpoph | bpopw => exact answers_popFront_effect rfl rfl ..
  case bpope =>
    exact (answers_require rfl).bind fun _ _ =>
      answers_ok (.pop _ _ _ rfl rfl (List.take_sublist ..).length_le)
  case blpad | balign =>
    exact (answers_groupWidth _).bind fun _ _ => answers_pushFront_effect rfl ..
  case btrim =>
    exact (answers_groupWidth _).bind fun _ _ =>
      answers_ok (.bits _ _ rfl (List.drop_sublist ..).length_le.trans)
  case bsent => exact answers_pushFront_effect rfl ..
  case bstrip =>
    exact (answers_require rfl).bind fun _ _ =>
      answers_ok (.bits _ _ rfl (List.drop_sublist ..).length_le.trans)
  case pdec =>
    split
    · exact answers_error rfl
    next hscan => exact answers_ok (.pop _ _ _ rfl rfl (paramScan_length_le hscan))

/-- A command's next state is its effect, or an error of a class that the block raises. -/
theorem exec_effect {i : Instr} {s t : State} (h : exec i s = .next t) :
    CommandEffect s i t ∨ ∃ e, raisedByBlock e = true ∧ t = s.raise e (encode i) := by
  obtain ⟨r, hexec, hr⟩ := exec_answers_effect i s
  rw [hexec] at h
  cases r with
  | ok u => obtain rfl := Host.Outcome.next.inj h; exact .inl hr
  | error e => exact .inr ⟨e, hr, (Host.Outcome.next.inj h).symm⟩

/-! ## Which effect changes which state -/

/-- Taking values of the entropy port writes the coefficients, the ready values and the wait. -/
theorem drawSecure_frame (s : State) (need : Nat) (got : List Nat) :
    s.drawSecure need got = { s with
      coef := (s.drawSecure need got).coef
      entReady := (s.drawSecure need got).entReady
      inProgress := (s.drawSecure need got).inProgress } := by
  obtain ⟨-, h⟩ | ⟨-, h⟩ := drawSecure_cases s need got <;> rw [h]

section

variable (s : State) (need : Nat) (got : List Nat)

@[simp] theorem drawSecure_regs : (s.drawSecure need got).regs = s.regs := by rw [drawSecure_frame]
@[simp] theorem drawSecure_b : (s.drawSecure need got).b = s.b := by rw [drawSecure_frame]
@[simp] theorem drawSecure_thresh : (s.drawSecure need got).thresh = s.thresh := by
  rw [drawSecure_frame]
@[simp] theorem drawSecure_samples : (s.drawSecure need got).samples = s.samples := by
  rw [drawSecure_frame]
@[simp] theorem drawSecure_bb : (s.drawSecure need got).bb = s.bb := by rw [drawSecure_frame]

end

section

variable {s t : State} {i : Instr} (h : CommandEffect s i t)

include h

theorem CommandEffect.commandFrame : CommandFrame s t := by
  cases h with
  | crandSecure => exact commandFrame_drawSecure ..
  | _ => exact ⟨rfl, rfl, rfl, rfl, rfl, rfl, rfl⟩

theorem CommandEffect.b_changed (hne : t.b ≠ s.b) : ∃ imm, i = .setb imm := by
  cases h with
  | setb imm => exact ⟨imm, rfl⟩
  | crandSecure => exact absurd (drawSecure_b ..) hne
  | _ => exact absurd rfl hne

theorem CommandEffect.thresh_changed (hne : t.thresh ≠ s.thresh) : ∃ rs1, i = .sett rs1 := by
  cases h with
  | sett rs1 => exact ⟨rs1, rfl⟩
  | crandSecure => exact absurd (drawSecure_thresh ..) hne
  | _ => exact absurd rfl hne

theorem CommandEffect.draws_changed (hne : t.insec ≠ s.insec ∨ t.inseccnt ≠ s.inseccnt ∨
    t.genDraws ≠ s.genDraws ∨ t.entReady ≠ s.entReady) : i = .crand := by
  cases h with
  | crandFull | crandSecure | crandInsecure => rfl
  | _ => simp at hne

theorem CommandEffect.coef_changed (hne : t.coef ≠ s.coef) :
    (∃ imm, i = .setb imm) ∨ i = .cclr ∨ (∃ rs1, i = .cpush rs1) ∨ i = .crand := by
  cases h with
  | setb imm => exact .inl ⟨imm, rfl⟩
  | cclr => exact .inr (.inl rfl)
  | cpush rs1 => exact .inr (.inr (.inl ⟨rs1, rfl⟩))
  | crandFull | crandSecure | crandInsecure => exact .inr (.inr (.inr rfl))
  | _ => exact absurd rfl hne

theorem CommandEffect.samples_changed (hne : t.samples ≠ s.samples) :
    (∃ imm, i = .setb imm) ∨ i = .sclr ∨ ∃ rs1 rs2, i = .sadd rs1 rs2 := by
  cases h with
  | setb imm => exact .inl ⟨imm, rfl⟩
  | sclr => exact .inr (.inl rfl)
  | saddOverwrite rs1 rs2 | saddAppend rs1 rs2 => exact .inr (.inr ⟨rs1, rs2, rfl⟩)
  | crandSecure => exact absurd (drawSecure_samples ..) hne
  | _ => exact absurd rfl hne

theorem CommandEffect.regs_changed (hne : t.regs ≠ s.regs) : writesRegs i = true := by
  cases h with
  | register _ _ _ hi => exact hi
  | pop _ _ _ hregs => exact hregs
  | crandSecure => exact absurd (drawSecure_regs ..) hne
  | _ => exact absurd rfl hne

theorem CommandEffect.bb_changed (hne : t.bb ≠ s.bb) : writesBits i = true := by
  cases h with
  | bits _ _ hi => exact hi
  | pop _ _ _ _ hbits => exact hbits
  | crandSecure => exact absurd (drawSecure_bb ..) hne
  | _ => exact absurd rfl hne

end

/-- The commands of `writesRegs`, in the order of R31's list. -/
theorem writesRegs_cases {i : Instr} (h : writesRegs i = true) :
    ∃ rd, (∃ imm, i = .li rd imm) ∨
      (∃ rs1, i = .mov rd rs1 ∨ i = .ginv rd rs1 ∨ i = .glog rd rs1 ∨ i = .gexp rd rs1 ∨
        i = .eval rd rs1 ∨ i = .interp rd rs1) ∨
      (∃ rs1 rs2, i = .gadd rd rs1 rs2 ∨ i = .gmul rd rs1 rs2 ∨ i = .gpow rd rs1 rs2) ∨
      i = .bpoph rd ∨ i = .bpope rd ∨ i = .bpopw rd ∨ i = .pdec rd := by
  cases i <;> simp [writesRegs] at h ⊢

/-- The commands of `writesBits`: the codec's. -/
theorem writesBits_cases {i : Instr} (h : writesBits i = true) :
    i = .bclr ∨ i = .bsent ∨ i = .bstrip ∨
      (∃ r, i = .bpushh r ∨ i = .bpoph r ∨ i = .bpushe r ∨ i = .bpope r ∨ i = .bpushw r ∨
        i = .bpopw r ∨ i = .pdec r) ∨
      (∃ imm, i = .blpad imm ∨ i = .balign imm ∨ i = .btrim imm) ∨ ∃ rs1 rs2, i = .penc rs1 rs2 := by
  cases i <;> simp [writesBits] at h ⊢

/-- Settles O25: every change is an effect's, and an error changes the latch alone. -/
theorem onlyTheirCommandsChangeState : Obligations.OnlyTheirCommandsChangeState := by
  intro i s t hexec
  obtain h | ⟨e, -, rfl⟩ := exec_effect hexec
  · have hframe := h.commandFrame
    exact ⟨h.b_changed, h.thresh_changed, h.draws_changed, h.coef_changed, h.samples_changed,
      fun hne => writesRegs_cases (h.regs_changed hne),
      fun hne => writesBits_cases (h.bb_changed hne), hframe.prim, hframe.entPresent, hframe.inbox,
      hframe.reply⟩
  · simp

end Sys2Proof.Machine
end

section
/-! SUPPORT. The invariant of spec/10_state.md R46, with the error latch (R38, R401) and the command in
progress (R45): what each effect of a command, each input and reset do to it. -/

namespace Sys2Proof.Machine

/-! ## What the invariant does not look at -/

theorem waitLegal_of_idle {s : State} (h : s.inProgress = none) : WaitLegal s := fun w hw => by
  rw [h] at hw
  cases hw

/-- R46 speaks of B, THRESH and the buffers alone. -/
theorem BuffersLegal.congr {s t : State} (h : BuffersLegal s) (hb : t.b = s.b)
    (hthresh : t.thresh = s.thresh) (hcoef : t.coef = s.coef) (hsamples : t.samples = s.samples)
    (hbb : t.bb = s.bb) : BuffersLegal t where
  width := hb ▸ h.width
  thresh := hthresh ▸ h.thresh
  coefElem := by rw [hb, hcoef]; exact h.coefElem
  sampleElem := by rw [hb, hsamples]; exact h.sampleElem
  sampleDistinct := hsamples ▸ h.sampleDistinct
  fillCap := by rw [State.fill, hcoef]; exact h.fillCap
  scountCap := by rw [State.scount, hsamples]; exact h.scountCap
  blCap := by rw [State.bl, hbb]; exact h.blCap

theorem LatchLegal.congr {s t : State} (h : LatchLegal s) (herr : t.err = s.err)
    (herrcode : t.errcode = s.errcode) : LatchLegal t where
  clear := by rw [herr, herrcode]; exact h.clear
  set := by rw [herr, herrcode]; exact h.set

/-- The invariant looks neither at the registers nor at the flags of insecure draws, ERRCMD and the
ports' levels and queues of accesses. -/
theorem Invariant.frame {s : State} (h : Invariant s) (regs : Regs) (insec : Bool)
    (errcmd inseccnt : Word) (entPresent : Bool) (inbox : List Input) (reply : Option BusReply) :
    Invariant { s with
      regs := regs, insec := insec, errcmd := errcmd, inseccnt := inseccnt
      entPresent := entPresent, inbox := inbox, reply := reply } where
  buffers := h.buffers.congr rfl rfl rfl rfl rfl
  latch := h.latch.congr rfl rfl
  wait := h.wait

/-- Nor at what the port has ready, while no CRAND waits for it. -/
theorem Invariant.setEntReady {s : State} (h : Invariant s) (hidle : s.inProgress = none)
    (l : List (BitVec 20)) : Invariant { s with entReady := l } where
  buffers := h.buffers.congr rfl rfl rfl rfl rfl
  latch := h.latch.congr rfl rfl
  wait := waitLegal_of_idle hidle

/-! ## Writing one item of R46 -/

section

variable {s : State} (h : BuffersLegal s)

include h

theorem BuffersLegal.setBits {bb : BitString} (hcap : bb.length ≤ 4096) :
    BuffersLegal { s with bb := bb } := { h with blCap := hcap }

theorem BuffersLegal.setThresh {thresh : Nat} (hrange : 2 ≤ thresh ∧ thresh ≤ 4095) :
    BuffersLegal { s with thresh := thresh } := { h with thresh := .inr hrange }

theorem BuffersLegal.setCoef {coef : List Nat} (helem : ∀ c ∈ coef, c < 2 ^ s.b)
    (hcap : coef.length ≤ 4095) : BuffersLegal { s with coef := coef } :=
  { h with coefElem := helem, fillCap := hcap }

theorem BuffersLegal.setSamples {samples : List (Nat × Nat)}
    (helem : ∀ p ∈ samples, 1 ≤ p.1 ∧ p.1 < 2 ^ s.b ∧ p.2 < 2 ^ s.b)
    (hdistinct : (samples.map Prod.fst).Nodup) (hcap : samples.length ≤ 4095) :
    BuffersLegal { s with samples := samples } :=
  { h with sampleElem := helem, sampleDistinct := hdistinct, scountCap := hcap }

theorem BuffersLegal.thresh_le : s.thresh ≤ 4095 := by
  have := h.thresh
  omega

/-- Field elements may be appended up to THRESH (R205, R207). -/
theorem BuffersLegal.appendCoef {vs : List Nat} (helem : ∀ v ∈ vs, v < 2 ^ s.b)
    (hcap : s.fill + vs.length ≤ s.thresh) : BuffersLegal { s with coef := s.coef ++ vs } := by
  refine h.setCoef (fun c hc => ?_) ?_
  · obtain hold | hnew := List.mem_append.mp hc
    · exact h.coefElem c hold
    · exact helem c hnew
  · rw [List.length_append]
    exact hcap.trans h.thresh_le

end

/-! ## The sample buffer (R255) -/

theorem map_fst_overwriteY (samples : List (Nat × Nat)) (x y : Nat) :
    (overwriteY samples x y).map Prod.fst = samples.map Prod.fst := by
  rw [overwriteY, List.map_map]
  refine List.map_congr_left fun p _ => ?_
  rw [Function.comp_apply]
  split
  next hp => exact hp.symm
  next => rfl

theorem BuffersLegal.overwriteY {s : State} (h : BuffersLegal s) (x : Nat) {y : Nat}
    (hy : y < 2 ^ s.b) : BuffersLegal { s with samples := overwriteY s.samples x y } := by
  refine h.setSamples (fun p hp => ?_) ?_ ?_
  · obtain ⟨q, hq, rfl⟩ := List.mem_map.mp hp
    obtain ⟨hpos, hx, hold⟩ := h.sampleElem q hq
    split
    next heq => subst heq; exact ⟨hpos, hx, hy⟩
    next => exact ⟨hpos, hx, hold⟩
  · rw [map_fst_overwriteY]
    exact h.sampleDistinct
  · rw [Machine.overwriteY, List.length_map]
    exact h.scountCap

theorem BuffersLegal.appendSample {s : State} (h : BuffersLegal s) {x y : Nat} (hx0 : x ≠ 0)
    (hx : x < 2 ^ s.b) (hy : y < 2 ^ s.b) (hnew : holdsX s.samples x = false)
    (hcap : s.scount ≠ 4095) : BuffersLegal { s with samples := s.samples ++ [(x, y)] } := by
  refine h.setSamples (fun p hp => ?_) ?_ ?_
  · obtain hold | hlast := List.mem_append.mp hp
    · exact h.sampleElem p hold
    · obtain rfl := List.mem_singleton.mp hlast
      exact ⟨Nat.pos_of_ne_zero hx0, hx, hy⟩
  · have hfresh : ∀ p ∈ s.samples, p.1 ≠ x := by simpa [holdsX] using hnew
    rw [List.map_append, List.nodup_append']
    refine ⟨h.sampleDistinct, List.nodup_singleton _, ?_⟩
    refine List.disjoint_singleton.mpr fun hmem => ?_
    obtain ⟨p, hp, heq⟩ := List.mem_map.mp hmem
    exact hfresh p hp heq
  · have hle := h.scountCap
    rw [State.scount] at hle hcap
    rw [List.length_append, List.length_singleton]
    omega

/-! ## Taking values of the entropy port (R44, R207) -/

section

variable {s : State} {need : Nat} {got : List Nat} (hgot : ∀ v ∈ got, v < 2 ^ s.b)
  (hsum : s.fill + got.length + need = s.thresh)

include hgot

/-- The values of a CRAND and what the port has ready are field elements. -/
theorem mem_got_append_lt {l : List (BitVec 20)} :
    ∀ v ∈ got ++ l.map (drawValue s.b), v < 2 ^ s.b := by
  intro v hv
  obtain hold | hnew := List.mem_append.mp hv
  · exact hgot v hold
  · obtain ⟨data, -, rfl⟩ := List.mem_map.mp hnew
    exact drawValue_lt ..

include hsum

theorem BuffersLegal.drawSecure (h : BuffersLegal s) : BuffersLegal (s.drawSecure need got) := by
  obtain ⟨hle, heq⟩ | ⟨-, heq⟩ := drawSecure_cases s need got <;> rw [heq]
  · have hfilled : BuffersLegal
        { s with coef := s.coef ++ (got ++ (s.entReady.take need).map (drawValue s.b)) } :=
      h.appendCoef (mem_got_append_lt hgot) (by simp; omega)
    exact hfilled.congr rfl rfl rfl rfl rfl
  · exact h.congr rfl rfl rfl rfl rfl

theorem waitLegal_drawSecure (herr : s.err = false) : WaitLegal (s.drawSecure need got) := by
  obtain ⟨-, heq⟩ | ⟨hlt, heq⟩ := drawSecure_cases s need got <;> rw [heq]
  · exact waitLegal_of_idle rfl
  · rintro w ⟨⟩
    refine ⟨herr, Nat.sub_pos_of_lt hlt, ?_, mem_got_append_lt hgot, rfl⟩
    simp only [List.length_append, List.length_map]
    show s.fill + _ + _ = s.thresh
    omega

end

/-! ## Commands -/

theorem CommandEffect.keeps_buffersLegal {i : Instr} {s t : State} (h : CommandEffect s i t)
    (hs : BuffersLegal s) : BuffersLegal t := by
  cases h with
  | register => exact hs.congr rfl rfl rfl rfl rfl
  | bits _ _ _ hcap => exact hs.setBits (hcap hs.blCap)
  | pop _ regs bb _ _ hlen =>
    exact (hs.setBits (hlen.trans hs.blCap)).congr rfl rfl rfl rfl rfl
  | setb imm hrange =>
    exact ⟨hrange, hs.thresh, by simp, by simp, List.nodup_nil, Nat.zero_le _, Nat.zero_le _, hs.blCap⟩
  | sett rs1 hrange => exact hs.setThresh hrange
  | cclr => exact hs.setCoef (by simp) (Nat.zero_le _)
  | cpush rs1 helem hfill => exact hs.appendCoef (by simpa [State.holdsElem] using helem) hfill
  | crandFull => exact hs
  | crandSecure hfill => exact hs.drawSecure (by simp) (Nat.add_sub_cancel' hfill.le)
  | crandInsecure hfill =>
    have hcap : s.fill + (s.defaultDraws (s.thresh - s.fill)).length ≤ s.thresh := by
      rw [length_defaultDraws, Nat.add_sub_cancel' hfill.le]
    exact (hs.appendCoef (defaultDraws_lt s _) hcap).congr rfl rfl rfl rfl rfl
  | sclr => exact hs.setSamples (by simp) List.nodup_nil (Nat.zero_le _)
  | saddOverwrite rs1 rs2 hy => exact hs.overwriteY _ hy
  | saddAppend rs1 rs2 hx hx0 hy hnew hcap => exact hs.appendSample hx0 hx hy hnew hcap

/-- Only a CRAND that takes the port's values leaves a command in progress (R45). -/
theorem CommandEffect.waitLegal {i : Instr} {s t : State} (h : CommandEffect s i t)
    (hidle : s.inProgress = none) (herr : s.err = false) : WaitLegal t := by
  cases h with
  | crandSecure hfill => exact waitLegal_drawSecure (by simp) (Nat.add_sub_cancel' hfill.le) herr
  | _ => exact waitLegal_of_idle hidle

/-- Taking an error keeps the invariant, whatever was in progress (R410). -/
theorem Invariant.raise {s : State} (h : Invariant s) {e : ErrorClass} (he : raisedByBlock e = true)
    (word : Word) : Invariant (s.raise e word) where
  buffers := h.buffers.congr rfl rfl rfl rfl rfl
  latch := ⟨fun herr => Bool.noConfusion herr, fun _ => ⟨e, he, rfl⟩⟩
  wait := waitLegal_of_idle rfl

theorem Invariant.exec {i : Instr} {s t : State} (h : Invariant s) (hidle : s.inProgress = none)
    (herr : s.err = false) (hexec : exec i s = .next t) : Invariant t := by
  obtain heffect | ⟨e, he, rfl⟩ := exec_effect hexec
  · have hframe := heffect.commandFrame
    exact ⟨heffect.keeps_buffersLegal h.buffers, h.latch.congr hframe.err hframe.errcode,
      heffect.waitLegal hidle herr⟩
  · exact h.raise he _

/-! ## Reset (R452) -/

/-- A reset block satisfies the invariant, whatever state it was in (R450). -/
theorem invariant_resetBlock (s : State) : Invariant s.resetBlock where
  buffers :=
    { width := by simp
      thresh := .inl rfl
      coefElem := by simp
      sampleElem := by simp
      sampleDistinct := List.nodup_nil
      fillCap := Nat.zero_le _
      scountCap := Nat.zero_le _
      blCap := Nat.zero_le _ }
  latch := ⟨fun _ => rfl, fun herr => Bool.noConfusion herr⟩
  wait := waitLegal_of_idle rfl

/-- A block starts where a reset would bring it. -/
theorem invariant_resetWith (table : PrimTable) : Invariant (State.resetWith table) :=
  invariant_resetBlock (State.resetWith table)

/-- Settles O21, for the default table. -/
theorem invariantHoldsAtReset : Obligations.InvariantHoldsAtReset :=
  invariant_resetWith defaultPrimTable

/-! ## Inputs -/

theorem Invariant.clearErr {s : State} (h : Invariant s) : Invariant s.clearErr where
  buffers := h.buffers.congr rfl rfl rfl rfl rfl
  latch := ⟨fun _ => rfl, fun herr => Bool.noConfusion herr⟩
  wait := fun w hw =>
    have ⟨_, hrest⟩ := h.wait w hw
    ⟨rfl, hrest⟩

theorem Invariant.writeStatus {s : State} (h : Invariant s) (v : Word) :
    Invariant (s.writeStatus v) := by
  unfold State.writeStatus
  split <;> split
  exacts [h.clearErr.frame .., h.clearErr, h.frame .., h]

theorem Invariant.writeCtrl {s : State} (h : Invariant s) (v : Word) : Invariant (s.writeCtrl v) := by
  unfold State.writeCtrl
  split
  · exact invariant_resetBlock s
  · exact h

theorem Invariant.writeCmd {s t : State} {word : Word} (h : Invariant s) (hidle : s.inProgress = none)
    (hcmd : writeCmd s word = .next t) : Invariant t := by
  obtain ⟨-, hw⟩ | ⟨herr, i, -, hw⟩ | ⟨-, -, hw⟩ := writeCmd_cases s word <;> rw [hw] at hcmd
  · obtain rfl := Host.Outcome.next.inj hcmd
    exact h
  · exact h.exec hidle herr hcmd
  · obtain rfl := Host.Outcome.next.inj hcmd
    exact h.raise rfl word

/-- A write of the window keeps the invariant; a command may come only while BUSY = 0 (R84). -/
theorem Invariant.windowWrite {s t : State} {offset : BitVec 8} {v : Word} (h : Invariant s)
    (hidle : offset = offCmd → s.inProgress = none) (hwrite : windowWrite s offset v = .next t) :
    Invariant t := by
  have heffect := windowWrite_effect s offset v
  rw [hwrite] at heffect
  cases heffect with
  | ctrl => exact h.writeCtrl v
  | status => exact h.writeStatus v
  | command hoffset hcmd => exact h.writeCmd (hidle hoffset) hcmd
  | inseccnt => exact h.frame ..
  | register i => exact h.frame ..
  | ignored => exact h

/-- A delivered value stays ready, or goes to the CRAND that waits for it (R425). -/
theorem Invariant.receiveEntropy {s : State} (h : Invariant s) (data : BitVec 20) :
    Invariant (s.receiveEntropy data) := by
  cases hprogress : s.inProgress with
  | none =>
    rw [receiveEntropy_idle hprogress]
    exact h.setEntReady hprogress _
  | some w =>
    obtain ⟨herr, -, hsum, hgot, -⟩ := h.wait w hprogress
    rw [receiveEntropy_waiting hprogress]
    have hbuffers : BuffersLegal { s with entReady := s.entReady ++ [data] } :=
      h.buffers.congr rfl rfl rfl rfl rfl
    have hframe := commandFrame_drawSecure { s with entReady := s.entReady ++ [data] } w.need w.got
    exact ⟨hbuffers.drawSecure hgot hsum, h.latch.congr hframe.err hframe.errcode,
      waitLegal_drawSecure hgot hsum herr⟩

/-- Every input that may be performed keeps the invariant (R84). -/
theorem Invariant.perform {i : Input} {s t : State} (h : Invariant s)
    (hheld : s.busy = true → heldWhileBusy i = false) (hperform : perform i s = .next t) :
    Invariant t := by
  cases i with
  | read offset bytes =>
    simp only [Machine.perform] at hperform
    split at hperform <;> (obtain rfl := Host.Outcome.next.inj hperform; exact h.frame ..)
  | write offset bytes v =>
    simp only [Machine.perform] at hperform
    split at hperform
    · refine (h.frame _ _ _ _ _ _ (some .written)).windowWrite (fun hoffset => ?_) hperform
      refine inProgress_of_not_busy (Bool.eq_false_iff.mpr fun hbusy => ?_)
      simpa [heldWhileBusy, hoffset, offCmd, offCtrl] using hheld hbusy
    · obtain rfl := Host.Outcome.next.inj hperform
      exact h.frame ..
  | rst => obtain rfl := Host.Outcome.next.inj hperform; exact invariant_resetBlock s
  | entLevel present => obtain rfl := Host.Outcome.next.inj hperform; exact h.frame ..
  | entReply data => obtain rfl := Host.Outcome.next.inj hperform; exact h.receiveEntropy data

/-! ## Steps -/

/-- The input taken while BUSY = 1 is one that is not held (R84). -/
theorem takeUnheld_some {l rest : List Input} {i : Input} (h : takeUnheld l = some (i, rest)) :
    heldWhileBusy i = false := by
  induction l generalizing rest with
  | nil => cases h
  | cons j l ih =>
    rw [takeUnheld] at h
    split at h
    · obtain ⟨⟨i', rest'⟩, htake, heq⟩ := Option.map_eq_some_iff.mp h
      cases heq
      exact ih htake
    next hj =>
      cases h
      exact Bool.eq_false_of_not_eq_true hj

theorem nextInput_unheld {s : State} {i : Input} {rest : List Input}
    (h : nextInput s = some (i, rest)) (hbusy : s.busy = true) : heldWhileBusy i = false := by
  rw [nextInput, if_pos hbusy] at h
  exact takeUnheld_some h

/-- A step performs an input that may be performed, or leaves the state as it is. -/
theorem Invariant.step {s t : State} (h : Invariant s) (hstep : step s = .next t) : Invariant t := by
  obtain ⟨i, rest, hnext, hperform⟩ | ⟨-, -, rfl⟩ := step_cases hstep
  · have hrest : Invariant { s with inbox := rest } := h.frame ..
    exact hrest.perform (fun hbusy => nextInput_unheld hnext hbusy) hperform
  · exact h

/-- Settles O20: the invariant is kept by every input that the step may perform. -/
theorem everyStepKeepsTheInvariant : Obligations.EveryStepKeepsTheInvariant :=
  fun _ _ h hstep => h.step hstep

/-- The invariant holds along every run, whatever inputs are issued. -/
theorem Reachable.invariant {s : State} (h : Reachable s) : Invariant s := by
  induction h with
  | reset table => exact invariant_resetWith table
  | inputs s l _ ih => exact ih.frame ..
  | portReady s l _ hidle ih =>
    exact ih.setEntReady (inProgress_of_not_busy hidle) l
  | stepped s t _ hstep ih => exact ih.step hstep

/-- Settles O22: R46 is a part of the invariant. -/
theorem reachableStatesSatisfyTheBufferInvariant :
    Obligations.ReachableStatesSatisfyTheBufferInvariant :=
  fun _ h => h.invariant.buffers

end Sys2Proof.Machine
end

section
/-! SUPPORT. What the window shows of the buffers (spec/10_state.md R35 to R37, R427): their counts. -/

namespace Sys2Proof.Machine

/-- Settles O26: the window reads FILL, SCOUNT and BL, and these are the buffers' lengths. -/
theorem windowHidesBufferContents : Obligations.WindowHidesBufferContents := by
  intro s coef samples bb off hcoef hsamples hbb
  have hfill : State.fill { s with coef := coef, samples := samples, bb := bb } = s.fill := hcoef
  have hscount : State.scount { s with coef := coef, samples := samples, bb := bb } = s.scount :=
    hsamples
  have hbl : State.bl { s with coef := coef, samples := samples, bb := bb } = s.bl := hbb
  unfold windowRead
  rw [hfill, hscount, hbl]
  rfl

end Sys2Proof.Machine
end

section
/-! SUPPORT. PDEC (spec/45_mnemonic.md R356, R358): one parameter word is a continuation bit, a group of
m and a group of o; the loop reads words up to the first whose continuation bit is 0. -/

namespace Sys2Proof.Machine

/-! ## The groups of a parameter word -/

/-- The a + n bits of v are the a bits above the last n, then the last n (R13). -/
theorem bitsOf_add (a n v : Nat) : bitsOf (a + n) v = bitsOf a (v / 2 ^ n) ++ bitsOf n v := by
  induction a with
  | zero => rw [Nat.zero_add]; rfl
  | succ a ih =>
    rw [Nat.add_right_comm, bitsOf, ih, bitsOf, Nat.testBit_div_two_pow, List.cons_append]

/-- A word is its continuation bit, its group of m and its group of o (R356). -/
theorem bitsOf_word (w : Nat) :
    bitsOf 11 w = w.testBit 10 :: (bitsOf 5 (w / 32) ++ bitsOf 5 w) := by
  rw [bitsOf, bitsOf_add 5 5 w]
  rfl

/-- The continuation bit is set in the words of 1024 and above (R356). -/
theorem testBit_continuation {w : Nat} (h : w < 2048) : w.testBit 10 = decide (1024 ≤ w) := by
  rw [Nat.testBit_eq_decide_div_mod_eq, decide_eq_decide]
  omega

/-- One turn of PDEC's loop on a buffer that starts with the word w (R358). -/
theorem paramScan_word {w : Nat} (h : w < 2048) (left : Nat) (rest : BitString) (m o : Nat) :
    paramScan (left + 1) (bitsOf 11 w ++ rest) m o =
      if 1024 ≤ w then paramScan left rest (m * 32 + w / 32 % 32) (o * 32 + w % 32)
      else some (m * 32 + w / 32 % 32, o * 32 + w % 32, rest) := by
  have hlen : ¬ (bitsOf 11 w ++ rest).length < Config.wordBits := by simp [Config.wordBits]
  have htake : (bitsOf 11 w ++ rest).take Config.wordBits = bitsOf 11 w :=
    List.take_left' (length_bitsOf 11 w)
  have hdrop : (bitsOf 11 w ++ rest).drop Config.wordBits = rest :=
    List.drop_left' (length_bitsOf 11 w)
  have hm : bitsVal (((bitsOf 11 w).drop 1).take Config.groupBits) = w / 32 % 32 := by
    rw [bitsOf_word, List.drop_succ_cons, List.drop_zero, Config.groupBits,
      List.take_left' (length_bitsOf 5 _)]
    exact bitsVal_bitsOf_mod 5 _
  have ho : bitsVal (((bitsOf 11 w).drop 6).take Config.groupBits) = w % 32 := by
    rw [bitsOf_word, List.drop_succ_cons, List.drop_left' (length_bitsOf 5 _),
      Config.groupBits, List.take_of_length_le (length_bitsOf 5 w).le]
    exact bitsVal_bitsOf_mod 5 w
  have hcont : (bitsOf 11 w).headD false = decide (1024 ≤ w) := testBit_continuation h
  simp only [paramScan, if_neg hlen, htake, hdrop, hm, ho, hcont, decide_eq_true_eq]

/-! ## A parameter block -/

/-- PDEC's loop on a closed block: it reads the words to the last, and leaves what stands after it. -/
theorem paramScan_block (words : List Nat) {last : Nat} (rest : BitString) {left : Nat} (m o : Nat)
    (hleft : words.length < left) (hwords : ∀ w ∈ words, 1024 ≤ w ∧ w < 2048) (hlast : last < 1024) :
    paramScan left ((words ++ [last]).flatMap (bitsOf 11) ++ rest) m o =
      some ((words ++ [last]).foldl (fun m w => m * 32 + w / 32 % 32) m,
        (words ++ [last]).foldl (fun o w => o * 32 + w % 32) o, rest) := by
  induction words generalizing left m o with
  | nil =>
    obtain ⟨left, rfl⟩ := Nat.exists_eq_succ_of_ne_zero (Nat.ne_zero_of_lt hleft)
    simpa [hlast.not_ge] using paramScan_word (by omega : last < 2048) left rest m o
  | cons w words ih =>
    obtain ⟨left, rfl⟩ := Nat.exists_eq_succ_of_ne_zero (Nat.ne_zero_of_lt hleft)
    obtain ⟨hcont, hw⟩ := hwords w (by simp)
    rw [List.cons_append, List.flatMap_cons, List.append_assoc, paramScan_word hw, if_pos hcont,
      ih _ _ (Nat.lt_of_succ_lt_succ hleft) fun v hv => hwords v (by simp [hv])]
    rfl

/-- k groups of 5 bits make a number below 32 ^ k. -/
theorem foldl_groups_lt {group : Nat → Nat} (hgroup : ∀ w, group w < 32) (words : List Nat) (v k : Nat)
    (hv : v < 32 ^ k) :
    words.foldl (fun v w => v * 32 + group w) v < 32 ^ (k + words.length) := by
  induction words generalizing v k with
  | nil => exact hv
  | cons w words ih =>
    have hnext : v * 32 + group w < 32 ^ (k + 1) := by
      have := hgroup w
      rw [pow_succ]
      omega
    rw [List.foldl_cons, List.length_cons, Nat.add_comm words.length, ← Nat.add_assoc]
    exact ih _ (k + 1) hnext

theorem exec_pdec {s : State} {m o : Nat} {rest : BitString}
    (h : paramScan 3 s.bb 0 0 = some (m, o, rest)) (rd : Reg) :
    exec (.pdec rd) s = .next { (s.setRegNat rd m).setRegNat (nextReg rd) o with bb := rest } := by
  simp only [exec, execPdec, Config.paramMaxWords, h, complete_ok]

/-- Two registers are written, the second after the first (R32). -/
theorem setRegNat_setRegNat_onlyBitsAndRegsChange (s : State) (i j : Reg) (m o : Nat)
    (bb : BitString) :
    OnlyBitsAndRegsChange s { (s.setRegNat i m).setRegNat j o with bb := bb } [i, j] := by
  refine ⟨fun r hr => ?_, rfl⟩
  obtain ⟨hi, hj⟩ : r ≠ i ∧ r ≠ j := by simpa using hr
  calc ((s.setRegNat i m).setRegNat j o).reg r
      = (s.setRegNat i m).reg r := reg_setReg_other _ _ hj
    _ = s.reg r := reg_setReg_other s _ hi

/-- Settles O58: the loop reads the block, and three groups fit a register. -/
theorem pdecReadsTheParameterWords : Obligations.PdecReadsTheParameterWords := by
  intro s rd words last rest hlen hwords hlast hbb
  have hscan := paramScan_block words rest 0 0 (by omega : words.length < 3) hwords hlast
  rw [← hbb] at hscan
  have hfits {group : Nat → Nat} (hgroup : ∀ w, group w < 32) :
      (words ++ [last]).foldl (fun v w => v * 32 + group w) 0 < 2 ^ 32 :=
    calc _ < 32 ^ (0 + (words ++ [last]).length) := foldl_groups_lt hgroup _ 0 0 (by decide)
      _ ≤ 32 ^ 3 := Nat.pow_le_pow_right (by decide) (by simp; omega)
      _ < 2 ^ 32 := by decide
  refine ⟨_, exec_pdec hscan rd, ?m, ?o, rfl, setRegNat_setRegNat_onlyBitsAndRegsChange ..⟩
  case m =>
    calc _ = (s.setRegNat rd _).regNat rd :=
          congrArg BitVec.toNat (reg_setReg_other _ _ (nextReg_ne rd).symm)
      _ = _ := regNat_setRegNat_same s rd (hfits fun w => Nat.mod_lt _ (by decide))
  case o => exact regNat_setRegNat_same _ (nextReg rd) (hfits fun w => Nat.mod_lt _ (by decide))

end Sys2Proof.Machine
end

section
/-! SUPPORT. Host accesses to the register window (spec/20_memory.md): which input a step performs (R84,
R89, R417), what the window returns for a read and does with a write (R71 to R83), and the bus error
(R82, R415). -/

namespace Sys2Proof.Machine

/-! ## Which input a step performs (R84, R89, R417) -/

theorem step_of_nextInput {s : State} {i : Input} {rest : List Input}
    (h : nextInput s = some (i, rest)) : step s = perform i { s with inbox := rest } := by
  simp only [step, stepBlock, h]

/-- An idle block performs the oldest input, whatever it is. -/
theorem step_of_idle {s : State} {i : Input} {rest : List Input} (hidle : s.busy = false)
    (hinbox : s.inbox = i :: rest) : step s = perform i { s with inbox := rest } :=
  step_of_nextInput (by simp [nextInput, hidle, hinbox])

/-- A busy block passes over the inputs that it holds. -/
theorem step_of_busy {s : State} {before rest : List Input} {i : Input} (hbusy : s.busy = true)
    (hinbox : s.inbox = before ++ i :: rest) (hbefore : ∀ j ∈ before, heldWhileBusy j = true)
    (hi : heldWhileBusy i = false) : step s = perform i { s with inbox := before ++ rest } :=
  step_of_nextInput (by rw [nextInput, if_pos hbusy, hinbox, takeUnheld_append before i rest hbefore hi])

theorem step_of_idle_empty {s : State} (hidle : s.busy = false) (hinbox : s.inbox = []) :
    step s = .next s := by
  simp [step, stepBlock, nextInput, hidle, hinbox]

theorem read_unheld_iff (off : BitVec 8) (n : Nat) :
    heldWhileBusy (.read off n) = false ↔ n = 4 ∧ (off = 0x00#8 ∨ off = 0x08#8) := by
  simp [heldWhileBusy, offId, offStatus, or_iff_not_imp_left]

theorem write_unheld_iff (off : BitVec 8) (n : Nat) (v : Word) :
    heldWhileBusy (.write off n v) = false ↔ n = 4 ∧ off = 0x04#8 := by
  simp [heldWhileBusy, offCtrl]

/-- Settles O15: a step performs what `nextInput` takes, the first input that is not held or the oldest. -/
theorem inputsArePerformedInOrder : Obligations.InputsArePerformedInOrder :=
  ⟨read_unheld_iff, write_unheld_iff,
    fun _ _ _ _ hbusy hinbox hbefore hi => step_of_busy hbusy hinbox hbefore hi,
    fun _ _ _ hidle hinbox => step_of_idle hidle hinbox,
    fun _ hidle hinbox => step_of_idle_empty hidle hinbox⟩

/-! ## Permitted accesses and the bus error (R82, R415) -/

theorem permitted_iff {off : BitVec 8} {bytes : Nat} :
    permitted off bytes = true ↔ bytes = 4 ∧ off.toNat % 4 = 0 := by
  simp [permitted]

theorem not_permitted {off : BitVec 8} {bytes : Nat} (h : bytes ≠ 4 ∨ off.toNat % 4 ≠ 0) :
    ¬ permitted off bytes = true := by
  rwa [permitted_iff, not_and_or]

section

variable {s : State} {off : BitVec 8} {rest : List Input} (hidle : s.busy = false)

include hidle

theorem step_read (hoff : off.toNat % 4 = 0) (hinbox : s.inbox = .read off 4 :: rest) :
    step s = .next { s with inbox := rest, reply := some (.data (windowRead s off)) } := by
  rw [step_of_idle hidle hinbox, perform, if_pos (permitted_iff.mpr ⟨rfl, hoff⟩)]
  rfl

theorem step_write {v : Word} (hoff : off.toNat % 4 = 0) (hinbox : s.inbox = .write off 4 v :: rest) :
    step s = windowWrite { s with inbox := rest, reply := some .written } off v := by
  rw [step_of_idle hidle hinbox, perform, if_pos (permitted_iff.mpr ⟨rfl, hoff⟩)]

end

/-- Settles O12: `perform` asks `permitted` before it looks at the window. -/
theorem unpermittedAccessesGetABusError : Obligations.UnpermittedAccessesGetABusError := by
  intro s off bytes v rest hidle hbad hinbox
  obtain hread | hwrite := hinbox
  · rw [step_of_idle hidle hread, perform, if_neg (not_permitted hbad)]
  · rw [step_of_idle hidle hwrite, perform, if_neg (not_permitted hbad)]

/-! ## Writes (R73, R76, R79 to R83) -/

theorem writeCmd_of_decode {s : State} {w : Word} {i : Instr} (herr : s.err = false)
    (hdecode : decode w = .ok i) : writeCmd s w = exec i s := by
  simp [writeCmd, herr, hdecode]

/-- Settles O5: the write reaches CMD, which executes the word it decodes. -/
theorem stepRunsTheDecodedCommand : Obligations.StepRunsTheDecodedCommand := by
  intro s w i rest hidle herr hinbox hdecode
  calc step s = writeCmd { s with inbox := rest, reply := some .written } w :=
        step_write hidle (by decide) hinbox
    _ = exec i { s with inbox := rest, reply := some .written } := writeCmd_of_decode herr hdecode

theorem windowWrite_offReg (s : State) (r : Reg) (v : Word) :
    windowWrite s (offReg r) v = .next (s.setReg r v) := by
  cases r <;> rfl

/-- Settles O8: a permitted write is performed at its offset. -/
theorem permittedWritesReachTheWindow : Obligations.PermittedWritesReachTheWindow :=
  ⟨fun _ _ _ _ hidle hoff hinbox => step_write hidle hoff hinbox,
    fun s v => ⟨rfl, fun r => windowWrite_offReg s r v, rfl, rfl⟩⟩

/-- The registers R0 to R7 lie at 0x40 to 0x5C (R80). -/
theorem toNat_offReg (r : Reg) : 0x40 ≤ (offReg r).toNat ∧ (offReg r).toNat ≤ 0x5C := by
  cases r <;> decide

/-- A write to an offset of no register that the host can write does nothing (R72, R76, R81). -/
theorem windowWrite_ignored {s : State} {off : BitVec 8} {v : Word} (hctrl : off ≠ offCtrl)
    (hstatus : off ≠ offStatus) (hcmd : off ≠ offCmd) (hinseccnt : off ≠ offInseccnt)
    (hreg : ∀ r, off ≠ offReg r) : windowWrite s off v = .next s := by
  have heffect := windowWrite_effect s off v
  generalize windowWrite s off v = o at heffect ⊢
  cases heffect with
  | ctrl hoff => exact absurd hoff hctrl
  | status hoff => exact absurd hoff hstatus
  | command hoff => exact absurd hoff hcmd
  | inseccnt hoff => exact absurd hoff hinseccnt
  | register r hoff => exact absurd hoff (hreg r)
  | ignored => rfl

/-! ## Reads (R71, R72, R74, R75, R77 to R81, R85) -/

theorem windowRead_offReg (s : State) (r : Reg) : windowRead s (offReg r) = s.reg r := by
  cases r <;> rfl

/-- The offsets between INSECCNT and R0 and those above R7 read 0 (R81). -/
theorem windowRead_reserved {s : State} {off : BitVec 8}
    (h : (0x28 < off.toNat ∧ off.toNat < 0x40) ∨ 0x5C < off.toNat) : windowRead s off = 0#32 := by
  unfold windowRead
  -- the range excludes every arm but the last
  split <;> try omega
  rfl

/-- A count that fits the width of its read register is read as it is (R75, R77, R78). -/
theorem toNat_countField {k n : Nat} (hk : k ≤ 32) (hn : n < 2 ^ k) :
    ((BitVec.ofNat k n).setWidth 32).toNat = n := by
  rw [BitVec.toNat_setWidth_of_le hk, BitVec.toNat_ofNat, Nat.mod_eq_of_lt hn]

/-- In a state that satisfies R46 the five count registers read the counts. -/
theorem windowRead_counts {s : State} (h : BuffersLegal s) :
    (windowRead s 0x14#8).toNat = s.b ∧ (windowRead s 0x18#8).toNat = s.thresh ∧
      (windowRead s 0x1C#8).toNat = s.coef.length ∧ (windowRead s 0x20#8).toNat = s.samples.length ∧
      (windowRead s 0x24#8).toNat = s.bb.length := by
  refine ⟨toNat_countField (by decide) ?b, toNat_countField (by decide) ?thresh,
    toNat_countField (by decide) ?fill, toNat_countField (by decide) ?scount,
    toNat_countField (by decide) ?bl⟩
  case b => exact h.width.2.trans_lt (by decide)
  case thresh => exact h.thresh_le.trans_lt (by decide)
  case fill => exact h.fillCap.trans_lt (by decide)
  case scount => exact h.scountCap.trans_lt (by decide)
  case bl => exact h.blCap.trans_lt (by decide)

/-- Settles O9: a read answers `windowRead`, which has an arm for each register. -/
theorem windowReads : Obligations.WindowReads := fun s =>
  ⟨fun _ _ hidle hoff hinbox => step_read hidle hoff hinbox, rfl, rfl, rfl, rfl, rfl, rfl,
    windowRead_offReg s, windowRead_counts⟩

/-- Settles O10: no offset of the lists is one of a register that the host can write, and the reserved
ones lie outside the two ranges of registers. -/
theorem readOnlyAndReservedOffsets : Obligations.ReadOnlyAndReservedOffsets := by
  intro s off v _
  refine ⟨rfl, fun hreserved => windowRead_reserved (by omega), fun hoff => ?_⟩
  refine windowWrite_ignored ?ctrl ?status ?cmd ?inseccnt fun r => ?reg <;> rintro rfl
  case reg =>
    have := toNat_offReg r
    omega
  all_goals exact absurd hoff (by decide)

/-! ## STATUS (R38, R74) -/

/-- Each bit of STATUS is found in the concatenation by its position (R38). -/
theorem getLsbD_statusWord (s : State) (k : Nat) :
    s.statusWord.getLsbD k =
      (if k = 0 then s.busy else if k = 1 then s.err
       else if 4 ≤ k ∧ k ≤ 7 then s.errcode.getLsbD (k - 4)
       else if k = 8 then s.insec else if k = 9 then s.entPresent else false) := by
  simp only [State.statusWord, BitVec.getLsbD_append, BitVec.getLsbD_ofBool, BitVec.getLsbD_zero]
  grind

theorem writeStatus_eq (s : State) (v : Word) : s.writeStatus v = { s with
    err := if v.getLsbD 1 then false else s.err
    errcode := if v.getLsbD 1 then 0#4 else s.errcode
    insec := if v.getLsbD 8 then false else s.insec } := by
  unfold State.writeStatus
  cases v.getLsbD 1 <;> cases v.getLsbD 8 <;> rfl

/-- Settles O11: the word read is `statusWord`, the write is `writeStatus`. -/
theorem statusReadsAndWrites : Obligations.StatusReadsAndWrites := fun s =>
  ⟨fun k _ => getLsbD_statusWord s k, fun v => congrArg Host.Outcome.next (writeStatus_eq s v)⟩

end Sys2Proof.Machine
end

section
/-! SUPPORT. The encoding of commands (spec/30_encoding.md): the decoder and the encoder are inverse to
each other (R101, R102, R107), the words that decode are those of the opcode map (R105), and every other
word is illegal (R106). -/

namespace Sys2Proof

open Laws Machine

/-! ## The fields of a word (R101, R102) -/

theorem packWord_eq_iff {w : Word} {op : BitVec 8} {d a c : BitVec 3} {n : BitVec 15} :
    packWord op d a c n = w ↔
      fieldOp w = op ∧ fieldRd w = d ∧ fieldRs1 w = a ∧ fieldRs2 w = c ∧ fieldImm w = n := by
  constructor
  · rintro rfl
    simp
  · rintro ⟨rfl, rfl, rfl, rfl, rfl⟩
    exact packWord_fields w

theorem unusedZero_eq_ok {op : BitVec 8} {zero : Bool} {i j : Instr} :
    unusedZero op zero i = .ok j ↔ zero = true ∧ i = j := by
  cases zero <;> simp [unusedZero]

/-- A legal immediate survives the 15 bits of IMM (R103). -/
theorem toNat_ofNat_of_immFits {imm : Nat} (h : immFits imm = true) :
    (BitVec.ofNat 15 imm).toNat = imm := Nat.mod_eq_of_lt (of_decide_eq_true h)

@[simp] theorem immFits_toNat (n : BitVec 15) : immFits n.toNat = true := decide_eq_true n.isLt

/-! ## The decoder and the encoder -/

/-- Settles O1: each field of the encoding is read back as the operand it was packed from; for an
immediate this takes the well-formedness. -/
theorem decodeOfEncodeIsTheCommand : Obligations.DecodeOfEncodeIsTheCommand := by
  intro i h
  cases i with
  | li _ _ | setb _ | blpad _ | balign _ | btrim _ =>
    simp [decode, encode, unusedZero_eq_ok, toNat_ofNat_of_immFits h]
  | _ => simp [decode, encode, unusedZero_eq_ok]

/-- Settles O2: each arm of the decoder fixes the opcode, checks that the unused fields are zero and
keeps the others as operands, so all five fields of the word are those of the encoding. -/
theorem encodeOfDecodeIsTheWord : Obligations.EncodeOfDecodeIsTheWord := by
  intro w i h
  simp only [decode] at h
  split at h
  -- the last arm is that of the unassigned opcodes
  case h_32 => nomatch h
  all_goals
    next hop =>
    obtain ⟨hzero, rfl⟩ := unusedZero_eq_ok.mp h
    refine ⟨by simp [Instr.wellFormed], packWord_eq_iff.mpr ⟨BitVec.eq_of_toNat_eq hop, ?_⟩⟩
    simpa [and_assoc] using hzero

/-- Settles O4: the words are the encodings of the commands. -/
theorem sampleWordsDecode : Obligations.SampleWordsDecode :=
  ⟨decodeOfEncodeIsTheCommand (.li .r3 42) rfl, decodeOfEncodeIsTheCommand (.setb 8) rfl,
    decodeOfEncodeIsTheCommand (.gmul .r7 .r7 .r7) rfl, decodeOfEncodeIsTheCommand (.eval .r2 .r3) rfl,
    decodeOfEncodeIsTheCommand (.sadd .r1 .r2) rfl, decodeOfEncodeIsTheCommand (.btrim 32) rfl,
    decodeOfEncodeIsTheCommand (.pdec .r7) rfl⟩

/-! ## The opcode map (R105) -/

/-- Every encoding matches the row of its command. -/
theorem isCommandWord_encode (i : Instr) : isCommandWord (encode i) = true := by
  cases i with
  | li rd imm => exact EncodingFitsItsRow.li rd imm
  | mov rd rs1 => exact EncodingFitsItsRow.mov rd rs1
  | setb imm => exact EncodingFitsItsRow.setb imm
  | sett rs1 => exact EncodingFitsItsRow.sett rs1
  | gadd rd rs1 rs2 => exact EncodingFitsItsRow.gadd rd rs1 rs2
  | gmul rd rs1 rs2 => exact EncodingFitsItsRow.gmul rd rs1 rs2
  | ginv rd rs1 => exact EncodingFitsItsRow.ginv rd rs1
  | gpow rd rs1 rs2 => exact EncodingFitsItsRow.gpow rd rs1 rs2
  | glog rd rs1 => exact EncodingFitsItsRow.glog rd rs1
  | gexp rd rs1 => exact EncodingFitsItsRow.gexp rd rs1
  | cclr => exact EncodingFitsItsRow.cclr
  | cpush rs1 => exact EncodingFitsItsRow.cpush rs1
  | crand => exact EncodingFitsItsRow.crand
  | eval rd rs1 => exact EncodingFitsItsRow.eval rd rs1
  | sclr => exact EncodingFitsItsRow.sclr
  | sadd rs1 rs2 => exact EncodingFitsItsRow.sadd rs1 rs2
  | interp rd rs1 => exact EncodingFitsItsRow.interp rd rs1
  | bclr => exact EncodingFitsItsRow.bclr
  | bpushh rs1 => exact EncodingFitsItsRow.bpushh rs1
  | bpoph rd => exact EncodingFitsItsRow.bpoph rd
  | bpushe rs1 => exact EncodingFitsItsRow.bpushe rs1
  | bpope rd => exact EncodingFitsItsRow.bpope rd
  | blpad imm => exact EncodingFitsItsRow.blpad imm
  | balign imm => exact EncodingFitsItsRow.balign imm
  | btrim imm => exact EncodingFitsItsRow.btrim imm
  | bsent => exact EncodingFitsItsRow.bsent
  | bstrip => exact EncodingFitsItsRow.bstrip
  | bpushw rs1 => exact EncodingFitsItsRow.bpushw rs1
  | bpopw rd => exact EncodingFitsItsRow.bpopw rd
  | penc rs1 rs2 => exact EncodingFitsItsRow.penc rs1 rs2
  | pdec rd => exact EncodingFitsItsRow.pdec rd

theorem isCommandWord_iff {w : Word} :
    isCommandWord w = true ↔ ∃ row ∈ opcodeRows, w &&& row.1 = row.2 := by
  simp [isCommandWord]

/-- A field that a row masks must be zero, and one that it does not mask may hold anything. -/
theorem and_fieldMask_eq_zero_iff {k : Nat} (f : BitVec k) (used : Bool) :
    f &&& (if used then 0#k else BitVec.allOnes k) = 0#k ↔ (used = false → f = 0#k) := by
  cases used <;> simp

/-- A word matches a row if its opcode is the row's and the fields that the row does not use are zero. -/
theorem matches_opcodeRow_iff {w : Word} {op : BitVec 8} {ud ua uc un : Bool} :
    w &&& (opcodeRow op ud ua uc un).1 = (opcodeRow op ud ua uc un).2 ↔
      fieldOp w = op ∧ (ud = false → fieldRd w = 0#3) ∧ (ua = false → fieldRs1 w = 0#3) ∧
        (uc = false → fieldRs2 w = 0#3) ∧ (un = false → fieldImm w = 0#15) := by
  have hop : fieldOp w &&& 0xFF#8 = fieldOp w := BitVec.and_allOnes
  conv_lhs => rw [← packWord_fields w]
  rw [opcodeRow, EncodingFitsItsRow.opcode_eq, EncodingFitsItsRow.rowMask_eq,
    EncodingFitsItsRow.packWord_and, eq_comm, packWord_eq_iff]
  simp only [fieldOp_packWord, fieldRd_packWord, fieldRs1_packWord, fieldRs2_packWord,
    fieldImm_packWord, hop]
  exact and_congr_right' (and_congr (and_fieldMask_eq_zero_iff _ ud) (and_congr
    (and_fieldMask_eq_zero_iff _ ua) (and_congr (and_fieldMask_eq_zero_iff _ uc)
      (and_fieldMask_eq_zero_iff _ un))))

/-- A word that matches a row has the row's opcode and zeros in its unused fields, which is what the
decoder's arm for that opcode checks. -/
theorem decode_ok_of_matches {w : Word} :
    ∀ row ∈ opcodeRows, w &&& row.1 = row.2 → ∃ i, decode w = .ok i := by
  simp only [opcodeRows, List.cons_append, List.nil_append, List.forall_mem_cons, List.not_mem_nil,
    false_implies, implies_true, and_true, matches_opcodeRow_iff]
  and_intros
  all_goals
    rintro ⟨hop, hrd, hrs1, hrs2, himm⟩
    simp [decode, unusedZero_eq_ok, hop, hrd, hrs1, hrs2, himm]

/-- Settles O3: a word that decodes is an encoding, and each row is an arm of the decoder. -/
theorem decodedWordsAreTheTablesWords : Obligations.DecodedWordsAreTheTablesWords := by
  intro w
  constructor
  · rintro ⟨i, hdecode⟩
    obtain ⟨-, rfl⟩ := encodeOfDecodeIsTheWord w i hdecode
    exact isCommandWord_iff.mp (isCommandWord_encode i)
  · rintro ⟨row, hrow, hmatch⟩
    exact decode_ok_of_matches row hrow hmatch

/-! ## Illegal words (R106) -/

/-- The opcodes of the map (R105): what is left of 0x00 to 0xFF without those that R106 lists. -/
def AssignedOpcode (op : Nat) : Prop :=
  (0x01 ≤ op ∧ op ≤ 0x04) ∨ (0x10 ≤ op ∧ op ≤ 0x15) ∨ (0x20 ≤ op ∧ op ≤ 0x23) ∨
    (0x30 ≤ op ∧ op ≤ 0x32) ∨ (0x40 ≤ op ∧ op ≤ 0x49) ∨ (0x50 ≤ op ∧ op ≤ 0x53)

theorem assignedOpcode_encode (i : Instr) : AssignedOpcode (fieldOp (encode i)).toNat := by
  cases i <;> simp [encode, AssignedOpcode]

/-- The opcode is the word's top byte (R101). -/
theorem toNat_fieldOp (w : Word) : (fieldOp w).toNat = w.toNat / 2 ^ 24 := by
  rw [fieldOp, BitVec.extractLsb'_toNat, Nat.shiftRight_eq_div_pow]
  omega

theorem assignedOpcode_of_decode {w : Word} {i : Instr} (h : decode w = .ok i) :
    AssignedOpcode (w.toNat / 2 ^ 24) := by
  obtain ⟨-, rfl⟩ := encodeOfDecodeIsTheWord w i h
  exact toNat_fieldOp (encode i) ▸ assignedOpcode_encode i

/-- A block that waits for nothing takes the error by changing its latch alone (R410). -/
theorem raise_of_not_busy {s : State} (hidle : s.busy = false) (e : ErrorClass) (w : Word) :
    s.raise e w = { s with err := true, errcode := errorCode e, errcmd := w } := by
  rw [State.raise, ← inProgress_of_not_busy hidle]

/-- Settles O7: a word that matches no row does not decode, and a listed opcode is no row's. -/
theorem illegalWordsRaiseCodeNine : Obligations.IllegalWordsRaiseCodeNine := by
  refine ⟨fun s w hidle herr hnone => ?illegal, fun w hop row hrow hmatch => ?unassigned⟩
  case illegal =>
    obtain ⟨herr', -⟩ | ⟨-, i, hdecode, -⟩ | ⟨-, -, hraise⟩ := writeCmd_cases s w
    · exact absurd (herr.symm.trans herr') Bool.false_ne_true
    · obtain ⟨row, hrow, hmatch⟩ := (decodedWordsAreTheTablesWords w).mp ⟨i, hdecode⟩
      exact absurd hmatch (hnone row hrow)
    · rw [hraise, raise_of_not_busy hidle]
      rfl
  case unassigned =>
    obtain ⟨i, hdecode⟩ := decode_ok_of_matches row hrow hmatch
    have hassigned := assignedOpcode_of_decode hdecode
    simp only [AssignedOpcode] at hop hassigned
    omega

end Sys2Proof
end

section
/-! SUPPORT. Register moves (spec/40_move.md R130, R131): neither LI nor MOV has a check to fail, so each
completes in every state with one register write. -/

namespace Sys2Proof.Machine

/-- The zero extension of IMM is the register write of that integer (R103). -/
theorem exec_li (rd : Reg) (imm : Nat) (s : State) :
    exec (.li rd imm) s = .next (s.setRegNat rd imm) := by
  simp only [exec, execLi, complete_ok, State.setRegNat, immWord]

theorem exec_mov (rd rs1 : Reg) (s : State) :
    exec (.mov rd rs1) s = .next (s.setReg rd (s.reg rs1)) := by
  simp only [exec, execMov, complete_ok]

/-- Settles O27: each command is one register write, and 15 bits of immediate fit a register. -/
theorem movesWriteOneRegister : Obligations.MovesWriteOneRegister := by
  refine ⟨fun rd imm s himm => ?li, fun rd rs1 s => ?mov⟩
  case li =>
    have hword : imm < 2 ^ 32 := himm.trans (by decide)
    exact ⟨_, exec_li rd imm s, regNat_setRegNat_same s rd hword, setRegNat_onlyRegsChange ..⟩
  case mov => exact ⟨_, exec_mov rd rs1 s, reg_setReg_same .., setReg_onlyRegsChange ..⟩

end Sys2Proof.Machine
end

section
/-! SUPPORT. The field laws (spec/41_gf.md R147), from multiplication being that of polynomials modulo
x^b + PRIM(b), and the powers of the generator that inverse, power and logarithm are made of. -/

namespace Sys2Proof.Machine

open Polynomial

/-- A factor may be reduced before the product is. -/
theorem modByMonic_mul_modByMonic {m : (ZMod 2)[X]} (hm : m.Monic) (p q : (ZMod 2)[X]) :
    (p %ₘ m * q) %ₘ m = (p * q) %ₘ m := by
  have hself : p %ₘ m %ₘ m = p %ₘ m := (modByMonic_eq_self_iff hm).mpr (degree_modByMonic_lt p hm)
  rw [mul_modByMonic, hself, ← mul_modByMonic]

section

variable {F : FieldParams}

/-- Field elements are equal when the polynomials that they stand for are (R140). -/
theorem elem_eq_of_polyOf_eq {a c : Nat} (hw : F.width ≤ 31) (ha : a < 2 ^ F.width)
    (hc : c < 2 ^ F.width) (h : polyOf a = polyOf c) : a = c :=
  have hword : 2 ^ F.width < 2 ^ 32 := Nat.pow_lt_pow_right Nat.one_lt_two (by omega)
  polyOf_inj (ha.trans hword) (hc.trans hword) h

theorem gfMul_comm (a c : Nat) : gfMul F a c = gfMul F c a := by
  simp only [gfMul, or_comm, Nat.add_comm]

variable (hF : PrimitiveField F) (h2 : 2 ≤ F.width) (hw : F.width ≤ 31)

include hF h2 hw

theorem gfMul_assoc {a c d : Nat} (ha : a < 2 ^ F.width) (hc : c < 2 ^ F.width)
    (hd : d < 2 ^ F.width) : gfMul F (gfMul F a c) d = gfMul F a (gfMul F c d) := by
  have hlt := gfMul_lt F (by omega)
  have hm := modulusOf_monic hF.lowOrder
  refine elem_eq_of_polyOf_eq hw (hlt ..) (hlt ..) ?_
  calc polyOf (gfMul F (gfMul F a c) d)
      = ((polyOf a * polyOf c) %ₘ modulusOf F * polyOf d) %ₘ modulusOf F := by
        rw [polyOf_gfMul hF h2 hw (hlt ..) hd, polyOf_gfMul hF h2 hw ha hc]
    _ = (polyOf a * polyOf c * polyOf d) %ₘ modulusOf F := by
        rw [modByMonic_mul_modByMonic hm]
    _ = (polyOf a * (polyOf c * polyOf d %ₘ modulusOf F)) %ₘ modulusOf F := by
        rw [mul_assoc, mul_comm (polyOf a), mul_comm (polyOf a), modByMonic_mul_modByMonic hm]
    _ = polyOf (gfMul F a (gfMul F c d)) := by
        rw [polyOf_gfMul hF h2 hw ha (hlt ..), polyOf_gfMul hF h2 hw hc hd]

theorem gfMul_xor {a c d : Nat} (ha : a < 2 ^ F.width) (hc : c < 2 ^ F.width)
    (hd : d < 2 ^ F.width) : gfMul F a (c ^^^ d) = gfMul F a c ^^^ gfMul F a d := by
  have hlt := gfMul_lt F (by omega)
  refine elem_eq_of_polyOf_eq hw (hlt ..) (Nat.xor_lt_two_pow (hlt ..) (hlt ..)) ?_
  rw [polyOf_gfMul hF h2 hw ha (Nat.xor_lt_two_pow hc hd), polyOf_xor, polyOf_xor, mul_add,
    add_modByMonic, polyOf_gfMul hF h2 hw ha hc, polyOf_gfMul hF h2 hw ha hd]

theorem gfMul_one_left {a : Nat} (ha : a < 2 ^ F.width) : gfMul F 1 a = a := by
  refine elem_eq_of_polyOf_eq hw (gfMul_lt F (by omega) ..) ha ?_
  rw [polyOf_gfMul hF h2 hw (Nat.one_lt_two_pow (by omega)) ha, polyOf_one, one_mul,
    polyOf_modByMonic hF.lowOrder ha]

/-- Powers of the generator multiply by adding their exponents (R142, R144). -/
theorem gfMul_expEntry (i j : Nat) :
    gfMul F (expEntry F i) (expEntry F j) = expEntry F (i + j) := by
  have hlt := expEntry_lt F (by omega)
  have hentry := polyOf_expEntry (by omega) hw hF.lowOrder
  refine elem_eq_of_polyOf_eq hw (gfMul_lt F (by omega) ..) (hlt _) ?_
  rw [polyOf_gfMul hF h2 hw (hlt i) (hlt j), hentry, hentry, hentry, pow_add, ← mul_modByMonic]

/-- Multiplying by a nonzero element adds its LOG to the exponent (R143, R144). -/
theorem gfMul_expEntry_right {a : Nat} (ha0 : a ≠ 0) (ha : a < 2 ^ F.width) (k : Nat) :
    gfMul F a (expEntry F k) = expEntry F (gfLog F a + k) := by
  rw [← gfMul_expEntry hF h2 hw, (gfLog_spec hF (Nat.pos_of_ne_zero ha0) ha).2]

/-- The inverse law of R147. -/
theorem gfMul_gfExp_sub_gfLog {a : Nat} (ha0 : a ≠ 0) (ha : a < 2 ^ F.width) :
    gfMul F a (gfExp F (fieldMax F - gfLog F a)) = 1 := by
  have hlog := (gfLog_spec hF (Nat.pos_of_ne_zero ha0) ha).1
  rw [gfExp_eq_expEntry hF h2 hw, gfMul_expEntry_right hF h2 hw ha0 ha,
    Nat.add_sub_cancel' hlog.le, expEntry_fieldMax hF h2 hw]

theorem gfMul_gfInv {a : Nat} (ha0 : a ≠ 0) (ha : a < 2 ^ F.width) : gfMul F a (gfInv F a) = 1 := by
  rw [gfInv, gfExp, Nat.mod_mod]
  exact gfMul_gfExp_sub_gfLog hF h2 hw ha0 ha

/-- A product of n factors `a`, from 1 on, is the n-fold LOG in the exponent. -/
theorem iterate_gfMul_one {a : Nat} (ha0 : a ≠ 0) (ha : a < 2 ^ F.width) (n : Nat) :
    (gfMul F a)^[n] 1 = expEntry F (gfLog F a * n) := by
  induction n with
  | zero => rfl
  | succ n ih =>
    rw [Function.iterate_succ_apply', ih, gfMul_expEntry_right hF h2 hw ha0 ha, Nat.mul_succ,
      Nat.add_comm]

theorem gfPow_eq_iterate {a : Nat} (ha : a < 2 ^ F.width) (n : Nat) :
    gfPow F a n = (gfMul F a)^[n] 1 := by
  by_cases ha0 : a = 0
  · subst ha0
    cases n with
    | zero => rfl
    | succ n => rw [Function.iterate_succ_apply', gfMul_zero_left]; rfl
  · rw [iterate_gfMul_one hF h2 hw ha0 ha, ← gfExp_eq_expEntry hF h2 hw, gfPow, if_neg ha0, gfExp,
      gfExp, Nat.mod_mod, Nat.mul_mod_mod]

/-- LOG is the only exponent below MAX that EXP maps to its argument (R143). -/
theorem gfExp_eq_iff_eq_gfLog {a i : Nat} (ha0 : a ≠ 0) (ha : a < 2 ^ F.width)
    (hi : i < fieldMax F) : gfExp F i = a ↔ i = gfLog F a := by
  obtain ⟨hlog, hexp⟩ := gfLog_spec hF (Nat.pos_of_ne_zero ha0) ha
  rw [gfExp_eq_expEntry hF h2 hw]
  constructor
  · intro h
    exact expEntry_injOn hF h2 hw (by simpa using hi) (by simpa using hlog) (h.trans hexp.symm)
  · rintro rfl
    exact hexp

end

/-- Settles O32: the laws of polynomials modulo x^b + PRIM(b), carried over to the elements. -/
theorem fieldLaws : Obligations.FieldLaws := by
  intro F a c d hmin hmax hF ha hc hd
  have h2 : 2 ≤ F.width := by omega
  have hw : F.width ≤ 31 := by omega
  exact ⟨gfMul_comm a c, gfMul_assoc hF h2 hw ha hc hd, gfMul_xor hF h2 hw ha hc hd,
    gfMul_one_left hF h2 hw ha, gfMul_zero_left F a,
    fun ha0 => gfMul_gfExp_sub_gfLog hF h2 hw ha0 ha, Nat.xor_lt_two_pow ha hc, Nat.xor_self a⟩

end Sys2Proof.Machine
end

section
/-! SUPPORT. The default table of PRIM (spec/41_gf.md R141). Running the loop of R142 through all of its
2^b - 1 entries is out of reach at b = 20. Instead the loop's period is computed as an order: x^MAX is 1
and x^(MAX/p) is not, for every prime factor p of MAX, each power by repeated squaring. -/

namespace Sys2Proof.Machine

open Polynomial Function

/-! ## The loop visits every nonzero element when its period is MAX -/

/-- A period that no prime factor can be taken from is the least one. -/
theorem minimalPeriod_eq_of_prime_factors {α : Type} {f : α → α} {x : α} {n : Nat}
    (hn : IsPeriodicPt f n x) (hdiv : ∀ p, p.Prime → p ∣ n → ¬ IsPeriodicPt f (n / p) x) :
    minimalPeriod f x = n := by
  obtain ⟨q, hq⟩ := hn.minimalPeriod_dvd
  by_contra hne
  have hq1 : q ≠ 1 := by
    rintro rfl
    exact hne (by omega)
  have hmul : q.minFac * minimalPeriod f x ∣ n := by
    rw [mul_comm, hq]
    exact Nat.mul_dvd_mul_left _ q.minFac_dvd
  exact hdiv q.minFac (Nat.minFac_prime hq1) (dvd_of_mul_right_dvd hmul)
    (isPeriodicPt_iff_minimalPeriod_dvd.mpr (Nat.dvd_div_of_mul_dvd hmul))

/-- A loop that comes back to 1 never reaches 0, from where no turn leads away. -/
theorem expEntry_ne_zero_of_period {F : FieldParams} (hmax : 0 < fieldMax F)
    (hperiod : IsPeriodicPt (expStep F) (fieldMax F) 1) (i : Nat) : expEntry F i ≠ 0 := by
  intro h
  have hstuck (k : Nat) : (expStep F)^[k] 0 = 0 := iterate_fixed (by simp [expStep]) k
  have hreturn : expEntry F (fieldMax F * i - i + i) = 1 := by
    rw [Nat.sub_add_cancel (Nat.le_mul_of_pos_left i hmax)]
    exact hperiod.mul_const i
  rw [expEntry, iterate_add_apply, ← expEntry, h, hstuck] at hreturn
  exact absurd hreturn (by decide)

theorem primitiveField_of_minimalPeriod {F : FieldParams} (h0 : 0 < F.width)
    (hprim : F.prim < 2 ^ F.width) (hperiod : minimalPeriod (expStep F) 1 = fieldMax F) :
    PrimitiveField F where
  lowOrder := hprim
  visitsAll a hpos ha := by
    have hmax : 0 < fieldMax F := Nat.sub_pos_of_lt (Nat.one_lt_two_pow h0.ne')
    have hreturn : IsPeriodicPt (expStep F) (fieldMax F) 1 :=
      hperiod ▸ isPeriodicPt_minimalPeriod (expStep F) 1
    have hinj : Set.InjOn (expEntry F) (Finset.range (fieldMax F)) := by
      rw [Finset.coe_range, ← hperiod]
      exact iterate_injOn_Iio_minimalPeriod
    have hmaps : Set.MapsTo (expEntry F) (Finset.range (fieldMax F)) (Finset.Icc 1 (fieldMax F)) := by
      intro i _
      have hlt := expEntry_lt F h0 i
      have hne := expEntry_ne_zero_of_period hmax hreturn i
      simp only [Finset.coe_Icc, Set.mem_Icc, fieldMax]
      omega
    obtain ⟨i, hi, hexp⟩ := Finset.surjOn_of_injOn_of_card_le _ hmaps hinj (by simp)
      (show a ∈ ↑(Finset.Icc 1 (fieldMax F)) by simp [fieldMax]; omega)
    exact ⟨i, by simpa using hi, hexp⟩

/-! ## Entries of the loop by repeated squaring -/

/-- The product of `a` with the low `k` bits of `c`, by shift and add: the reduction is that of the
table loop. -/
def shiftAddMul (F : FieldParams) : (k a c : Nat) → Nat
  | 0, _, _ => 0
  | k + 1, a, c => (if c % 2 = 1 then a else 0) ^^^ shiftAddMul F k (expStep F a) (c / 2)

/-- `exp[n]` for an n of `k` bits. -/
def expBySquaring (F : FieldParams) : (k n : Nat) → Nat
  | 0, _ => 1
  | k + 1, n =>
    let root := expBySquaring F k (n / 2)
    let square := shiftAddMul F F.width root root
    if n % 2 = 1 then expStep F square else square

theorem shiftAddMul_lt (F : FieldParams) {k a c : Nat} (ha : a < 2 ^ F.width) :
    shiftAddMul F k a c < 2 ^ F.width := by
  induction k generalizing a c with
  | zero => exact Nat.two_pow_pos _
  | succ k ih =>
    refine Nat.xor_lt_two_pow ?_ (ih (expStep_lt F ha))
    split
    · exact ha
    · exact Nat.two_pow_pos _

/-- The lowest bit of an integer is the constant coefficient, the others are x times those of its half
(R140). -/
theorem polyOf_eq_low_add {c : Nat} (hc : c < 2 ^ 32) :
    polyOf c = polyOf (c % 2) + X * polyOf (c / 2) := by
  rw [← polyOf_two_mul (by omega), ← polyOf_xor]
  congr 1
  refine Nat.eq_of_testBit_eq fun i => ?_
  cases i with
  | zero => simp
  | succ i =>
    have hlow : (c % 2) / 2 = 0 := Nat.div_eq_of_lt (Nat.mod_lt c Nat.two_pos)
    rw [Nat.testBit_succ, Nat.testBit_succ, Nat.xor_div_two, hlow,
      Nat.mul_div_cancel_left _ Nat.two_pos, Nat.zero_xor]

section

variable {F : FieldParams} (h0 : 0 < F.width) (hw : F.width ≤ 31) (hp : F.prim < 2 ^ F.width)

include hw hp

theorem polyOf_shiftAddMul {k a c : Nat} (hk : k ≤ 32) (ha : a < 2 ^ F.width) (hc : c < 2 ^ k) :
    polyOf (shiftAddMul F k a c) = (polyOf a * polyOf c) %ₘ modulusOf F := by
  induction k generalizing a c with
  | zero =>
    obtain rfl : c = 0 := by simpa using hc
    simp [shiftAddMul]
  | succ k ih =>
    have hlow : polyOf (if c % 2 = 1 then a else 0) = (polyOf a * polyOf (c % 2)) %ₘ modulusOf F := by
      obtain hbit | hbit := Nat.mod_two_eq_zero_or_one c <;> rw [hbit]
      · simp
      · simpa using (polyOf_modByMonic hp ha).symm
    have hhigh : polyOf (shiftAddMul F k (expStep F a) (c / 2))
        = (polyOf a * (X * polyOf (c / 2))) %ₘ modulusOf F := by
      rw [ih (by omega) (expStep_lt F ha) (by omega), polyOf_expStep hw hp ha,
        modByMonic_mul_modByMonic (modulusOf_monic hp), mul_right_comm, mul_comm, mul_left_comm]
    rw [shiftAddMul, polyOf_xor, hlow, hhigh, ← add_modByMonic, ← mul_add,
      ← polyOf_eq_low_add (hc.trans_le (Nat.pow_le_pow_right Nat.two_pos hk))]

include h0

theorem shiftAddMul_expEntry (i : Nat) :
    shiftAddMul F F.width (expEntry F i) (expEntry F i) = expEntry F (i + i) := by
  have hlt := expEntry_lt F h0
  have hentry := polyOf_expEntry h0 hw hp
  refine elem_eq_of_polyOf_eq hw (shiftAddMul_lt F (hlt i)) (hlt _) ?_
  rw [polyOf_shiftAddMul hw hp (by omega) (hlt i) (hlt i), hentry, hentry, pow_add, ← mul_modByMonic]

theorem expBySquaring_eq_expEntry {k n : Nat} (hn : n < 2 ^ k) :
    expBySquaring F k n = expEntry F n := by
  induction k generalizing n with
  | zero =>
    obtain rfl : n = 0 := by simpa using hn
    rfl
  | succ k ih =>
    simp only [expBySquaring, ih (show n / 2 < 2 ^ k by omega), shiftAddMul_expEntry h0 hw hp,
      ← expEntry_succ]
    split <;> congr 1 <;> omega

end

/-! ## The period of a field, checked -/

/-- The check that the loop has period MAX, where `ps` lists the prime factors of MAX. -/
def hasPeriodMax (F : FieldParams) (ps : List Nat) : Bool :=
  expBySquaring F F.width (fieldMax F) == 1 &&
    ps.all fun p => expBySquaring F F.width (fieldMax F / p) != 1

theorem primitiveField_of_hasPeriodMax {F : FieldParams} {ps : List Nat} (h0 : 0 < F.width)
    (hw : F.width ≤ 31) (hp : F.prim < 2 ^ F.width) (hprime : ∀ p ∈ ps, p.Prime)
    (hprod : ps.prod = fieldMax F) (h : hasPeriodMax F ps = true) : PrimitiveField F := by
  simp only [hasPeriodMax, Bool.and_eq_true, beq_iff_eq, List.all_eq_true, bne_iff_ne] at h
  obtain ⟨hreturn, hearlier⟩ := h
  have hentry (n : Nat) (hn : n ≤ fieldMax F) : expBySquaring F F.width n = (expStep F)^[n] 1 :=
    expBySquaring_eq_expEntry h0 hw hp (hn.trans_lt (fieldMax_lt F))
  refine primitiveField_of_minimalPeriod h0 hp (minimalPeriod_eq_of_prime_factors ?_ ?_)
  · exact (hentry _ le_rfl).symm.trans hreturn
  · intro p hpp hdvd hperiod
    have hmem : p ∈ ps := mem_list_primes_of_dvd_prod hpp.prime (fun q hq => (hprime q hq).prime)
      (hprod ▸ hdvd)
    exact hearlier p hmem ((hentry _ (Nat.div_le_self ..)).trans hperiod)

/-! ## The default table (R141) -/

/-- The prime factors of 2^b - 1, with multiplicity, for the widths of the default table. -/
def mersenneFactors : Nat → List Nat
  | 3 => [7]
  | 4 => [3, 5]
  | 5 => [31]
  | 6 => [3, 3, 7]
  | 7 => [127]
  | 8 => [3, 5, 17]
  | 9 => [7, 73]
  | 10 => [3, 11, 31]
  | 11 => [23, 89]
  | 12 => [3, 3, 5, 7, 13]
  | 13 => [8191]
  | 14 => [3, 43, 127]
  | 15 => [7, 31, 151]
  | 16 => [3, 5, 17, 257]
  | 17 => [131071]
  | 18 => [3, 3, 3, 7, 19, 73]
  | 19 => [524287]
  | 20 => [3, 5, 5, 11, 31, 41]
  | _ => []

theorem prime_of_mem_mersenneFactors (b : Nat) : ∀ p ∈ mersenneFactors b, p.Prime := by
  unfold mersenneFactors
  split <;> norm_num

/-- The default table's entries at widths 3..20 are low-order bits, the factors multiply to MAX, and the
period is MAX. -/
theorem defaultTable_checks : ∀ b < 21, 3 ≤ b →
    (fieldOf defaultPrimTable b).prim < 2 ^ b ∧
    (mersenneFactors b).prod = fieldMax (fieldOf defaultPrimTable b) ∧
    hasPeriodMax (fieldOf defaultPrimTable b) (mersenneFactors b) = true := by
  decide +kernel

/-- Settles O30: at each width the loop of R142 has period MAX. -/
theorem defaultTableIsPrimitive : Obligations.DefaultTableIsPrimitive := by
  intro b hmin hmax
  obtain ⟨hprim, hprod, hperiod⟩ := defaultTable_checks b (by omega) hmin
  exact primitiveField_of_hasPeriodMax (show 0 < b by omega) (show b ≤ 31 by omega) hprim
    (prime_of_mem_mersenneFactors b) hprod hperiod

end Sys2Proof.Machine
end

section
/-! SUPPORT. The GF(2^b) commands (spec/41_gf.md R150 to R162): what each answers on legal operands, the
error of its first failing check, and the claims about its result. -/

namespace Sys2Proof.Machine

/-! ## Operands -/

theorem fieldOperand_of_holdsElem {s : State} {i : Reg} (h : s.holdsElem i) :
    s.fieldOperand i = .ok (s.regNat i) := fieldOperand_ok ((holdsElem_iff s i).mp h)

theorem fieldOperand_of_not_holdsElem {s : State} {i : Reg} (h : ¬ s.holdsElem i) :
    s.fieldOperand i = .error .validation :=
  fieldOperand_error (Nat.not_le.mp fun hle => h ((holdsElem_iff s i).mpr hle))

theorem regNat_ne_zero_iff (s : State) (i : Reg) : s.regNat i ≠ 0 ↔ s.reg i ≠ 0#32 :=
  BitVec.toNat_ne_iff_ne (y := 0#32)

/-- The operand 0 is an element of every field. -/
theorem holdsElem_of_reg_eq_zero {s : State} {i : Reg} (h : s.reg i = 0#32) : s.holdsElem i := by
  rw [State.holdsElem, State.regNat, h]
  exact Nat.two_pow_pos _

/-! ## What the commands answer on legal operands -/

theorem exec_setb (imm : Nat) (s : State) (h : 3 ≤ imm ∧ imm ≤ 20) :
    exec (.setb imm) s = .next { s with b := imm, coef := [], samples := [] } := by
  have hrange : Config.bMin ≤ imm ∧ imm ≤ Config.bMax := h
  simp only [exec, execSetb, require_pos hrange, except_ok_bind, complete_ok]

theorem exec_ginv {s : State} {rs1 : Reg} (h : s.holdsElem rs1) (h0 : s.regNat rs1 ≠ 0) (rd : Reg) :
    exec (.ginv rd rs1) s = .next (s.setRegNat rd (gfInv s.field (s.regNat rs1))) := by
  simp only [exec, execGinv, fieldOperand_of_holdsElem h, require_pos h0, except_ok_bind, complete_ok]

theorem exec_glog {s : State} {rs1 : Reg} (h : s.holdsElem rs1) (h0 : s.regNat rs1 ≠ 0) (rd : Reg) :
    exec (.glog rd rs1) s = .next (s.setRegNat rd (gfLog s.field (s.regNat rs1))) := by
  simp only [exec, execGlog, fieldOperand_of_holdsElem h, require_pos h0, except_ok_bind, complete_ok]

theorem exec_gpow {s : State} {rs1 : Reg} (h : s.holdsElem rs1) (rd rs2 : Reg) :
    exec (.gpow rd rs1 rs2) s
      = .next (s.setRegNat rd (gfPow s.field (s.regNat rs1) (s.regNat rs2))) := by
  simp only [exec, execGpow, fieldOperand_of_holdsElem h, except_ok_bind, complete_ok]

theorem exec_gexp (rd rs1 : Reg) (s : State) :
    exec (.gexp rd rs1) s = .next (s.setRegNat rd (gfExp s.field (s.regNat rs1))) := rfl

/-! ## Results -/

/-- What a legal field has of the bounds that the field's lemmas ask for. -/
theorem FieldLegal.bounds {s : State} (h : FieldLegal s) :
    0 < s.field.width ∧ 2 ≤ s.field.width ∧ s.field.width ≤ 31 := by
  obtain ⟨hmin, hmax⟩ := h.width
  exact ⟨show 0 < s.b by omega, show 2 ≤ s.b by omega, show s.b ≤ 31 by omega⟩

theorem FieldLegal.elem_lt_word {s : State} (h : FieldLegal s) {n : Nat}
    (hn : n < 2 ^ s.field.width) : n < 2 ^ 32 :=
  hn.trans (Nat.pow_lt_pow_right Nat.one_lt_two (Nat.lt_succ_of_le h.bounds.2.2))

/-- An element written to a register is read back, as an element, and nothing else changes. -/
theorem FieldLegal.setRegNat_elem {s : State} (h : FieldLegal s) (rd : Reg) {n : Nat}
    (hn : n < 2 ^ s.field.width) :
    (s.setRegNat rd n).regNat rd = n ∧ (s.setRegNat rd n).holdsElem rd ∧
      OnlyRegsChange s (s.setRegNat rd n) [rd] := by
  have hread := regNat_setRegNat_same s rd (h.elem_lt_word hn)
  exact ⟨hread, hread.trans_lt hn, setRegNat_onlyRegsChange ..⟩

/-- Settles O28: the only check of SETB is the range of its width. -/
theorem setbSetsTheWidth : Obligations.SetbSetsTheWidth :=
  fun imm s hmin hmax => exec_setb imm s ⟨hmin, hmax⟩

/-- Settles O29: XOR of the integers is XOR of the registers, and of two elements it is an element. -/
theorem gaddIsXor : Obligations.GaddIsXor := by
  intro rd rs1 rs2 s h1 h2
  have hword : BitVec.ofNat 32 (s.regNat rs1 ^^^ s.regNat rs2) = s.reg rs1 ^^^ s.reg rs2 := by
    rw [State.regNat, State.regNat, ← BitVec.toNat_xor, BitVec.ofNat_toNat, BitVec.setWidth_eq]
  have hreg := (reg_setRegNat_same s rd (s.regNat rs1 ^^^ s.regNat rs2)).trans hword
  refine ⟨_, exec_gadd h1 h2 rd, hreg, ?_, setRegNat_onlyRegsChange ..⟩
  rw [State.holdsElem, State.regNat, hreg, BitVec.toNat_xor]
  exact Nat.xor_lt_two_pow h1 h2

/-- Settles O33: the inverse law of R147, for what GINV writes. -/
theorem ginvTimesOperandIsOne : Obligations.GinvTimesOperandIsOne := by
  intro rd rs1 s hs h1 hne
  obtain ⟨h0, h2, hw⟩ := hs.bounds
  have hne' := (regNat_ne_zero_iff s rs1).mpr hne
  obtain ⟨hread, helem, hframe⟩ := hs.setRegNat_elem rd (gfExp_lt s.field h0 _)
  refine ⟨_, exec_ginv h1 hne' rd, helem, ?_, hframe⟩
  rw [gfInv, hread]
  exact gfMul_gfInv hs.primitive h2 hw hne' h1

/-- Settles O34: GPOW's reduced exponent stands for the n-fold product. -/
theorem gpowIsTheRepeatedProduct : Obligations.GpowIsTheRepeatedProduct := by
  intro rd rs1 rs2 s hs h1
  obtain ⟨h0, h2, hw⟩ := hs.bounds
  obtain ⟨hread, helem, hframe⟩ := hs.setRegNat_elem rd
    (gfPow_lt s.field h0 (s.regNat rs1) (s.regNat rs2))
  exact ⟨_, exec_gpow h1 rd rs2, helem,
    hread.trans (gfPow_eq_iterate hs.primitive h2 hw h1 _), hframe⟩

/-- Settles O35: the entries of the table below MAX are distinct. -/
theorem glogIsTheUniqueExponent : Obligations.GlogIsTheUniqueExponent := by
  intro rd rs1 s hs h1 hne
  obtain ⟨-, h2, hw⟩ := hs.bounds
  have hne' := (regNat_ne_zero_iff s rs1).mpr hne
  obtain ⟨hlog, -⟩ := gfLog_spec hs.primitive (Nat.pos_of_ne_zero hne') h1
  obtain ⟨hread, -, hframe⟩ := hs.setRegNat_elem rd (hlog.trans (fieldMax_lt s.field))
  refine ⟨_, exec_glog h1 hne' rd, ?_, ?_, hframe⟩
  · rw [hread]
    exact hlog
  · intro i hi
    rw [hread]
    exact gfExp_eq_iff_eq_gfLog hs.primitive h2 hw hne' h1 hi

/-- Settles O36: EXP is the table loop's entry, which is a power of x and never 0. -/
theorem gexpIsThePowerOfTheGenerator : Obligations.GexpIsThePowerOfTheGenerator := by
  intro rd rs1 s hs
  obtain ⟨h0, h2, hw⟩ := hs.bounds
  obtain ⟨hread, helem, hframe⟩ := hs.setRegNat_elem rd (gfExp_lt s.field h0 (s.regNat rs1))
  have hentry := gfExp_eq_expEntry hs.primitive h2 hw (s.regNat rs1)
  refine ⟨_, exec_gexp rd rs1 s, helem, ?_, ?_, hframe⟩
  · rw [← regNat_ne_zero_iff, hread, hentry]
    exact expEntry_ne_zero hs.primitive h2 hw _
  · rw [hread, hentry]
    exact polyOf_expEntry h0 hw hs.primitive.lowOrder _

/-! ## Traps -/

/-- A command whose next check is that of an operand that is no element ends in ValidationError (R146). -/
theorem complete_of_not_holdsElem {s : State} {r : Reg} (h : ¬ s.holdsElem r) (i : Instr)
    (rest : Nat → Except ErrorClass State) :
    complete i s (s.fieldOperand r >>= rest) = .next (s.raise .validation (encode i)) := by
  rw [fieldOperand_of_not_holdsElem h, except_error_bind, complete_error]

/-- A command whose next check is that of an element goes on with it (R146). -/
theorem complete_of_holdsElem {s : State} {r : Reg} (h : s.holdsElem r) (i : Instr)
    (rest : Nat → Except ErrorClass State) :
    complete i s (s.fieldOperand r >>= rest) = complete i s (rest (s.regNat r)) := by
  rw [fieldOperand_of_holdsElem h, except_ok_bind]

/-- A command whose next check fails ends in that check's error (R410). -/
theorem complete_of_require_neg {ok : Prop} [Decidable ok] (h : ¬ ok) (e : ErrorClass) (i : Instr)
    (s : State) (rest : Unit → Except ErrorClass State) :
    complete i s (require ok e >>= rest) = .next (s.raise e (encode i)) := by
  rw [require_neg h, except_error_bind, complete_error]

/-- Settles O37: the first check that fails names the error; 0 passes the check of R146 and fails the
next. -/
theorem fieldCommandTraps : Obligations.FieldCommandTraps := by
  intro s rd rs1 rs2 imm
  refine ⟨fun h => ?width, fun h => ?first, fun h1 h => ?second, fun h => ?zero⟩
  case width =>
    have hrange : ¬ (3 ≤ imm ∧ imm ≤ 20) := by omega
    exact complete_of_require_neg hrange ..
  case first =>
    have htrap := complete_of_not_holdsElem h
    exact ⟨htrap .., htrap .., htrap .., htrap .., htrap ..⟩
  case second =>
    have hpass := complete_of_holdsElem h1
    have htrap := complete_of_not_holdsElem h
    exact ⟨(hpass ..).trans (htrap ..), (hpass ..).trans (htrap ..)⟩
  case zero =>
    have hpass := complete_of_holdsElem (holdsElem_of_reg_eq_zero h)
    have h0 : ¬ s.regNat rs1 ≠ 0 := fun hne => (regNat_ne_zero_iff s rs1).mp hne h
    have htrap := complete_of_require_neg h0 .domain
    exact ⟨(hpass ..).trans (htrap ..), (hpass ..).trans (htrap ..)⟩

end Sys2Proof.Machine
end

section
/-! SUPPORT. The evaluator's commands (spec/42_eval.md R201 to R212) and the clears of the other buffers:
what each answers on legal operands, the error of its first failing check, and EVAL's result as the value
of a polynomial over the field. -/

namespace Sys2Proof.Machine

open Polynomial

/-! ## The evaluator's loop is the value of the polynomial (R210, R212) -/

@[simp] theorem evalPoly_nil (x : Nat) : evalPoly [] x = 0 := rfl

/-- The value of a polynomial, with coefficient 0 split off: what one turn of Horner's rule computes. -/
theorem evalPoly_cons (c : Nat) (coef : List Nat) (x : Nat) :
    evalPoly (c :: coef) x = polyOf c + evalPoly coef x * polyOf x := by
  have hterm (p : Nat × Nat) :
      polyOf p.1 * polyOf x ^ (p.2 + 1) = polyOf p.1 * polyOf x ^ p.2 * polyOf x := by
    rw [pow_succ, mul_assoc]
  simp [evalPoly, List.zipIdx_cons, List.zipIdx_succ, Function.comp_def, hterm,
    List.sum_map_mul_right]

theorem polyOf_horner {F : FieldParams} (hF : PrimitiveField F) (h2 : 2 ≤ F.width)
    (hw : F.width ≤ 31) {x : Nat} (hx : x < 2 ^ F.width) {coef : List Nat}
    (hcoef : ∀ c ∈ coef, c < 2 ^ F.width) :
    polyOf (horner F x coef) = evalPoly coef x %ₘ modulusOf F := by
  induction coef with
  | nil =>
    rw [evalPoly_nil, zero_modByMonic]
    exact polyOf_zero
  | cons c rest ih =>
    obtain ⟨hc, hrest⟩ := List.forall_mem_cons.mp hcoef
    have hvalue := horner_lt F (by omega) x rest hrest
    calc polyOf (horner F x (c :: rest))
        = polyOf (gfMul F (horner F x rest) x) + polyOf c := by rw [horner_cons, polyOf_xor]
      _ = (evalPoly rest x %ₘ modulusOf F * polyOf x) %ₘ modulusOf F + polyOf c %ₘ modulusOf F := by
          rw [polyOf_gfMul hF h2 hw hvalue hx, ih hrest, polyOf_modByMonic hF.lowOrder hc]
      _ = evalPoly (c :: rest) x %ₘ modulusOf F := by
          rw [modByMonic_mul_modByMonic (modulusOf_monic hF.lowOrder), ← add_modByMonic, add_comm,
            evalPoly_cons]

/-- The source's special case for a running value of 0 is the short circuit of the multiplication (R144,
R212). -/
theorem sourceHornerStep_eq (F : FieldParams) {x : Nat} (hx : x ≠ 0) (c fx : Nat) :
    sourceHornerStep F x c fx = gfMul F fx x ^^^ c := by
  by_cases hfx : fx = 0
  · simp [sourceHornerStep, hfx]
  · simp [sourceHornerStep, gfMul, hfx, hx, Nat.add_comm]

theorem sourceHorner_eq_horner (F : FieldParams) {x : Nat} (hx : x ≠ 0) (coef : List Nat) :
    sourceHorner F x coef = horner F x coef := by
  induction coef with
  | nil => rfl
  | cons c rest ih => rw [sourceHorner, sourceHornerStep_eq F hx, ih, horner_cons]

/-! ## Checks -/

/-- A command whose next check passes goes on with the rest of its rule (R15). -/
theorem complete_of_require_pos {ok : Prop} [Decidable ok] (h : ok) (e : ErrorClass) (i : Instr)
    (s : State) (rest : Unit → Except ErrorClass State) :
    complete i s (require ok e >>= rest) = complete i s (rest ()) := by
  rw [require_pos h, except_ok_bind]

theorem rangeOperand_ok {s : State} {i : Reg} {lo hi : Nat} (h : lo ≤ s.regNat i ∧ s.regNat i ≤ hi) :
    s.rangeOperand i lo hi = .ok (s.regNat i) := if_pos h

theorem rangeOperand_error {s : State} {i : Reg} {lo hi : Nat}
    (h : ¬ (lo ≤ s.regNat i ∧ s.regNat i ≤ hi)) : s.rangeOperand i lo hi = .error .validation := if_neg h

theorem threshSet_ok {s : State} (h : s.thresh ≠ 0) : s.threshSet = .ok () := require_pos h _

/-! ## What the commands answer when every check passes -/

theorem exec_sett {s : State} {rs1 : Reg} (h : 2 ≤ s.regNat rs1 ∧ s.regNat rs1 ≤ 4095) :
    exec (.sett rs1) s = .next { s with thresh := s.regNat rs1 } := by
  have hrange : Config.threshMin ≤ s.regNat rs1 ∧ s.regNat rs1 ≤ Config.threshMax := h
  simp only [exec, execSett, rangeOperand_ok hrange, except_ok_bind, complete_ok]

theorem exec_cpush {s : State} {rs1 : Reg} (hthresh : s.thresh ≠ 0) (h1 : s.holdsElem rs1)
    (hfill : s.fill < s.thresh) :
    exec (.cpush rs1) s = .next { s with coef := s.coef ++ [s.regNat rs1] } := by
  simp only [exec, execCpush, threshSet_ok hthresh, fieldOperand_of_holdsElem h1, require_pos hfill,
    except_ok_bind, complete_ok]

theorem exec_eval {s : State} {rs1 : Reg} (hthresh : s.thresh ≠ 0) (h1 : s.holdsElem rs1)
    (h0 : s.regNat rs1 ≠ 0) (hfill : s.fill = s.thresh) (rd : Reg) :
    exec (.eval rd rs1) s = .next (s.setRegNat rd (horner s.field (s.regNat rs1) s.coef)) := by
  simp only [exec, execEval, threshSet_ok hthresh, fieldOperand_of_holdsElem h1, require_pos h0,
    require_pos hfill, except_ok_bind, complete_ok]

/-! ## The errors, in the order of the checks -/

theorem exec_sett_trap {s : State} {rs1 : Reg} (h : ¬ (2 ≤ s.regNat rs1 ∧ s.regNat rs1 ≤ 4095)) :
    exec (.sett rs1) s = .next (s.raise .validation (encode (.sett rs1))) := by
  have hrange : ¬ (Config.threshMin ≤ s.regNat rs1 ∧ s.regNat rs1 ≤ Config.threshMax) := h
  simp only [exec, execSett, rangeOperand_error hrange, except_error_bind, complete_error]

/-- CPUSH checks THRESH, then its operand; both have the class ValidationError (R205). -/
theorem exec_cpush_validation {s : State} {rs1 : Reg} (h : ¬ (s.thresh ≠ 0 ∧ s.holdsElem rs1)) :
    exec (.cpush rs1) s = .next (s.raise .validation (encode (.cpush rs1))) := by
  by_cases hthresh : s.thresh ≠ 0
  · refine (complete_of_require_pos hthresh ..).trans ?_
    exact complete_of_not_holdsElem (fun h1 => h ⟨hthresh, h1⟩) ..
  · exact complete_of_require_neg hthresh ..

/-- The room for one more coefficient is CPUSH's last check (R205). -/
theorem exec_cpush_capacity {s : State} {rs1 : Reg} (hthresh : s.thresh ≠ 0) (h1 : s.holdsElem rs1)
    (hfill : ¬ s.fill < s.thresh) :
    exec (.cpush rs1) s = .next (s.raise .capacity (encode (.cpush rs1))) :=
  (complete_of_require_pos hthresh ..).trans <| (complete_of_holdsElem h1 ..).trans <|
    complete_of_require_neg hfill ..

/-- THRESH is all that CRAND checks (R207). -/
theorem exec_crand_validation {s : State} (h : s.thresh = 0) :
    exec .crand s = .next (s.raise .validation (encode .crand)) :=
  complete_of_require_neg (not_not.mpr h) ..

/-- Each of EVAL's four checks has the class ValidationError, so whichever fails first, the error is the
same (R210). -/
theorem exec_eval_validation {s : State} {rs1 : Reg}
    (h : ¬ (s.thresh ≠ 0 ∧ s.holdsElem rs1 ∧ s.regNat rs1 ≠ 0 ∧ s.fill = s.thresh)) (rd : Reg) :
    exec (.eval rd rs1) s = .next (s.raise .validation (encode (.eval rd rs1))) := by
  by_cases hthresh : s.thresh ≠ 0
  case neg => exact complete_of_require_neg hthresh ..
  refine (complete_of_require_pos hthresh ..).trans ?_
  by_cases h1 : s.holdsElem rs1
  case neg => exact complete_of_not_holdsElem h1 ..
  refine (complete_of_holdsElem h1 ..).trans ?_
  by_cases h0 : s.regNat rs1 ≠ 0
  case neg => exact complete_of_require_neg h0 ..
  refine (complete_of_require_pos h0 ..).trans ?_
  exact complete_of_require_neg (fun hfill => h ⟨hthresh, h1, h0, hfill⟩) ..

/-! ## The claims about the evaluator -/

/-- Settles O43: EVAL's loop is Horner's rule modulo x^B + PRIM(B), and at a nonzero x each turn of the
source's form is a turn of that loop. -/
theorem evalIsThePolynomialsValue : Obligations.EvalIsThePolynomialsValue := by
  intro rd rs1 s hs hthresh h1 hne hfill hcoef
  obtain ⟨hpos, h2, hw⟩ := hs.bounds
  have h0 := (regNat_ne_zero_iff s rs1).mpr hne
  obtain ⟨hread, helem, hframe⟩ := hs.setRegNat_elem rd
    (horner_lt s.field hpos (s.regNat rs1) s.coef hcoef)
  refine ⟨_, exec_eval hthresh h1 h0 hfill rd, helem, ?value, ?source, hframe⟩
  case value =>
    rw [hread]
    exact polyOf_horner hs.primitive h2 hw h1 hcoef
  case source => exact hread.trans (sourceHorner_eq_horner s.field h0 s.coef).symm

/-- Settles O38: SETT has the one check of its range; the clears have none. -/
theorem settAndTheClears : Obligations.SettAndTheClears :=
  fun _ _ => ⟨fun hmin hmax => exec_sett ⟨hmin, hmax⟩, rfl, rfl, rfl⟩

/-- Settles O39: the three checks of CPUSH pass. -/
theorem cpushAppendsOneCoefficient : Obligations.CpushAppendsOneCoefficient :=
  fun _ _ hthresh h1 hfill => exec_cpush hthresh h1 hfill

/-- Settles O44: every error but CPUSH's full buffer has the class ValidationError, so only the checks
before that one have to pass for it. -/
theorem evaluatorTraps : Obligations.EvaluatorTraps := by
  intro s rd rs1
  refine ⟨fun h => ?range, fun h => ?unset, fun h => ?notElem, fun hthresh h1 h => ?full,
    fun h => ?point⟩
  case range => exact exec_sett_trap (by omega)
  case unset =>
    exact ⟨exec_cpush_validation fun ⟨hset, _⟩ => hset h, exec_crand_validation h,
      exec_eval_validation (fun ⟨hset, _⟩ => hset h) rd⟩
  case notElem =>
    exact ⟨exec_cpush_validation fun ⟨_, h1⟩ => h h1, exec_eval_validation (fun ⟨_, h1, _⟩ => h h1) rd⟩
  case full => exact exec_cpush_capacity hthresh h1 h.not_gt
  case point =>
    refine exec_eval_validation (fun ⟨_, _, h0, hfill⟩ => ?_) rd
    exact h.elim ((regNat_ne_zero_iff s rs1).mp h0) fun hne => hne hfill

end Sys2Proof.Machine
end

section
/-! SUPPORT. The field itself (spec/41_gf.md R140, R141): the modulus of a primitive field is irreducible,
so its remainders are a field, and each element of the block names one of them. Lagrange's theorem is then
Mathlib's, over that field. -/

namespace Sys2Proof.Machine

open Polynomial

/-- Every polynomial of degree below n ≤ 32 is that of an n-bit integer (R140). -/
theorem exists_polyOf_eq {n : Nat} (hn : n ≤ 32) {p : (ZMod 2)[X]} (hp : p.degree < n) :
    ∃ a < 2 ^ n, polyOf a = p := by
  induction n generalizing p with
  | zero =>
    obtain rfl : p = 0 := by simpa using hp
    exact ⟨0, Nat.two_pow_pos 0, polyOf_zero⟩
  | succ n ih =>
    have hlow : (p - C (p.coeff n) * X ^ n).degree < (n : WithBot ℕ) := by
      rw [degree_lt_iff_coeff_zero]
      intro i hi
      obtain rfl | hlt := hi.eq_or_lt
      · simp
      · have hzero : p.coeff i = 0 := (degree_lt_iff_coeff_zero p (n + 1)).mp hp i hlt
        simp [hzero, coeff_X_pow, hlt.ne']
    obtain ⟨a, ha, hpoly⟩ := ih (by omega) hlow
    have ha' : a < 2 ^ (n + 1) := ha.trans (Nat.pow_lt_pow_right Nat.one_lt_two n.lt_succ_self)
    obtain hbit | hbit : p.coeff n = 0 ∨ p.coeff n = 1 := by
      generalize p.coeff n = bit
      revert bit
      decide
    · exact ⟨a, ha', by simpa [hbit] using hpoly⟩
    · refine ⟨a ^^^ 2 ^ n,
        Nat.xor_lt_two_pow ha' (Nat.pow_lt_pow_right Nat.one_lt_two n.lt_succ_self), ?_⟩
      rw [polyOf_xor, polyOf_two_pow (by omega), hpoly, hbit]
      simp

section

variable {F : FieldParams} (hF : PrimitiveField F) (h2 : 2 ≤ F.width) (hw : F.width ≤ 31)

include hF h2 hw

/-- A proper factor would be a power of x modulo the polynomial, and x has no factor in common with it. -/
theorem modulusOf_irreducible : Irreducible (modulusOf F) := by
  have hmonic := modulusOf_monic hF.lowOrder
  have hdegree := degree_modulusOf hF.lowOrder
  have hnat : (modulusOf F).natDegree = F.width := natDegree_eq_of_degree_eq_some hdegree
  have hne : modulusOf F ≠ 1 := fun h => by
    rw [h, natDegree_one] at hnat
    omega
  rw [hmonic.irreducible_iff_lt_natDegree_lt hne]
  intro q hq hmem hdvd
  obtain ⟨hpos, hle⟩ := Finset.mem_Ioc.mp hmem
  have hqdeg : q.degree < F.width := (natDegree_lt_iff_degree_lt hq.ne_zero).mp (by omega)
  obtain ⟨a, ha, rfl⟩ := exists_polyOf_eq (by omega) hqdeg
  have ha0 : a ≠ 0 := by
    rintro rfl
    exact hq.ne_zero polyOf_zero
  have hpow : polyOf a ∣ X ^ gfLog F a := by
    rw [← modByMonic_add_div (X ^ gfLog F a) (modulusOf F), ← polyOf_eq_X_pow_gfLog hF h2 hw ha0 ha]
    exact dvd_add dvd_rfl (hdvd.mul_right _)
  have hunit := ((isCoprime_X_modulusOf hF h2 hw).pow_left (m := gfLog F a)).isUnit_of_dvd' hpow hdvd
  exact hpos.ne' (natDegree_eq_zero_of_isUnit hunit)

end

/-! ## The elements of the field that integers name -/

/-- The remainder modulo x^b + PRIM(b) that the integer `a` stands for. -/
noncomputable def elem (F : FieldParams) (a : Nat) : AdjoinRoot (modulusOf F) :=
  AdjoinRoot.mk (modulusOf F) (polyOf a)

section

variable {F : FieldParams}

@[simp] theorem elem_zero : elem F 0 = 0 := by rw [elem, polyOf_zero, map_zero]

theorem elem_xor (a c : Nat) : elem F (a ^^^ c) = elem F a + elem F c := by
  rw [elem, polyOf_xor, map_add, elem, elem]

/-- In characteristic 2 a sum is a difference (R140). -/
theorem elem_xor_eq_sub (a c : Nat) : elem F (a ^^^ c) = elem F a - elem F c := by
  rw [elem, polyOf_xor, ← CharTwo.sub_eq_add, map_sub, elem, elem]

theorem mk_modByMonic (hp : F.prim < 2 ^ F.width) (p : (ZMod 2)[X]) :
    AdjoinRoot.mk (modulusOf F) (p %ₘ modulusOf F) = AdjoinRoot.mk (modulusOf F) p := by
  rw [← AdjoinRoot.modByMonicHom_mk (modulusOf_monic hp)]
  exact AdjoinRoot.mk_leftInverse (modulusOf_monic hp) _

variable (hF : PrimitiveField F) (h2 : 2 ≤ F.width) (hw : F.width ≤ 31)

include hF

/-- An element names the remainder of exactly the polynomials that reduce to it. -/
theorem elem_eq_mk_iff {a : Nat} (ha : a < 2 ^ F.width) (p : (ZMod 2)[X]) :
    elem F a = AdjoinRoot.mk (modulusOf F) p ↔ polyOf a = p %ₘ modulusOf F := by
  rw [elem, AdjoinRoot.mk_eq_mk]
  constructor
  · intro h
    rw [← polyOf_modByMonic hF.lowOrder ha]
    exact modByMonic_eq_of_dvd_sub (modulusOf_monic hF.lowOrder) h
  · intro h
    rw [← AdjoinRoot.mk_eq_mk, h, mk_modByMonic hF.lowOrder]

include hw

theorem elem_inj {a c : Nat} (ha : a < 2 ^ F.width) (hc : c < 2 ^ F.width) (h : elem F a = elem F c) :
    a = c := by
  refine elem_eq_of_polyOf_eq hw ha hc ?_
  rw [(elem_eq_mk_iff hF ha _).mp h, polyOf_modByMonic hF.lowOrder hc]

include h2

/-- EXP(i) names the i-th power of x (R142). -/
theorem elem_gfExp (i : Nat) : elem F (gfExp F i) = AdjoinRoot.root (modulusOf F) ^ i := by
  rw [gfExp_eq_expEntry hF h2 hw, elem, polyOf_expEntry (by omega) hw hF.lowOrder,
    mk_modByMonic hF.lowOrder, map_pow, AdjoinRoot.mk_X]

theorem root_pow_gfLog {a : Nat} (ha0 : a ≠ 0) (ha : a < 2 ^ F.width) :
    AdjoinRoot.root (modulusOf F) ^ gfLog F a = elem F a := by
  rw [← elem_gfExp hF h2 hw, gfExp_eq_expEntry hF h2 hw, (gfLog_spec hF (Nat.pos_of_ne_zero ha0) ha).2]

/-- Exponents of x may be reduced modulo MAX (R142). -/
theorem root_pow_mod_fieldMax (i : Nat) :
    AdjoinRoot.root (modulusOf F) ^ (i % fieldMax F) = AdjoinRoot.root (modulusOf F) ^ i := by
  rw [← elem_gfExp hF h2 hw, ← elem_gfExp hF h2 hw, gfExp, gfExp, Nat.mod_mod]

theorem root_pow_fieldMax : AdjoinRoot.root (modulusOf F) ^ fieldMax F = 1 := by
  rw [← root_pow_mod_fieldMax hF h2 hw, Nat.mod_self, pow_zero]

end

end Sys2Proof.Machine
end

section
/-! SUPPORT. The interpolator's loops (spec/43_interp.md R260 to R267): the inner loop multiplies up one
term of Lagrange's formula, the outer loop adds the terms up, and their sum is the value of the Lagrange
polynomial of the samples, whatever their order. -/

namespace Sys2Proof.Machine

open Polynomial

/-- Samples that R46 allows: elements of the field, with pairwise distinct x. -/
structure SamplesLegal (F : FieldParams) (samples : List (Nat × Nat)) : Prop where
  elems : ∀ p ∈ samples, p.1 < 2 ^ F.width ∧ p.2 < 2 ^ F.width
  distinct : (samples.map Prod.fst).Nodup

theorem BuffersLegal.samplesLegal {s : State} (h : BuffersLegal s) : SamplesLegal s.field s.samples where
  elems p hp := (h.sampleElem p hp).2
  distinct := h.sampleDistinct

namespace SamplesLegal

variable {F : FieldParams} {samples : List (Nat × Nat)} (h : SamplesLegal F samples)

include h

theorem perm {l : List (Nat × Nat)} (hperm : l.Perm samples) : SamplesLegal F l where
  elems p hp := h.elems p (hperm.mem_iff.mp hp)
  distinct := (hperm.map Prod.fst).nodup_iff.mpr h.distinct

theorem nodup : samples.Nodup := h.distinct.of_map Prod.fst

theorem fst_ne_of_mem_erase {p q : Nat × Nat} (hp : p ∈ samples) (hq : q ∈ samples.erase p) :
    p.1 ≠ q.1 := fun heq =>
  have ⟨hne, hmem⟩ := h.nodup.mem_erase_iff.mp hq
  hne (List.inj_on_of_nodup_map h.distinct hmem hp heq.symm)

theorem injOn_elem_fst (hF : PrimitiveField F) (hw : F.width ≤ 31) :
    Set.InjOn (fun p : Nat × Nat => elem F p.1) samples.toFinset := fun p hp q hq heq => by
  simp only [Finset.mem_coe, List.mem_toFinset] at hp hq
  exact List.inj_on_of_nodup_map h.distinct hp hq
    (elem_inj hF hw (h.elems p hp).1 (h.elems q hq).1 heq)

end SamplesLegal

/-- The outer loop adds up the samples' terms (R260). -/
theorem elem_interpolate_eq_sum {F : FieldParams} {samples : List (Nat × Nat)}
    (hnodup : samples.Nodup) (t : Nat) :
    elem F (interpolate F samples t)
      = (samples.map fun p => elem F (lagrangeTerm F t p (samples.erase p))).sum := by
  have hloop (l : List ((Nat × Nat) × Nat)) (sum : Nat) :
      elem F (l.foldl (fun sum p => sum ^^^ lagrangeTerm F t p.1 (samples.eraseIdx p.2)) sum)
        = elem F sum + (l.map fun p => elem F (lagrangeTerm F t p.1 (samples.eraseIdx p.2))).sum := by
    induction l generalizing sum with
    | nil => simp
    | cons p l ih => rw [List.foldl_cons, ih, elem_xor, List.map_cons, List.sum_cons, add_assoc]
  have hothers : ∀ p ∈ samples.zipIdx, samples.eraseIdx p.2 = samples.erase p.1 := fun p hp => by
    obtain ⟨hi, hx⟩ := List.mem_zipIdx' hp
    rw [hx, hnodup.erase_getElem]
  rw [interpolate, hloop, elem_zero, zero_add]
  conv_rhs => rw [← List.zipIdx_map_fst 0 samples, List.map_map]
  exact congrArg List.sum (List.map_congr_left fun p hp => by
    rw [hothers p hp, List.zipIdx_map_fst, Function.comp_apply])

/-- The Lagrange polynomial of the samples, over the field (R260). -/
noncomputable def lagrangePoly (F : FieldParams) [Fact (Irreducible (modulusOf F))]
    (samples : List (Nat × Nat)) : (AdjoinRoot (modulusOf F))[X] :=
  Lagrange.interpolate samples.toFinset (fun p => elem F p.1) fun p => elem F p.2

section

variable {F : FieldParams} (hF : PrimitiveField F) (h2 : 2 ≤ F.width) (hw : F.width ≤ 31)
  [Fact (Irreducible (modulusOf F))] {t : Nat} (ht : t < 2 ^ F.width)

include hF h2 hw

/-- One turn of the inner loop: adding one LOG and taking another away, with MAX so that nothing is
negative, is a multiplication and a division (R145, R260). -/
theorem root_pow_lagrange_turn {a d : Nat} (ha0 : a ≠ 0) (ha : a < 2 ^ F.width) (hd0 : d ≠ 0)
    (hd : d < 2 ^ F.width) (k : Nat) :
    AdjoinRoot.root (modulusOf F) ^ ((k + gfLog F a + fieldMax F - gfLog F d) % fieldMax F)
      = AdjoinRoot.root (modulusOf F) ^ k * ((elem F d)⁻¹ * elem F a) := by
  have hlog := (gfLog_spec hF (Nat.pos_of_ne_zero hd0) hd).1
  have hd' : elem F d ≠ 0 := fun hzero =>
    hd0 (elem_inj hF hw hd (Nat.two_pow_pos _) (hzero.trans elem_zero.symm))
  have hproduct : AdjoinRoot.root (modulusOf F) ^ (k + gfLog F a + fieldMax F - gfLog F d) * elem F d
      = AdjoinRoot.root (modulusOf F) ^ k * elem F a := by
    rw [← root_pow_gfLog hF h2 hw hd0 hd, ← pow_add, Nat.sub_add_cancel (by omega), pow_add, pow_add,
      root_pow_fieldMax hF h2 hw, mul_one, root_pow_gfLog hF h2 hw ha0 ha]
  rw [root_pow_mod_fieldMax hF h2 hw, (eq_mul_inv_iff_mul_eq₀ hd').mpr hproduct, mul_assoc,
    mul_comm (elem F a)]

include ht

/-- The inner loop multiplies by the other samples' factors; it breaks off where one of them is 0 (R260,
R263). -/
theorem elem_lagrangeLog {xi : Nat} (hxi : xi < 2 ^ F.width) {others : List (Nat × Nat)}
    (hothers : ∀ q ∈ others, xi ≠ q.1 ∧ q.1 < 2 ^ F.width) (k : Nat) :
    elem F ((lagrangeLog F t xi others k).elim 0 (gfExp F))
      = AdjoinRoot.root (modulusOf F) ^ k *
        (others.map fun q => (Lagrange.basisDivisor (elem F xi) (elem F q.1)).eval (elem F t)).prod := by
  induction others generalizing k with
  | nil => simpa [lagrangeLog] using elem_gfExp hF h2 hw k
  | cons q others ih =>
    obtain ⟨⟨hne, hq⟩, hrest⟩ := List.forall_mem_cons.mp hothers
    rw [List.map_cons, List.prod_cons, lagrangeLog]
    by_cases htq : t = q.1
    · simp [htq]
    · have hfactor : (Lagrange.basisDivisor (elem F xi) (elem F q.1)).eval (elem F t)
          = (elem F (xi ^^^ q.1))⁻¹ * elem F (t ^^^ q.1) := by
        simp [Lagrange.basisDivisor, elem_xor_eq_sub]
      rw [if_neg htq, ih hrest, hfactor, ← mul_assoc, root_pow_lagrange_turn hF h2 hw
        (mt Nat.xor_eq_zero_iff.mp htq) (Nat.xor_lt_two_pow ht hq) (mt Nat.xor_eq_zero_iff.mp hne)
        (Nat.xor_lt_two_pow hxi hq)]

/-- A sample's term is its y times its basis polynomial's value; a y of 0 needs no logarithm (R260,
R263). -/
theorem elem_lagrangeTerm {p : Nat × Nat} (hx : p.1 < 2 ^ F.width) (hy : p.2 < 2 ^ F.width)
    {others : List (Nat × Nat)} (hothers : ∀ q ∈ others, p.1 ≠ q.1 ∧ q.1 < 2 ^ F.width) :
    elem F (lagrangeTerm F t p others) = elem F p.2 *
      (others.map fun q => (Lagrange.basisDivisor (elem F p.1) (elem F q.1)).eval (elem F t)).prod := by
  by_cases h0 : p.2 = 0
  · simp [lagrangeTerm, h0]
  · rw [← root_pow_gfLog hF h2 hw h0 hy, ← elem_lagrangeLog hF h2 hw ht hx hothers, lagrangeTerm,
      if_neg h0]
    cases lagrangeLog F t p.1 others (gfLog F p.2) <;> rfl

/-- INTERP's result is the value of the Lagrange polynomial (R260, R265). -/
theorem elem_interpolate {samples : List (Nat × Nat)} (h : SamplesLegal F samples) :
    elem F (interpolate F samples t) = (lagrangePoly F samples).eval (elem F t) := by
  have hterm : ∀ p ∈ samples, elem F (lagrangeTerm F t p (samples.erase p))
      = (C (elem F p.2) * Lagrange.basis samples.toFinset (fun q => elem F q.1) p).eval (elem F t) := by
    intro p hp
    have hothers : (samples.erase p).toFinset = samples.toFinset.erase p := by
      ext q
      simp [h.nodup.mem_erase_iff]
    rw [elem_lagrangeTerm hF h2 hw ht (h.elems p hp).1 (h.elems p hp).2 fun q hq =>
      ⟨h.fst_ne_of_mem_erase hp hq, (h.elems q (List.mem_of_mem_erase hq)).1⟩, eval_mul, eval_C,
      Lagrange.basis, eval_prod, ← hothers, List.prod_toFinset _ (h.nodup.erase p)]
  rw [elem_interpolate_eq_sum h.nodup, List.map_congr_left hterm, ← List.sum_toFinset _ h.nodup,
    lagrangePoly, Lagrange.interpolate_apply, eval_finsetSum]

end

/-! ## Reconstruction (R263, R265, R267) -/

/-- The polynomial over the field with these coefficients, c[0] first. -/
noncomputable def coefPoly (F : FieldParams) : List Nat → (AdjoinRoot (modulusOf F))[X]
  | [] => 0
  | c :: rest => C (elem F c) + coefPoly F rest * X

theorem eval_coefPoly (F : FieldParams) (coef : List Nat) (x : Nat) :
    (coefPoly F coef).eval (elem F x) = AdjoinRoot.mk (modulusOf F) (evalPoly coef x) := by
  induction coef with
  | nil => simp [coefPoly]
  | cons c rest ih =>
    rw [coefPoly, evalPoly_cons, map_add, map_mul, ← ih, eval_add, eval_C, eval_mul, eval_X, elem, elem]

theorem degree_coefPoly_lt (F : FieldParams) (coef : List Nat) :
    (coefPoly F coef).degree < coef.length := by
  induction coef with
  | nil => simp [coefPoly]
  | cons c rest ih =>
    rw [degree_lt_iff_coeff_zero] at ih ⊢
    intro i hi
    cases i with
    | zero => simp at hi
    | succ i => simp [coefPoly, ih i (by simpa using hi)]

section

variable {F : FieldParams} (hF : PrimitiveField F) (h2 : 2 ≤ F.width) (hw : F.width ≤ 31)

include hF h2 hw

/-- At a sample's x the Lagrange polynomial has the sample's y (R263). -/
theorem interpolate_at_sample {samples : List (Nat × Nat)} (h : SamplesLegal F samples)
    {p : Nat × Nat} (hp : p ∈ samples) : interpolate F samples p.1 = p.2 := by
  have : Fact (Irreducible (modulusOf F)) := ⟨modulusOf_irreducible hF h2 hw⟩
  obtain ⟨hx, hy⟩ := h.elems p hp
  refine elem_inj hF hw (interpolate_lt F (by omega) _ _) hy ?_
  rw [elem_interpolate hF h2 hw hx h, lagrangePoly]
  exact Lagrange.eval_interpolate_at_node _ (h.injOn_elem_fst hF hw) (List.mem_toFinset.mpr hp)

variable {t : Nat} (ht : t < 2 ^ F.width)

include ht

/-- The Lagrange polynomial is that of the set of the samples (R267). -/
theorem interpolate_perm {samples l : List (Nat × Nat)} (h : SamplesLegal F samples)
    (hperm : l.Perm samples) : interpolate F l t = interpolate F samples t := by
  have : Fact (Irreducible (modulusOf F)) := ⟨modulusOf_irreducible hF h2 hw⟩
  refine elem_inj hF hw (interpolate_lt F (by omega) _ _) (interpolate_lt F (by omega) _ _) ?_
  rw [elem_interpolate hF h2 hw ht (h.perm hperm), elem_interpolate hF h2 hw ht h, lagrangePoly,
    lagrangePoly, List.toFinset_eq_of_perm _ _ hperm]

/-- Only one polynomial of degree below the number of samples goes through all of them (R265). -/
theorem polyOf_interpolate {samples : List (Nat × Nat)} (h : SamplesLegal F samples) {coef : List Nat}
    (hlength : coef.length ≤ samples.length)
    (hvalues : ∀ p ∈ samples, polyOf p.2 = evalPoly coef p.1 %ₘ modulusOf F) :
    polyOf (interpolate F samples t) = evalPoly coef t %ₘ modulusOf F := by
  have : Fact (Irreducible (modulusOf F)) := ⟨modulusOf_irreducible hF h2 hw⟩
  have hcard : (coefPoly F coef).degree < samples.toFinset.card := by
    rw [List.toFinset_card_of_nodup h.nodup]
    exact (degree_coefPoly_lt F coef).trans_le (Nat.cast_le.mpr hlength)
  have hthrough : ∀ p ∈ samples.toFinset, (coefPoly F coef).eval (elem F p.1) = elem F p.2 := by
    intro p hp
    have hmem := List.mem_toFinset.mp hp
    rw [eval_coefPoly]
    exact ((elem_eq_mk_iff hF (h.elems p hmem).2 _).mpr (hvalues p hmem)).symm
  have hunique : coefPoly F coef = lagrangePoly F samples :=
    Lagrange.eq_interpolate_of_eval_eq _ (h.injOn_elem_fst hF hw) hcard hthrough
  rw [← elem_eq_mk_iff hF (interpolate_lt F (by omega) _ _), elem_interpolate hF h2 hw ht h, ← hunique,
    eval_coefPoly]

end

/-- At 0 only coefficient 0 is left (R265). -/
theorem evalPoly_at_zero (coef : List Nat) : evalPoly coef 0 = polyOf (coef.headD 0) := by
  cases coef with
  | nil => simp
  | cons c rest => simp [evalPoly_cons]

/-- The value at 0, reduced, is coefficient 0 itself (R265). -/
theorem eq_headD_of_polyOf_eq {F : FieldParams} (hp : F.prim < 2 ^ F.width) (hw : F.width ≤ 31)
    {a : Nat} (ha : a < 2 ^ F.width) {coef : List Nat} (hcoef : ∀ c ∈ coef, c < 2 ^ F.width)
    (h : polyOf a = evalPoly coef 0 %ₘ modulusOf F) : a = coef.headD 0 := by
  have hhead : coef.headD 0 < 2 ^ F.width := by
    cases coef with
    | nil => exact Nat.two_pow_pos _
    | cons c rest => exact hcoef c List.mem_cons_self
  refine elem_eq_of_polyOf_eq hw ha hhead ?_
  rw [h, evalPoly_at_zero, polyOf_modByMonic hp hhead]

end Sys2Proof.Machine
end

section
/-! SUPPORT. The interpolator's commands SADD and INTERP (spec/43_interp.md R255, R260): what each answers
when every check passes, the error of its first failing check, and the claims about their results. -/

namespace Sys2Proof.Machine

/-! ## The sample buffer (R255) -/

theorem not_holdsX {samples : List (Nat × Nat)} {x : Nat} (h : ∀ p ∈ samples, p.1 ≠ x) :
    ¬ holdsX samples x = true := by
  rw [holdsX, List.any_eq_true]
  exact fun ⟨p, hp, heq⟩ => h p hp (beq_iff_eq.mp heq)

@[simp] theorem holdsX_append_cons (before after : List (Nat × Nat)) (x y : Nat) :
    holdsX (before ++ (x, y) :: after) x = true := by simp [holdsX]

theorem overwriteY_of_absent {samples : List (Nat × Nat)} {x : Nat} (h : ∀ p ∈ samples, p.1 ≠ x)
    (y : Nat) : overwriteY samples x y = samples :=
  (List.map_congr_left fun p hp => if_neg (h p hp)).trans (List.map_id' samples)

/-- The one entry with this x is replaced where it stands. -/
theorem overwriteY_append_cons {before after : List (Nat × Nat)} {x : Nat}
    (h : ∀ p ∈ before ++ after, p.1 ≠ x) (y y' : Nat) :
    overwriteY (before ++ (x, y) :: after) x y' = before ++ (x, y') :: after := by
  obtain ⟨hbefore, hafter⟩ := List.forall_mem_append.mp h
  have hsplit : overwriteY (before ++ (x, y) :: after) x y'
      = overwriteY before x y' ++ (x, y') :: overwriteY after x y' := by simp [overwriteY]
  rw [hsplit, overwriteY_of_absent hbefore, overwriteY_of_absent hafter]

/-! ## What the commands answer when every check passes -/

section

variable {s : State} {rs1 rs2 : Reg} (h1 : s.holdsElem rs1) (h2 : s.holdsElem rs2)
  (h0 : s.regNat rs1 ≠ 0)

include h1 h2 h0

/-- What SADD does once its operands have passed their checks (R255). -/
theorem exec_sadd : exec (.sadd rs1 rs2) s = complete (.sadd rs1 rs2) s
    (if holdsX s.samples (s.regNat rs1) then
      .ok { s with samples := overwriteY s.samples (s.regNat rs1) (s.regNat rs2) }
    else if s.scount = 4095 then .error .capacity
    else .ok { s with samples := s.samples ++ [(s.regNat rs1, s.regNat rs2)] }) :=
  (complete_of_holdsElem h1 ..).trans <| (complete_of_holdsElem h2 ..).trans <|
    complete_of_require_pos h0 ..

theorem exec_sadd_repeated (hx : holdsX s.samples (s.regNat rs1) = true) :
    exec (.sadd rs1 rs2) s
      = .next { s with samples := overwriteY s.samples (s.regNat rs1) (s.regNat rs2) } := by
  rw [exec_sadd h1 h2 h0, if_pos hx, complete_ok]

theorem exec_sadd_new (hx : ∀ p ∈ s.samples, p.1 ≠ s.regNat rs1) (hcap : s.scount ≠ 4095) :
    exec (.sadd rs1 rs2) s
      = .next { s with samples := s.samples ++ [(s.regNat rs1, s.regNat rs2)] } := by
  rw [exec_sadd h1 h2 h0, if_neg (not_holdsX hx), if_neg hcap, complete_ok]

/-- The full buffer is SADD's last check, and only a new x meets it (R255). -/
theorem exec_sadd_capacity (hx : ∀ p ∈ s.samples, p.1 ≠ s.regNat rs1) (hcap : s.scount = 4095) :
    exec (.sadd rs1 rs2) s = .next (s.raise .capacity (encode (.sadd rs1 rs2))) := by
  rw [exec_sadd h1 h2 h0, if_neg (not_holdsX hx), if_pos hcap, complete_error]

end

theorem exec_interp {s : State} {rs1 : Reg} (hthresh : s.thresh ≠ 0) (h1 : s.holdsElem rs1)
    (hcount : s.thresh ≤ s.scount) (rd : Reg) :
    exec (.interp rd rs1) s
      = .next (s.setRegNat rd (interpolate s.field s.samples (s.regNat rs1))) := by
  simp only [exec, execInterp, threshSet_ok hthresh, fieldOperand_of_holdsElem h1, require_pos hcount,
    except_ok_bind, complete_ok]

/-! ## The errors, in the order of the checks -/

/-- SADD's first three checks have the class ValidationError, so whichever fails first, the error is the
same (R255). -/
theorem exec_sadd_validation {s : State} {rs1 rs2 : Reg}
    (h : ¬ (s.holdsElem rs1 ∧ s.holdsElem rs2 ∧ s.regNat rs1 ≠ 0)) :
    exec (.sadd rs1 rs2) s = .next (s.raise .validation (encode (.sadd rs1 rs2))) := by
  by_cases h1 : s.holdsElem rs1
  case neg => exact complete_of_not_holdsElem h1 ..
  refine (complete_of_holdsElem h1 ..).trans ?_
  by_cases h2 : s.holdsElem rs2
  case neg => exact complete_of_not_holdsElem h2 ..
  refine (complete_of_holdsElem h2 ..).trans ?_
  exact complete_of_require_neg (fun h0 => h ⟨h1, h2, h0⟩) ..

/-- INTERP checks THRESH, then its operand; both have the class ValidationError (R260). -/
theorem exec_interp_validation {s : State} {rs1 : Reg} (h : ¬ (s.thresh ≠ 0 ∧ s.holdsElem rs1))
    (rd : Reg) :
    exec (.interp rd rs1) s = .next (s.raise .validation (encode (.interp rd rs1))) := by
  by_cases hthresh : s.thresh ≠ 0
  · refine (complete_of_require_pos hthresh ..).trans ?_
    exact complete_of_not_holdsElem (fun h1 => h ⟨hthresh, h1⟩) ..
  · exact complete_of_require_neg hthresh ..

/-- The number of samples is INTERP's last check (R260). -/
theorem exec_interp_insufficientShares {s : State} {rs1 : Reg} (hthresh : s.thresh ≠ 0)
    (h1 : s.holdsElem rs1) (hcount : ¬ s.thresh ≤ s.scount) (rd : Reg) :
    exec (.interp rd rs1) s = .next (s.raise .insufficientShares (encode (.interp rd rs1))) :=
  (complete_of_require_pos hthresh ..).trans <| (complete_of_holdsElem h1 ..).trans <|
    complete_of_require_neg hcount ..

/-! ## The claims about the interpolator -/

/-- At any legal width INTERP's result is read back as it was written, whatever the samples. -/
theorem setRegNat_interpolate {s : State} (hs : s.widthLegal) (rd : Reg) (t : Nat) :
    let u := s.setRegNat rd (interpolate s.field s.samples t)
    u.regNat rd = interpolate s.field s.samples t ∧ u.holdsElem rd ∧ OnlyRegsChange s u [rd] := by
  obtain ⟨hmin, hmax⟩ := hs
  have helem : interpolate s.field s.samples t < 2 ^ s.b :=
    interpolate_lt s.field (show 0 < s.b by omega) _ _
  have hread := regNat_setRegNat_same s rd
    (helem.trans (Nat.pow_lt_pow_right Nat.one_lt_two (show s.b < 32 by omega)))
  exact ⟨hread, hread.trans_lt helem, setRegNat_onlyRegsChange ..⟩

/-- Settles O45: SADD's three checks pass, and the buffer has no other entry with this x. -/
theorem saddInsertsOrOverwrites : Obligations.SaddInsertsOrOverwrites := by
  intro s rs1 rs2 h1 h2 hne
  have h0 := (regNat_ne_zero_iff s rs1).mpr hne
  refine ⟨fun hnew hcap => ?append, fun before after y hsamples hother => ?overwrite⟩
  case append => exact exec_sadd_new h1 h2 h0 hnew hcap.ne
  case overwrite =>
    have hx : holdsX s.samples (s.regNat rs1) = true := by rw [hsamples, holdsX_append_cons]
    rw [exec_sadd_repeated h1 h2 h0 hx, hsamples, overwriteY_append_cons hother]

/-- Settles O46: the Lagrange polynomial of the samples is the one they come from. -/
theorem interpReturnsThePolynomialsValue : Obligations.InterpReturnsThePolynomialsValue := by
  intro rd rs1 s coef hs hF hthresh h1 hcount hlength hcoef hvalues
  obtain ⟨-, h2, hw⟩ := FieldLegal.bounds ⟨hs.width, hF⟩
  obtain ⟨hread, helem, hframe⟩ := setRegNat_interpolate hs.width rd (s.regNat rs1)
  have hvalue := polyOf_interpolate hF h2 hw h1 hs.samplesLegal hlength hvalues
  refine ⟨_, exec_interp hthresh h1 hcount rd, helem, ?value, fun hzero => ?secret, hframe⟩
  case value => rw [hread, hvalue]
  case secret =>
    have ht : s.regNat rs1 = 0 := not_not.mp fun h0 => (regNat_ne_zero_iff s rs1).mp h0 hzero
    rw [ht] at hread hvalue ⊢
    rw [hread]
    exact eq_headD_of_polyOf_eq hF.lowOrder hw (interpolate_lt _ (by omega) _ _) hcoef hvalue

/-- Settles O47: the Lagrange polynomial goes through its samples. -/
theorem interpAtASampleGivesItsValue : Obligations.InterpAtASampleGivesItsValue := by
  intro rd rs1 s y hs hF hthresh hcount hmem
  obtain ⟨-, h2, hw⟩ := FieldLegal.bounds ⟨hs.width, hF⟩
  have h1 : s.holdsElem rs1 := (hs.samplesLegal.elems _ hmem).1
  obtain ⟨hread, -, hframe⟩ := setRegNat_interpolate hs.width rd (s.regNat rs1)
  exact ⟨_, exec_interp hthresh h1 hcount rd,
    hread.trans (interpolate_at_sample hF h2 hw hs.samplesLegal hmem), hframe⟩

/-- Settles O48: samples in another order have the same Lagrange polynomial. -/
theorem interpIgnoresTheSampleOrder : Obligations.InterpIgnoresTheSampleOrder := by
  intro rd rs1 s l hs hF hthresh h1 hcount hperm
  obtain ⟨-, h2, hw⟩ := FieldLegal.bounds ⟨hs.width, hF⟩
  have hcount' : s.thresh ≤ l.length := hcount.trans_eq hperm.length_eq.symm
  refine ⟨_, _, exec_interp hthresh h1 hcount rd,
    exec_interp (s := { s with samples := l }) hthresh h1 hcount' rd, ?_⟩
  rw [reg_setRegNat_same, reg_setRegNat_same]
  exact congrArg _ (interpolate_perm hF h2 hw h1 hs.samplesLegal hperm)

/-- Settles O49: what INTERP writes is an element of any legal width, and each error is that of the first
check that fails. -/
theorem interpolatorCompletesOrTraps : Obligations.InterpolatorCompletesOrTraps := by
  intro s rd rs1 rs2
  refine ⟨fun hs hthresh h1 hcount => ?completes, fun h => ?validation, fun hthresh h1 hcount => ?shares,
    fun h => ?saddValidation, fun h1 h2 hne hcap hnew => ?full⟩
  case completes =>
    obtain ⟨-, helem, hframe⟩ := setRegNat_interpolate hs rd (s.regNat rs1)
    exact ⟨_, exec_interp hthresh h1 hcount rd, helem, hframe⟩
  case validation =>
    exact exec_interp_validation (fun ⟨hthresh, h1⟩ => h.elim hthresh fun hn => hn h1) rd
  case shares => exact exec_interp_insufficientShares hthresh h1 hcount.not_ge rd
  case saddValidation =>
    refine exec_sadd_validation fun ⟨h1, h2, h0⟩ => ?_
    obtain hn | hn | hzero := h
    exacts [hn h1, hn h2, (regNat_ne_zero_iff s rs1).mp h0 hzero]
  case full =>
    exact exec_sadd_capacity h1 h2 ((regNat_ne_zero_iff s rs1).mpr hne) hnew hcap

end Sys2Proof.Machine
end

section
/-! SUPPORT. The bit codec's commands (spec/44_bitcodec.md R292 to R308) and the mnemonic codec's pushes
and pops of one word (spec/45_mnemonic.md R350, R352): what each answers when every check passes, the error
of its first failing check, and the claims about one command. -/

namespace Sys2Proof.Machine

/-! ## The bit buffer -/

theorem complete_pushBack {s : State} {bits : BitString} (h : s.bl + bits.length ≤ 4096) (i : Instr) :
    complete i s (s.pushBack bits) = .next { s with bb := s.bb ++ bits } :=
  congrArg (complete i s) (if_pos h)

theorem complete_pushBack_capacity {s : State} {bits : BitString} (h : 4096 < s.bl + bits.length)
    (i : Instr) : complete i s (s.pushBack bits) = .next (s.raise .capacity (encode i)) :=
  congrArg (complete i s) (if_neg h.not_ge)

theorem complete_pushFront {s : State} {bits : BitString} (h : s.bl + bits.length ≤ 4096) (i : Instr) :
    complete i s (s.pushFront bits) = .next { s with bb := bits ++ s.bb } :=
  congrArg (complete i s) (if_pos h)

theorem complete_pushFront_capacity {s : State} {bits : BitString} (h : 4096 < s.bl + bits.length)
    (i : Instr) : complete i s (s.pushFront bits) = .next (s.raise .capacity (encode i)) :=
  congrArg (complete i s) (if_neg h.not_ge)

/-- The state after a pop: the value of `bits` in rd, and `rest` left in the buffer (R294, R298, R352). -/
def State.popTo (s : State) (rd : Reg) (bits rest : BitString) : State :=
  { s.setRegNat rd (bitsVal bits) with bb := rest }

theorem complete_popFront {s : State} {bits rest : BitString} (hbb : s.bb = bits ++ rest) {n : Nat}
    (hlen : bits.length = n) (rd : Reg) (i : Instr) :
    complete i s (s.popFront n rd) = .next (s.popTo rd bits rest) := by
  have hn : n ≤ s.bl := by rw [State.bl, hbb, List.length_append]; omega
  rw [State.popFront, if_pos hn, hbb, List.take_left' hlen, List.drop_left' hlen, complete_ok,
    State.popTo]

theorem complete_popFront_capacity {s : State} {n : Nat} (h : s.bl < n) (rd : Reg) (i : Instr) :
    complete i s (s.popFront n rd) = .next (s.raise .capacity (encode i)) :=
  congrArg (complete i s) (if_neg h.not_ge)

/-- Bits that fit a register are read back as their value, and a pop changes nothing but rd and the
buffer. -/
theorem popTo_spec (s : State) (rd : Reg) {bits : BitString} (rest : BitString)
    (h : bits.length < 32) :
    (s.popTo rd bits rest).regNat rd = bitsVal bits ∧ (s.popTo rd bits rest).bb = rest ∧
      OnlyBitsAndRegsChange s (s.popTo rd bits rest) [rd] := by
  have hword : bitsVal bits < 2 ^ 32 :=
    (bitsVal_lt bits).trans (Nat.pow_lt_pow_right Nat.one_lt_two h)
  exact ⟨regNat_setRegNat_same s rd hword, rfl,
    fun _ hr => reg_setReg_other s _ (by simpa using hr), rfl⟩

/-! ## Operands -/

/-- A command whose next check is that of an integer in a range goes on with it (R292, R350). -/
theorem complete_of_rangeOperand {s : State} {r : Reg} {lo hi : Nat}
    (h : lo ≤ s.regNat r ∧ s.regNat r ≤ hi) (i : Instr) (rest : Nat → Except ErrorClass State) :
    complete i s (s.rangeOperand r lo hi >>= rest) = complete i s (rest (s.regNat r)) := by
  rw [rangeOperand_ok h, except_ok_bind]

theorem complete_of_not_rangeOperand {s : State} {r : Reg} {lo hi : Nat}
    (h : ¬ (lo ≤ s.regNat r ∧ s.regNat r ≤ hi)) (i : Instr) (rest : Nat → Except ErrorClass State) :
    complete i s (s.rangeOperand r lo hi >>= rest) = .next (s.raise .validation (encode i)) := by
  rw [rangeOperand_error h, except_error_bind, complete_error]

/-- A command with a group width goes on with it if it is legal (R300). -/
theorem complete_of_groupWidth {w : Nat} (h : 1 ≤ w ∧ w ≤ 32) (i : Instr) (s : State)
    (rest : Nat → Except ErrorClass State) :
    complete i s (groupWidth w >>= rest) = complete i s (rest w) :=
  congrArg (fun x => complete i s (x >>= rest)) (if_pos h)

theorem complete_of_not_groupWidth {w : Nat} (h : ¬ (1 ≤ w ∧ w ≤ 32)) (i : Instr) (s : State)
    (rest : Nat → Except ErrorClass State) :
    complete i s (groupWidth w >>= rest) = .next (s.raise .validation (encode i)) :=
  congrArg (fun x => complete i s (x >>= rest)) (if_neg h)

/-! ## What the commands answer when every check passes -/

theorem exec_bpushh {s : State} {rs1 : Reg} (h : s.regNat rs1 ≤ 15) (hcap : s.bl + 4 ≤ 4096) :
    exec (.bpushh rs1) s = .next { s with bb := s.bb ++ bitsOf 4 (s.regNat rs1) } :=
  (complete_of_rangeOperand ⟨Nat.zero_le _, h⟩ ..).trans <|
    complete_pushBack (by rwa [length_bitsOf]) _

theorem exec_bpushe {s : State} {rs1 : Reg} (h : s.holdsElem rs1) (hcap : s.bl + s.b ≤ 4096) :
    exec (.bpushe rs1) s = .next { s with bb := s.bb ++ bitsOf s.b (s.regNat rs1) } :=
  (complete_of_holdsElem h ..).trans <| complete_pushBack (by rwa [length_bitsOf]) _

theorem exec_bpushw {s : State} {rs1 : Reg} (h : s.regNat rs1 ≤ 2047) (hcap : s.bl + 11 ≤ 4096) :
    exec (.bpushw rs1) s = .next { s with bb := s.bb ++ bitsOf 11 (s.regNat rs1) } :=
  (complete_of_rangeOperand ⟨Nat.zero_le _, h⟩ ..).trans <|
    complete_pushBack (by rwa [length_bitsOf]) _

theorem exec_bpoph {s : State} {bits rest : BitString} (hbb : s.bb = bits ++ rest)
    (hlen : bits.length = 4) (rd : Reg) : exec (.bpoph rd) s = .next (s.popTo rd bits rest) :=
  complete_popFront hbb hlen ..

theorem exec_bpopw {s : State} {bits rest : BitString} (hbb : s.bb = bits ++ rest)
    (hlen : bits.length = 11) (rd : Reg) : exec (.bpopw rd) s = .next (s.popTo rd bits rest) :=
  complete_popFront hbb hlen ..

theorem exec_bpope {s : State} {bits rest : BitString} (hbb : s.bb = rest ++ bits) (hne : s.bl ≠ 0)
    (hlen : bits.length = min s.b s.bl) (rd : Reg) :
    exec (.bpope rd) s = .next (s.popTo rd bits rest) := by
  refine (complete_of_require_pos hne ..).trans ?_
  rw [complete_ok, ← hlen, hbb, takeBack_append, dropBack_append, State.popTo]

/-- The zeros that reach a multiple of w, modulo w (R300, R302). -/
theorem mod_eq_of_add_mod_eq_zero {n p w : Nat} (hw : 0 < w) (h : (n + p) % w = 0) :
    p % w = (w - n % w) % w := by
  have hpad : n + (w - n % w) = w * (n / w + 1) := by
    have hdiv := Nat.div_add_mod n w
    have hmod := Nat.mod_lt n hw
    rw [Nat.mul_succ]
    omega
  refine Nat.ModEq.add_left_cancel' n (h.trans ?_)
  rw [hpad, Nat.mul_mod_right]

/-- The one pad of BLPAD (R300). -/
theorem blpad_width {n p w : Nat} (hp1 : 1 ≤ p) (hpw : p ≤ w) (h : (n + p) % w = 0) :
    w - n % w = p := by
  have hw : 0 < w := by omega
  have hmod := mod_eq_of_add_mod_eq_zero hw h
  have hlt := Nat.mod_lt n hw
  obtain hr | hr : n % w = 0 ∨ w - n % w < w := by omega
  · rw [hr, Nat.sub_zero, Nat.mod_self] at hmod
    have hle := Nat.le_of_dvd hp1 (Nat.dvd_of_mod_eq_zero hmod)
    omega
  · rw [Nat.mod_eq_of_lt hr] at hmod
    obtain rfl | hplt := hpw.eq_or_lt
    · rw [Nat.mod_self] at hmod
      omega
    · exact (hmod.symm.trans (Nat.mod_eq_of_lt hplt))

/-- The one pad of BALIGN (R302). -/
theorem balign_width {n p w : Nat} (hpw : p < w) (h : (n + p) % w = 0) : (w - n % w) % w = p :=
  (mod_eq_of_add_mod_eq_zero (by omega) h).symm.trans (Nat.mod_eq_of_lt hpw)

section

variable {s : State} {w p : Nat} (hw : 1 ≤ w ∧ w ≤ 32) (hmul : (s.bl + p) % w = 0)

include hw hmul

/-- What BLPAD does once its width has passed its check (R300). -/
theorem exec_blpad_eq (hp1 : 1 ≤ p) (hpw : p ≤ w) :
    exec (.blpad w) s = complete (.blpad w) s (s.pushFront (List.replicate p false)) := by
  refine (complete_of_groupWidth hw ..).trans ?_
  rw [blpad_width hp1 hpw hmul, zeroBits]

/-- What BALIGN does once its width has passed its check (R302). -/
theorem exec_balign_eq (hpw : p < w) :
    exec (.balign w) s = complete (.balign w) s (s.pushFront (List.replicate p false)) := by
  refine (complete_of_groupWidth hw ..).trans ?_
  rw [balign_width hpw hmul, zeroBits]

theorem exec_blpad (hp1 : 1 ≤ p) (hpw : p ≤ w) (hcap : s.bl + p ≤ 4096) :
    exec (.blpad w) s = .next { s with bb := List.replicate p false ++ s.bb } :=
  (exec_blpad_eq hw hmul hp1 hpw).trans <| complete_pushFront (by rwa [List.length_replicate]) _

theorem exec_balign (hpw : p < w) (hcap : s.bl + p ≤ 4096) :
    exec (.balign w) s = .next { s with bb := List.replicate p false ++ s.bb } :=
  (exec_balign_eq hw hmul hpw).trans <| complete_pushFront (by rwa [List.length_replicate]) _

end

theorem exec_btrim {s : State} {w : Nat} (hw : 1 ≤ w ∧ w ≤ 32) {front rest : BitString}
    (hbb : s.bb = front ++ rest) (hfront : front.length < w) (hrest : rest.length % w = 0) :
    exec (.btrim w) s = .next { s with bb := rest } := by
  have hlen : s.bl % w = front.length := by
    rw [State.bl, hbb, List.length_append, Nat.add_mod, hrest, Nat.add_zero, Nat.mod_mod,
      Nat.mod_eq_of_lt hfront]
  refine (complete_of_groupWidth hw ..).trans ?_
  rw [complete_ok, hlen, hbb, List.drop_left]

theorem exec_bsent {s : State} (h : s.bl < 4096) :
    exec .bsent s = .next { s with bb := true :: s.bb } :=
  complete_pushFront (bits := [true]) h _

/-- BSTRIP drops a run of zeros and the 1 after it (R308). -/
theorem exec_bstrip {s : State} {k : Nat} {rest : BitString}
    (hbb : s.bb = List.replicate k false ++ true :: rest) :
    exec .bstrip s = .next { s with bb := rest } := by
  have hmem : true ∈ s.bb := by simp [hbb]
  have hindex : s.bb.idxOf true = k := by
    rw [hbb, List.idxOf_append_of_notMem (by simp), List.idxOf_cons_self, List.length_replicate,
      Nat.add_zero]
  have hdrop : s.bb.drop (k + 1) = rest := by
    rw [hbb, ← List.drop_drop, List.drop_left' List.length_replicate, List.drop_one, List.tail_cons]
  refine (complete_of_require_pos hmem ..).trans ?_
  rw [complete_ok, hindex, hdrop]

/-! ## The claims about one command -/

/-- Settles O50: the bits appended are those of the value at the command's own width (R13). -/
theorem pushesAppendTheValuesBits : Obligations.PushesAppendTheValuesBits := by
  intro s rs1
  refine ⟨fun h hcap => ?digit, fun h hcap => ?element, fun h hcap => ?word⟩
  case digit =>
    exact ⟨_, length_bitsOf .., bitsVal_bitsOf (Nat.lt_succ_of_le h), exec_bpushh h hcap⟩
  case element => exact ⟨_, length_bitsOf .., bitsVal_bitsOf h, exec_bpushe h hcap⟩
  case word =>
    exact ⟨_, length_bitsOf .., bitsVal_bitsOf (Nat.lt_succ_of_le h), exec_bpushw h hcap⟩

/-- Settles O51: at most 20 bits are popped, and those fit a register. -/
theorem popsTakeTheBitsValue : Obligations.PopsTakeTheBitsValue := by
  intro s rd bits rest
  refine ⟨fun hbb hlen => ?digit, fun hbb hlen => ?word, fun hbb hne hb hlen => ?chunk⟩
  case digit => exact ⟨_, exec_bpoph hbb hlen rd, popTo_spec s rd rest (by omega)⟩
  case word => exact ⟨_, exec_bpopw hbb hlen rd, popTo_spec s rd rest (by omega)⟩
  case chunk =>
    exact ⟨_, exec_bpope hbb (mt List.length_eq_zero_iff.mp hne) hlen rd,
      popTo_spec s rd rest (by omega)⟩

/-- Settles O52: one number of zeros in 1..w, and one in 0..w-1, reaches a multiple of w. -/
theorem padsAndTrimReachAMultiple : Obligations.PadsAndTrimReachAMultiple :=
  fun _ _ h1 h32 =>
    ⟨fun _ hp1 hpw hmul hcap => exec_blpad ⟨h1, h32⟩ hmul hp1 hpw hcap,
      fun _ hpw hmul hcap => exec_balign ⟨h1, h32⟩ hmul hpw hcap,
      fun _ _ hbb hfront hrest => exec_btrim ⟨h1, h32⟩ hbb hfront hrest⟩

/-- Settles O53: there is room for the sentinel, and the first 1 ends the run of zeros before it. -/
theorem sentinelIsPrependedAndStripped : Obligations.SentinelIsPrependedAndStripped :=
  fun _ => ⟨exec_bsent, fun _ _ hbb => exec_bstrip hbb⟩

/-- Settles O54: the operand is checked before the room in the buffer; pads have the width's check
first. -/
theorem bitCodecTraps : Obligations.BitCodecTraps := by
  intro s rd rs1 w
  refine ⟨fun h => ?digit, fun h hcap => ?digitFull, fun h => ?element, fun h hcap => ?elementFull,
    fun h => ?popDigit, fun h => ?popChunk, fun h => ?width, fun p h1 h32 hmul hcap => ?padFull,
    fun h => ?sentinelFull, fun h => ?noSentinel⟩
  case digit => exact complete_of_not_rangeOperand (by omega) ..
  case digitFull =>
    exact (complete_of_rangeOperand ⟨Nat.zero_le _, h⟩ ..).trans <|
      complete_pushBack_capacity (by rwa [length_bitsOf]) _
  case element => exact complete_of_not_holdsElem h ..
  case elementFull =>
    exact (complete_of_holdsElem h ..).trans <|
      complete_pushBack_capacity (by rwa [length_bitsOf]) _
  case popDigit => exact complete_popFront_capacity h ..
  case popChunk =>
    have hempty : s.bl = 0 := List.length_eq_zero_iff.mpr h
    exact complete_of_require_neg (not_not.mpr hempty) ..
  case width =>
    have htrap := complete_of_not_groupWidth (w := w) (by omega)
    exact ⟨htrap .., htrap .., htrap ..⟩
  case padFull =>
    have hfull := complete_pushFront_capacity (s := s) (bits := List.replicate p false)
      (by rwa [List.length_replicate])
    exact ⟨fun hp1 hpw => (exec_blpad_eq ⟨h1, h32⟩ hmul hp1 hpw).trans (hfull _),
      fun hpw => (exec_balign_eq ⟨h1, h32⟩ hmul hpw).trans (hfull _)⟩
  case sentinelFull => exact complete_pushFront_capacity (bits := [true]) (Nat.lt_succ_of_le h) _
  case noSentinel =>
    exact complete_of_require_neg (fun hmem => Bool.noConfusion (h true hmem)) ..

end Sys2Proof.Machine
end

section
/-! SUPPORT. The host's sequences over the bit codec (spec/44_bitcodec.md section 6): pushing values one by
one concatenates their groups, popping takes the groups apart again, so the round trips of hexadecimal
digits (R310 to R314) and of field-element chunks (R316, spec/45_mnemonic.md R364) give back what went
in. -/

namespace Sys2Proof.Machine

/-! ## Groups of bits (R13) -/

/-- Strings of one length spell different integers. -/
theorem eq_of_bitsVal_eq {s t : BitString} (hlen : s.length = t.length) (h : bitsVal s = bitsVal t) :
    s = t := by
  induction s generalizing t with
  | nil => exact (List.length_eq_zero_iff.mp hlen.symm).symm
  | cons a s ih =>
    obtain _ | ⟨c, t⟩ := t
    · cases hlen
    have hlen' : s.length = t.length := Nat.succ.inj hlen
    have hs := bitsVal_lt s
    have ht := bitsVal_lt t
    rw [bitsVal, bitsVal, ← hlen'] at h
    rw [← hlen'] at ht
    cases a <;> cases c <;> simp only [Bool.toNat_false, Bool.toNat_true] at h
    case false.true | true.false => omega
    all_goals rw [ih hlen' (by omega)]

/-- The n bits of what a string of at most n bits spells are that string, after leading zeros. -/
theorem bitsOf_bitsVal {s : BitString} {n : Nat} (h : s.length ≤ n) :
    bitsOf n (bitsVal s) = zeroBits (n - s.length) ++ s := by
  refine eq_of_bitsVal_eq (by simp [h]) ?_
  rw [bitsVal_bitsOf ((bitsVal_lt s).trans_le (Nat.pow_le_pow_right Nat.two_pos h)), bitsVal_append,
    bitsVal_zeroBits, Nat.zero_mul, Nat.zero_add]

@[simp] theorem length_flatMap_bitsOf (n : Nat) (l : List Nat) :
    (l.flatMap (bitsOf n)).length = n * l.length := by
  simp [List.length_flatMap, Nat.mul_comm]

/-! ## One command of a sequence -/

theorem after_of_exec {s t : State} {i : Instr} (herr : s.err = false) (hwf : i.wellFormed = true)
    (hexec : exec i s = .next t) : s.after i = t := by
  rw [State.after, writeCmd_of_decode herr (decodeOfEncodeIsTheCommand i hwf), hexec]

/-- What the round trips look at in a state: no error is latched, the width is `b` and the buffer holds
`bb`. -/
structure CodecState (s : State) (b : Nat) (bb : BitString) : Prop where
  err : s.err = false
  width : s.b = b
  bits : s.bb = bb

section

variable {s : State} {b : Nat} {bb : BitString}

theorem CodecState.bl_eq (h : CodecState s b bb) : s.bl = bb.length := congrArg List.length h.bits

/-- A command that writes only the buffer. -/
theorem CodecState.after_write (h : CodecState s b bb) {i : Instr} (hwf : i.wellFormed = true)
    {bb' : BitString} (hexec : exec i s = .next { s with bb := bb' }) :
    CodecState (s.after i) b bb' := by
  rw [after_of_exec h.err hwf hexec]
  exact ⟨h.err, h.width, rfl⟩

/-- A command that pops a group to a register. -/
theorem CodecState.after_pop (h : CodecState s b bb) {i : Instr} (hwf : i.wellFormed = true) {q : Reg}
    {group rest : BitString} (hlen : group.length < 32)
    (hexec : exec i s = .next (s.popTo q group rest)) :
    CodecState (s.after i) b rest ∧ (s.after i).regNat q = bitsVal group := by
  obtain ⟨hread, -, -⟩ := popTo_spec s q rest hlen
  rw [after_of_exec h.err hwf hexec]
  exact ⟨⟨h.err, h.width, rfl⟩, hread⟩

theorem CodecState.after_bstrip {k : Nat}
    (h : CodecState s b (List.replicate k false ++ true :: bb)) : CodecState (s.after .bstrip) b bb :=
  h.after_write rfl (exec_bstrip h.bits)

/-- BALIGN 4 leaves the block as it is once the length is a multiple of 4 (R312). -/
theorem after_balign_of_aligned (herr : s.err = false) (hmul : s.bl % 4 = 0) (hcap : s.bl ≤ 4096) :
    s.after (.balign 4) = s :=
  after_of_exec herr rfl (exec_balign (p := 0) (by decide) hmul (by decide) hcap)

/-! ## Pushing values one by one -/

/-- A push of n bits, repeated, appends the values' groups in order (R310, R316). -/
theorem CodecState.after_pushEach {r : Reg} {i : Instr} {n : Nat} (hwf : i.wellFormed = true)
    (hn : n ≤ 32)
    (hpush : ∀ u : State, u.b = b → u.regNat r < 2 ^ n → u.bl + n ≤ 4096 →
      exec i u = .next { u with bb := u.bb ++ bitsOf n (u.regNat r) })
    {vs : List Nat} (hvs : ∀ v ∈ vs, v < 2 ^ n) (h : CodecState s b bb)
    (hcap : bb.length + n * vs.length ≤ 4096) :
    CodecState (pushEach r i vs s) b (bb ++ vs.flatMap (bitsOf n)) := by
  induction vs generalizing s bb with
  | nil => simpa [pushEach] using h
  | cons v vs ih =>
    obtain ⟨hv, hvs⟩ := List.forall_mem_cons.mp hvs
    rw [List.length_cons, Nat.mul_succ] at hcap
    have hwritten : CodecState (s.setRegNat r v) b bb := ⟨h.err, h.width, h.bits⟩
    have hread : (s.setRegNat r v).regNat r = v :=
      regNat_setRegNat_same s r (hv.trans_le (Nat.pow_le_pow_right Nat.two_pos hn))
    have hexec := hpush (s.setRegNat r v) hwritten.width (by rwa [hread])
      (by rw [hwritten.bl_eq]; omega)
    rw [hread, hwritten.bits] at hexec
    have hrest := ih hvs (hwritten.after_write hwf hexec)
      (by rw [List.length_append, length_bitsOf]; omega)
    rwa [List.append_assoc] at hrest

/-! ## Popping until the buffer is empty -/

theorem popEach_of_bl_eq_zero (h : s.bl = 0) (q : Reg) (i : Instr) (fuel : Nat) :
    popEach q i fuel s = ([], s) := by
  cases fuel with
  | zero => rfl
  | succ fuel => exact if_pos h

theorem popEach_of_bl_ne_zero (h : s.bl ≠ 0) (q : Reg) (i : Instr) (fuel : Nat) :
    popEach q i (fuel + 1) s = ((s.after i).regNat q :: (popEach q i fuel (s.after i)).1,
      (popEach q i fuel (s.after i)).2) := if_neg h

/-- BPOPH until the buffer is empty reads the digits back in order (R312). -/
theorem CodecState.popEach_digits (q : Reg) {digits : List Nat} (hdigits : ∀ d ∈ digits, d < 16)
    (h : CodecState s b (digits.flatMap (bitsOf 4))) :
    (popEach q (.bpoph q) digits.length s).1 = digits ∧
      CodecState (popEach q (.bpoph q) digits.length s).2 b [] := by
  induction digits generalizing s with
  | nil => exact ⟨rfl, h⟩
  | cons d digits ih =>
    obtain ⟨hd, hdigits⟩ := List.forall_mem_cons.mp hdigits
    have hne : s.bl ≠ 0 := by simp [h.bl_eq]
    have hlen := length_bitsOf 4 d
    obtain ⟨hnext, hread⟩ := h.after_pop rfl (by omega) (exec_bpoph h.bits hlen q)
    obtain ⟨hvalues, hend⟩ := ih hdigits hnext
    rw [List.length_cons, popEach_of_bl_ne_zero hne]
    exact ⟨congrArg₂ _ (hread.trans (bitsVal_bitsOf hd)) hvalues, hend⟩

/-- BPOPE takes the last min(B, BL) bits (R298). -/
theorem CodecState.after_bpope (q : Reg) (hb : b ≤ 20) (h : CodecState s b bb) (hne : s.bl ≠ 0) :
    ∃ rest chunk, bb = rest ++ chunk ∧ chunk.length = min b (rest.length + chunk.length) ∧
      CodecState (s.after (.bpope q)) b rest ∧ (s.after (.bpope q)).regNat q = bitsVal chunk := by
  obtain ⟨rest, chunk, rfl, hlen⟩ : ∃ rest chunk, bb = rest ++ chunk ∧ chunk.length = min b s.bl :=
    ⟨_, _, (dropBack_append_takeBack (min b s.bl) bb).symm, by simp [takeBack, h.bl_eq]; omega⟩
  refine ⟨rest, chunk, rfl, by rwa [← List.length_append, ← h.bl_eq], ?_⟩
  exact h.after_pop rfl (by omega) (exec_bpope h.bits hne (by rw [h.width, hlen]) q)

/-- BPOPE until the buffer is empty reads elements whose groups, the last one read first, are the buffer's
bits after fewer than B leading zeros (R298, R316). -/
theorem CodecState.popEach_chunks (q : Reg) (hpos : 0 < b) (hb : b ≤ 20) {fuel : Nat}
    (h : CodecState s b bb) (hfuel : bb.length ≤ fuel) :
    ∃ k < b, (popEach q (.bpope q) fuel s).1.reverse.flatMap (bitsOf b) = zeroBits k ++ bb ∧
      (∀ v ∈ (popEach q (.bpope q) fuel s).1, v < 2 ^ b) ∧
      CodecState (popEach q (.bpope q) fuel s).2 b [] := by
  induction fuel generalizing s bb with
  | zero =>
    obtain rfl := List.length_eq_zero_iff.mp (Nat.le_zero.mp hfuel)
    exact ⟨0, hpos, rfl, List.forall_mem_nil _, h⟩
  | succ fuel ih =>
    by_cases hempty : s.bl = 0
    · obtain rfl := List.length_eq_zero_iff.mp (h.bl_eq.symm.trans hempty)
      rw [popEach_of_bl_eq_zero hempty]
      exact ⟨0, hpos, rfl, List.forall_mem_nil _, h⟩
    obtain ⟨rest, chunk, rfl, hlen, hnext, hread⟩ := h.after_bpope q hb hempty
    have hbl := h.bl_eq
    rw [List.length_append] at hbl hfuel
    obtain ⟨k, hk, hbits, hvalues, hend⟩ := ih hnext (by omega)
    have hchunk : bitsVal chunk < 2 ^ b :=
      (bitsVal_lt chunk).trans_le (Nat.pow_le_pow_right Nat.two_pos (by omega))
    have hall := (List.forall_mem_cons (p := (· < 2 ^ b))).mpr ⟨hchunk, hvalues⟩
    rw [popEach_of_bl_ne_zero hempty, hread, List.reverse_cons, List.flatMap_append, hbits,
      List.flatMap_singleton, bitsOf_bitsVal (by omega : chunk.length ≤ b)]
    by_cases hlast : rest = []
    -- only the front chunk of the string can be short: BPOPE takes it last
    · subst hlast
      obtain rfl : k = 0 := by
        rw [popEach_of_bl_eq_zero hnext.bl_eq] at hbits
        simpa [zeroBits] using hbits
      rw [List.length_nil] at hbl
      exact ⟨b - chunk.length, by omega, rfl, hall, hend⟩
    · have hfull : b - chunk.length = 0 := by
        have := List.length_pos_of_ne_nil hlast
        omega
      exact ⟨k, hk, by rw [hfull, List.append_assoc]; rfl, hall, hend⟩

end

/-! ## The round trips -/

/-- Settles O55: the digits' groups fill the buffer to a multiple of 4, and are popped in order. -/
theorem hexRoundTrip : Obligations.HexRoundTrip := by
  intro s r q digits herr hdigits hcap pushed aligned popped
  have hcleared : CodecState (s.after .bclr) s.b [] :=
    CodecState.after_write ⟨herr, rfl, rfl⟩ rfl rfl
  have hpushed : CodecState pushed s.b (digits.flatMap (bitsOf 4)) :=
    hcleared.after_pushEach rfl (by decide) (fun _ _ hv hroom => exec_bpushh (Nat.le_of_lt_succ hv) hroom)
      hdigits (by simpa using hcap)
  have hbl : pushed.bl = 4 * digits.length := by rw [hpushed.bl_eq, length_flatMap_bitsOf]
  have haligned : aligned = pushed := after_balign_of_aligned hpushed.err (by omega) (by omega)
  obtain ⟨hvalues, hend⟩ := hpushed.popEach_digits q hdigits
  rw [← haligned] at hvalues hend
  refine ⟨hpushed.bits, hbl, haligned, ?_, hvalues, hend.bits, hend.err⟩
  rw [haligned]
  exact haligned

/-- Whole chunks that start with fewer than b zeros are no longer than the other bits rounded up to a
multiple of b (R316). -/
theorem chunks_le_ceil {b n k len : Nat} (hk : k < b) (h : b * n = k + len) :
    b * n ≤ (len + (b - 1)) / b * b := by
  rw [Nat.mul_comm] at h ⊢
  exact Nat.mul_le_mul_right b ((Nat.le_div_iff_mul_le (by omega)).mpr (by omega))

/-- Settles O56: the chunks spell the padded secret after the sentinel and fewer than B leading zeros;
BSTRIP drops those with the sentinel, and BTRIM 11 the pad, which is shorter than a word. -/
theorem chunkRoundTrip : Obligations.ChunkRoundTrip := by
  intro s r q herr hwidth hbl hcap chunks rebuilt
  obtain ⟨hmin, hmax⟩ := hwidth
  generalize hp : 4 - s.bl % 4 = p at hcap ⊢
  have hceil : s.bl + p + 1 ≤ (s.bl + p + 1 + (s.b - 1)) / s.b * s.b := by
    have := Nat.lt_div_mul_add (a := s.bl + p + 1 + (s.b - 1)) (show 0 < s.b by omega)
    omega
  have hpadded : CodecState (s.after (.blpad 4)) s.b (List.replicate p false ++ s.bb) :=
    CodecState.after_write ⟨herr, rfl, rfl⟩ rfl
      (exec_blpad (by decide) (by omega) (by omega) (by omega) (by omega))
  have hlen : (List.replicate p false ++ s.bb).length = s.bl + p := by
    rw [List.length_append, List.length_replicate, Nat.add_comm, State.bl]
  have hsent : CodecState ((s.after (.blpad 4)).after .bsent) s.b
      (true :: (List.replicate p false ++ s.bb)) := by
    have hexec := exec_bsent (by rw [hpadded.bl_eq]; omega : (s.after (.blpad 4)).bl < 4096)
    rw [hpadded.bits] at hexec
    exact hpadded.after_write rfl hexec
  obtain ⟨k, hk, hbits, hvalues, hend⟩ := hsent.popEach_chunks q (by omega) hmax
    (show _ ≤ 4096 by rw [List.length_cons]; omega)
  have hroom : s.b * chunks.1.reverse.length ≤ 4096 := by
    refine (chunks_le_ceil hk ?_).trans hcap
    rw [← length_flatMap_bitsOf, hbits, List.length_append, length_zeroBits, List.length_cons, hlen]
  have hcleared : CodecState (chunks.2.after .bclr) s.b [] := hend.after_write rfl rfl
  have hpushed := hcleared.after_pushEach (r := r) (i := .bpushe r) rfl (by omega : s.b ≤ 32)
    (fun u hu hv hroom => by
      rw [← hu] at hv hroom ⊢
      exact exec_bpushe hv hroom)
    (fun v hv => hvalues v (List.mem_reverse.mp hv)) (by simpa using hroom)
  rw [List.nil_append, hbits] at hpushed
  have hrebuilt : CodecState rebuilt s.b (List.replicate p false ++ s.bb) := hpushed.after_bstrip
  refine ⟨hend.bits, hrebuilt.bits, hrebuilt.err, fun hmul => ?_⟩
  refine (hrebuilt.after_write rfl ?_).bits
  exact exec_btrim (by decide) hrebuilt.bits (by rw [List.length_replicate]; omega) hmul

end Sys2Proof.Machine
end

section
/-! SUPPORT. PENC, the parameter block as words and the traps of the mnemonic codec
(spec/45_mnemonic.md R350 to R360): the block's bits are those of its parameter words, so PENC appends
words, and the loop of PDEC takes apart what PENC put together. -/

namespace Sys2Proof.Machine

/-! ## How many parameter words (R354) -/

theorem bitLength_le_iff (v n : Nat) : bitLength v ≤ n ↔ v < 2 ^ n := by
  unfold bitLength
  split
  next h => simp [h]
  next h => rw [Nat.succ_le_iff, Nat.log2_lt h]

/-- As many words as the groups of 5 bits that both numbers fit in. -/
theorem paramGroups_le_iff (m o g : Nat) : paramGroups m o ≤ g ↔ max m o < 32 ^ g := by
  have hgroups : paramGroups m o ≤ g ↔ max (bitLength m) (bitLength o) ≤ 5 * g := by
    simp only [paramGroups, Config.groupBits]
    omega
  rw [hgroups, max_le_iff, max_lt_iff, bitLength_le_iff, bitLength_le_iff, pow_mul]
  rfl

theorem paramGroups_eq_succ_iff (m o n : Nat) :
    paramGroups m o = n + 1 ↔ 32 ^ n ≤ max m o ∧ max m o < 32 ^ (n + 1) := by
  rw [← paramGroups_le_iff, ← not_lt, ← paramGroups_le_iff]
  omega

/-! ## The words of a parameter block (R354, R356) -/

/-- One parameter word: the continuation bit, and the last 5 bits of m and of o. -/
def paramWord (cont : Bool) (m o : Nat) : Nat := cont.toNat * 1024 + m % 32 * 32 + o % 32

/-- The n words that stand before the last word of (m, o), most significant group first. -/
def continuedWords (n m o : Nat) : List Nat :=
  (List.range n).map fun k => paramWord true (m / 32 ^ (n - k)) (o / 32 ^ (n - k))

/-- The parameter block of n + 1 words: only the last has continuation 0. -/
def paramBlock (n m o : Nat) : List Nat := continuedWords n m o ++ [paramWord false m o]

theorem paramWord_groups (cont : Bool) (m o : Nat) :
    paramWord cont m o / 32 % 32 = m % 32 ∧ paramWord cont m o % 32 = o % 32 := by
  unfold paramWord
  omega

theorem paramWord_true_bounds (m o : Nat) :
    1024 ≤ paramWord true m o ∧ paramWord true m o < 2048 := by
  rw [paramWord, Bool.toNat_true]
  omega

theorem paramWord_false_lt (m o : Nat) : paramWord false m o < 1024 := by
  rw [paramWord, Bool.toNat_false]
  omega

/-- The n bits of a number are those of its remainder modulo 2 ^ n. -/
theorem bitsOf_congr {n v w : Nat} (h : v % 2 ^ n = w % 2 ^ n) : bitsOf n v = bitsOf n w :=
  eq_of_bitsVal_eq (by simp) (by rw [bitsVal_bitsOf_mod, bitsVal_bitsOf_mod, h])

theorem bitsOf_paramWord (cont : Bool) (m o : Nat) :
    bitsOf 11 (paramWord cont m o) = cont :: (bitsOf 5 m ++ bitsOf 5 o) := by
  obtain ⟨hm, ho⟩ := paramWord_groups cont m o
  have hcont : (paramWord cont m o).testBit 10 = cont := by
    cases cont with
    | false => exact Nat.testBit_lt_two_pow (paramWord_false_lt m o)
    | true =>
      obtain ⟨hlow, hhigh⟩ := paramWord_true_bounds m o
      rw [testBit_continuation hhigh, decide_eq_true hlow]
  rw [bitsOf_word, hcont, bitsOf_congr (n := 5) (w := m) hm, bitsOf_congr (n := 5) (w := o) ho]

/-- Group k of n + 1 groups of 5 bits, counted from the front. -/
theorem take_drop_bitsOf {n k : Nat} (h : k ≤ n) (v : Nat) :
    ((bitsOf (5 * (n + 1)) v).drop (5 * k)).take 5 = bitsOf 5 (v / 32 ^ (n - k)) := by
  have hwidth : 5 * (n + 1) = 5 * k + (5 + 5 * (n - k)) := by omega
  rw [hwidth, bitsOf_add, List.drop_left' (length_bitsOf ..), bitsOf_add,
    List.take_left' (length_bitsOf ..), pow_mul]
  rfl

/-- Each turn of PENC's loop appends one word, with continuation 0 in the last turn only (R354). -/
theorem paramBits_eq_flatMap_range {n m o : Nat} (h : paramGroups m o = n + 1) :
    paramBits m o = (List.range (n + 1)).flatMap fun k =>
      bitsOf 11 (paramWord (decide (k < n)) (m / 32 ^ (n - k)) (o / 32 ^ (n - k))) := by
  simp only [paramBits, h, Config.groupBits, Nat.add_sub_cancel]
  refine List.flatMap_congr fun k hk => ?_
  have hk : k ≤ n := Nat.le_of_lt_succ (List.mem_range.mp hk)
  rw [take_drop_bitsOf hk, take_drop_bitsOf hk, bitsOf_paramWord]

/-- The block's bits are those of its words, 11 each. -/
theorem paramBits_eq {n m o : Nat} (h : paramGroups m o = n + 1) :
    paramBits m o = (paramBlock n m o).flatMap (bitsOf 11) := by
  have hcontinued : (List.range n).flatMap (fun k =>
      bitsOf 11 (paramWord (decide (k < n)) (m / 32 ^ (n - k)) (o / 32 ^ (n - k))))
        = (continuedWords n m o).flatMap (bitsOf 11) := by
    rw [continuedWords, List.flatMap_map]
    exact List.flatMap_congr fun k hk => by rw [decide_eq_true (List.mem_range.mp hk)]
  rw [paramBits_eq_flatMap_range h, List.range_succ, List.flatMap_append, List.flatMap_singleton,
    hcontinued, decide_eq_false (lt_irrefl n), Nat.sub_self, pow_zero, Nat.div_one, Nat.div_one,
    paramBlock, List.flatMap_append, List.flatMap_singleton]

theorem length_paramBlock (n m o : Nat) : (paramBlock n m o).length = n + 1 := by
  simp [paramBlock, continuedWords]

theorem length_paramBits {n m o : Nat} (h : paramGroups m o = n + 1) :
    (paramBits m o).length = 11 * (n + 1) := by
  rw [paramBits_eq h, length_flatMap_bitsOf, length_paramBlock]

theorem paramBlock_one_word {m o : Nat} (h : max m o < 32) : paramBlock 0 m o = [m * 32 + o] := by
  change [paramWord false m o] = _
  simp only [paramWord, Bool.toNat_false, List.cons.injEq, and_true]
  omega

theorem paramBlock_two_words {m o : Nat} (h : max m o < 1024) :
    paramBlock 1 m o = [1024 + m / 32 * 32 + o / 32, m % 32 * 32 + o % 32] := by
  change [paramWord true (m / 32) (o / 32), paramWord false m o] = _
  simp only [paramWord, Bool.toNat_true, Bool.toNat_false, List.cons.injEq, and_true]
  omega

theorem paramBlock_three_words {m o : Nat} (h : max m o < 32768) :
    paramBlock 2 m o = [1024 + m / 1024 * 32 + o / 1024,
      1024 + m / 32 % 32 * 32 + o / 32 % 32, m % 32 * 32 + o % 32] := by
  change [paramWord true (m / 1024) (o / 1024), paramWord true (m / 32) (o / 32),
    paramWord false m o] = _
  simp only [paramWord, Bool.toNat_true, Bool.toNat_false, List.cons.injEq, true_and, and_true]
  omega

/-! ## Reading the words back (R358, R360) -/

/-- The words before the last of n + 2 are the block of the higher groups, but for that block's last
continuation bit. -/
theorem continuedWords_succ (n m o : Nat) :
    continuedWords (n + 1) m o =
      continuedWords n (m / 32) (o / 32) ++ [paramWord true (m / 32) (o / 32)] := by
  have hpow : ∀ v, ∀ k < n, v / 32 ^ (n + 1 - k) = v / 32 / 32 ^ (n - k) := fun v k hk => by
    rw [Nat.div_div_eq_div_mul, ← pow_succ', Nat.succ_sub hk.le]
  rw [continuedWords, List.range_succ, List.map_append, continuedWords]
  congr 1
  · refine List.map_congr_left fun k hk => ?_
    have hk := List.mem_range.mp hk
    rw [hpow m k hk, hpow o k hk]
  · simp

/-- One more group behind those of v / 32. -/
theorem groups_succ (v n : Nat) : v / 32 % 32 ^ n * 32 + v % 32 = v % 32 ^ (n + 1) := by
  rw [pow_succ', Nat.mod_mul]
  omega

/-- The sums of PDEC's loop over the words of (m, o) are the last groups of m and of o. -/
theorem foldl_continuedWords (n m o : Nat) (cont : Bool) :
    (continuedWords n m o ++ [paramWord cont m o]).foldl (fun m w => m * 32 + w / 32 % 32) 0
        = m % 32 ^ (n + 1) ∧
      (continuedWords n m o ++ [paramWord cont m o]).foldl (fun o w => o * 32 + w % 32) 0
        = o % 32 ^ (n + 1) := by
  induction n generalizing m o cont with
  | zero => simpa [continuedWords] using paramWord_groups cont m o
  | succ n ih =>
    obtain ⟨hm, ho⟩ := paramWord_groups cont m o
    obtain ⟨ihm, iho⟩ := ih (m / 32) (o / 32) true
    rw [List.foldl_concat, List.foldl_concat, continuedWords_succ, ihm, iho, hm, ho]
    exact ⟨groups_succ m _, groups_succ o _⟩

/-- PDEC's loop on words that all continue: after `left` of them, or where fewer than 11 bits are left,
the block is not closed (R358). -/
theorem paramScan_unclosed (words : List Nat) {rest : BitString} {left : Nat} (m o : Nat)
    (hleft : words.length ≤ left) (hwords : ∀ w ∈ words, 1024 ≤ w ∧ w < 2048)
    (h : words.length = left ∨ rest.length < 11) :
    paramScan left (words.flatMap (bitsOf 11) ++ rest) m o = none := by
  induction words generalizing left m o with
  | nil =>
    cases left with
    | zero => rfl
    | succ left =>
      have hshort : rest.length < 11 := h.resolve_left (Nat.succ_ne_zero left).symm
      exact if_pos hshort
  | cons w words ih =>
    obtain ⟨left, rfl⟩ := Nat.exists_eq_succ_of_ne_zero (Nat.ne_zero_of_lt hleft)
    obtain ⟨⟨hcont, hw⟩, hwords⟩ := List.forall_mem_cons.mp hwords
    rw [List.flatMap_cons, List.append_assoc, paramScan_word hw, if_pos hcont]
    exact ih _ _ (Nat.le_of_succ_le_succ hleft) hwords (h.imp_left Nat.succ.inj)

/-! ## The commands PENC and PDEC -/

section

variable {s : State} {rs1 rs2 : Reg} (hm : 2 ≤ s.regNat rs1 ∧ s.regNat rs1 ≤ 4095)
  (ho : s.regNat rs2 ≤ 4095)
include hm ho

theorem exec_penc_eq : exec (.penc rs1 rs2) s =
    complete (.penc rs1 rs2) s (s.pushBack (paramBits (s.regNat rs1) (s.regNat rs2))) :=
  (complete_of_rangeOperand hm ..).trans <| complete_of_rangeOperand ⟨Nat.zero_le _, ho⟩ ..

variable {n : Nat} (hn : paramGroups (s.regNat rs1) (s.regNat rs2) = n + 1)
include hn

theorem exec_penc (hcap : s.bl + 11 * (n + 1) ≤ 4096) :
    exec (.penc rs1 rs2) s = .next { s with
      bb := s.bb ++ (paramBlock n (s.regNat rs1) (s.regNat rs2)).flatMap (bitsOf 11) } := by
  rw [exec_penc_eq hm ho, complete_pushBack (by rwa [length_paramBits hn]), paramBits_eq hn]

theorem exec_penc_capacity (hcap : 4096 < s.bl + 11 * (n + 1)) :
    exec (.penc rs1 rs2) s = .next (s.raise .capacity (encode (.penc rs1 rs2))) :=
  (exec_penc_eq hm ho).trans <| complete_pushBack_capacity (by rwa [length_paramBits hn]) _

end

/-- m is checked before o, and both checks raise the same class (R354). -/
theorem exec_penc_validation {s : State} {rs1 rs2 : Reg}
    (h : ¬ ((2 ≤ s.regNat rs1 ∧ s.regNat rs1 ≤ 4095) ∧ s.regNat rs2 ≤ 4095)) :
    exec (.penc rs1 rs2) s = .next (s.raise .validation (encode (.penc rs1 rs2))) := by
  by_cases hm : 2 ≤ s.regNat rs1 ∧ s.regNat rs1 ≤ 4095
  · exact (complete_of_rangeOperand hm ..).trans <|
      complete_of_not_rangeOperand (fun ho => h ⟨hm, ho.2⟩) ..
  · exact complete_of_not_rangeOperand hm ..

theorem exec_pdec_validation {s : State} (h : paramScan 3 s.bb 0 0 = none) (rd : Reg) :
    exec (.pdec rd) s = .next (s.raise .validation (encode (.pdec rd))) := by
  simp only [exec, execPdec, Config.paramMaxWords, h, complete_error]

/-! ## The claims about the mnemonic codec -/

/-- Settles O59: PENC's words are a block that PDEC reads, and its sums are the whole of m and o. -/
theorem parameterRoundTrip : Obligations.ParameterRoundTrip := by
  intro s rs1 rs2 rd hbb hm2 hm ho
  generalize hg : paramGroups (s.regNat rs1) (s.regNat rs2) = g
  have hmax : max (s.regNat rs1) (s.regNat rs2) < 32 ^ g := (paramGroups_le_iff ..).mp hg.le
  have hg3 : g ≤ 3 := hg ▸ (paramGroups_le_iff ..).mpr (max_lt (by omega) (by omega))
  obtain ⟨n, rfl⟩ : ∃ n, g = n + 1 := Nat.exists_eq_succ_of_ne_zero fun h0 => by
    rw [h0, pow_zero] at hmax
    omega
  have hbl : s.bl = 0 := List.length_eq_zero_iff.mpr hbb
  obtain ⟨u, hexec, hum, huo, hubb, -⟩ := pdecReadsTheParameterWords
    { s with bb := s.bb ++ (paramBlock n (s.regNat rs1) (s.regNat rs2)).flatMap (bitsOf 11) } rd
    (continuedWords n (s.regNat rs1) (s.regNat rs2)) (paramWord false (s.regNat rs1) (s.regNat rs2)) []
    (by rw [continuedWords, List.length_map, List.length_range]; omega)
    (List.forall_mem_map.mpr fun _ _ => paramWord_true_bounds ..) (paramWord_false_lt ..)
    (by rw [hbb, List.nil_append, List.append_nil, paramBlock])
  obtain ⟨hfoldm, hfoldo⟩ := foldl_continuedWords n (s.regNat rs1) (s.regNat rs2) false
  rw [hfoldm, Nat.mod_eq_of_lt ((le_max_left ..).trans_lt hmax)] at hum
  rw [hfoldo, Nat.mod_eq_of_lt ((le_max_right ..).trans_lt hmax)] at huo
  exact ⟨_, u, exec_penc ⟨hm2, hm⟩ ho hg (by omega), hexec, hum, huo, hubb⟩

/-- Settles O57: the ranges of max(m, o) are those of 1, 2 and 3 groups. -/
theorem pencAppendsTheParameterWords : Obligations.PencAppendsTheParameterWords := by
  intro s rs1 rs2 hm2 hm ho m o
  have hexec {n : Nat} (hlow : 32 ^ n ≤ max m o) (hhigh : max m o < 32 ^ (n + 1)) :=
    exec_penc (s := s) ⟨hm2, hm⟩ ho ((paramGroups_eq_succ_iff ..).mpr ⟨hlow, hhigh⟩)
  refine ⟨fun hhigh hcap => ?one, fun hlow hhigh hcap => ?two, fun hlow hcap => ?three⟩
  case one =>
    rw [hexec (n := 0) (by omega) hhigh hcap, paramBlock_one_word hhigh, List.flatMap_singleton]
  case two =>
    rw [hexec (n := 1) hlow hhigh hcap, paramBlock_two_words hhigh, List.flatMap_cons,
      List.flatMap_singleton]
  case three =>
    have hhigh : max m o < 32768 := by omega
    rw [hexec (n := 2) hlow hhigh hcap, paramBlock_three_words hhigh, List.flatMap_cons,
      List.flatMap_cons, List.flatMap_singleton]

/-- Settles O60: operands are checked before the room in the buffer, and PDEC's loop ends with no last
word. -/
theorem mnemonicCodecTraps : Obligations.MnemonicCodecTraps := by
  intro s rd rs1 rs2
  refine ⟨fun h => ?word, fun h hcap => ?wordFull, fun h => ?popWord, fun h => ?penc,
    fun hm2 hm ho hfull => ?pencFull, fun words rest hlen hwords hbb h => ?pdec⟩
  case word => exact complete_of_not_rangeOperand (by omega) ..
  case wordFull =>
    exact (complete_of_rangeOperand ⟨Nat.zero_le _, h⟩ ..).trans <|
      complete_pushBack_capacity (by rwa [length_bitsOf]) _
  case popWord => exact complete_popFront_capacity h ..
  case penc => exact exec_penc_validation (by omega)
  case pencFull =>
    have hexec {n : Nat} (hlow : 32 ^ n ≤ max (s.regNat rs1) (s.regNat rs2))
        (hhigh : max (s.regNat rs1) (s.regNat rs2) < 32 ^ (n + 1)) :=
      exec_penc_capacity ⟨hm2, hm⟩ ho ((paramGroups_eq_succ_iff ..).mpr ⟨hlow, hhigh⟩)
    obtain ⟨hhigh, hcap⟩ | ⟨hlow, hhigh, hcap⟩ | ⟨hlow, hcap⟩ := hfull
    · exact hexec (n := 0) (by omega) hhigh hcap
    · exact hexec (n := 1) hlow hhigh hcap
    · exact hexec (n := 2) hlow (by omega) hcap
  case pdec =>
    exact exec_pdec_validation (by rw [hbb]; exact paramScan_unclosed words 0 0 hlen hwords h) rd

end Sys2Proof.Machine
end

section
/-! SUPPORT. The block's errors (spec/60_exceptions.md): accesses while an error is latched (R412, R414,
R422), the reset that aborts a waiting CRAND (R417, R451), and which command raises which class of error
on what ground (R402 to R407). -/

namespace Sys2Proof.Machine

/-! ## Accesses while ERR = 1, and SRST while BUSY = 1 -/

/-- The registers R0 to R7 lie at multiples of 4 (R80, R82). -/
theorem offReg_mod_four (r : Reg) : (offReg r).toNat % 4 = 0 := by cases r <;> rfl

/-- Settles O6: of all accesses only a write to CMD looks at ERR. -/
theorem accessesWhileErr : Obligations.AccessesWhileErr := by
  intro s rest v hidle herr
  have hwrite {off : BitVec 8} (hoff : off.toNat % 4 = 0) := step_write (v := v) (rest := rest) hidle hoff
  refine ⟨fun h => ?cmd, fun off hoff h => ?read, fun r h => ?register, fun h => ?inseccnt,
    fun h => ?status, fun h => ?ctrl⟩
  case cmd =>
    calc step s = writeCmd { s with inbox := rest, reply := some .written } v := hwrite rfl h
      _ = .next { s with inbox := rest, reply := some .written } := if_pos herr
  case read => exact step_read hidle hoff h
  case register => exact (hwrite (offReg_mod_four r) h).trans (windowWrite_offReg ..)
  case inseccnt => exact hwrite rfl h
  case status => exact (hwrite rfl h).trans (congrArg Host.Outcome.next (writeStatus_eq ..))
  case ctrl => exact hwrite rfl h

/-- Settles O17: a write to CTRL is not held (R84), and `resetBlock` takes nothing from the command in
progress. -/
theorem srstAbortsAWaitingCrand : Obligations.SrstAbortsAWaitingCrand := by
  intro s before rest v hbusy hsrst hinbox hbefore
  have hctrl := (write_unheld_iff 0x04#8 4 v).mpr ⟨rfl, rfl⟩
  calc step s = perform (.write 0x04#8 4 v) { s with inbox := before ++ rest } :=
        step_of_busy hbusy hinbox hbefore hctrl
    _ = .next (State.writeCtrl { s with inbox := before ++ rest, reply := some .written } v) := rfl
    _ = .next (State.resetBlock { s with inbox := before ++ rest, reply := some .written }) :=
        congrArg Host.Outcome.next (if_pos hsrst)

/-! ## Which command raises which class (R402 to R407) -/

/-- On what ground a command can raise a class of error. ValidationError and CapacityError are raised by
many commands (R402, R406) and bear no condition here. -/
inductive ErrorCause (s : State) : Instr → ErrorClass → Prop where
  | validation (i : Instr) : ErrorCause s i .validation
  | capacity (i : Instr) : ErrorCause s i .capacity
  | fewShares (rd rs1 : Reg) (h : s.scount < s.thresh) :
      ErrorCause s (.interp rd rs1) .insufficientShares
  | width (imm : Nat) (h : imm < 3 ∨ 20 < imm) : ErrorCause s (.setb imm) .config
  | inverseOfZero (rd rs1 : Reg) (h : s.reg rs1 = 0#32) : ErrorCause s (.ginv rd rs1) .domain
  | logOfZero (rd rs1 : Reg) (h : s.reg rs1 = 0#32) : ErrorCause s (.glog rd rs1) .domain

/-- A check, an operand or a result is a value with the property `P` or an error for which `E` holds:
`Answers` with the errors' ground in place of R401's list. -/
def Ends {α : Type} (P : α → Prop) (E : ErrorClass → Prop) : Except ErrorClass α → Prop
  | .ok a => P a
  | .error e => E e

/-- A sequence of checks ends in an error of one of its parts. -/
theorem Ends.bind {α β : Type} {P : α → Prop} {Q : β → Prop} {E : ErrorClass → Prop}
    {x : Except ErrorClass α} {f : α → Except ErrorClass β} (hx : Ends P E x)
    (hf : ∀ a, P a → Ends Q E (f a)) : Ends Q E (x >>= f) := by
  cases x with
  | ok a => exact hf a hx
  | error e => exact hx

theorem ends_require {ok : Prop} [Decidable ok] {e : ErrorClass} {E : ErrorClass → Prop}
    (he : ¬ ok → E e) : Ends (fun _ => ok) E (require ok e) := by
  obtain ⟨hok, h⟩ | ⟨hnot, h⟩ := require_cases ok e <;> rw [h]
  exacts [hok, he hnot]

section

variable {s : State} {i : Instr}

theorem ends_fieldOperand (r : Reg) :
    Ends (fun v => v = s.regNat r) (ErrorCause s i) (s.fieldOperand r) := by
  obtain ⟨-, h⟩ | ⟨-, h⟩ := fieldOperand_cases s r <;> rw [h]
  exacts [rfl, .validation i]

theorem ends_rangeOperand (r : Reg) (lo hi : Nat) :
    Ends (fun v => v = s.regNat r) (ErrorCause s i) (s.rangeOperand r lo hi) := by
  obtain ⟨-, h⟩ | ⟨-, h⟩ := rangeOperand_cases s r lo hi <;> rw [h]
  exacts [rfl, .validation i]

theorem ends_groupWidth (imm : Nat) : Ends (fun w => w = imm) (ErrorCause s i) (groupWidth imm) := by
  obtain ⟨-, h⟩ | ⟨-, h⟩ := groupWidth_cases imm <;> rw [h]
  exacts [rfl, .validation i]

theorem ends_threshSet : Ends (fun _ => s.thresh ≠ 0) (ErrorCause s i) s.threshSet :=
  ends_require fun _ => .validation i

theorem ends_pushBack (bits : BitString) :
    Ends (fun t => t.err = s.err) (ErrorCause s i) (s.pushBack bits) := by
  obtain ⟨-, h⟩ | ⟨-, h⟩ := pushBack_cases s bits <;> rw [h]
  exacts [rfl, .capacity i]

theorem ends_pushFront (bits : BitString) :
    Ends (fun t => t.err = s.err) (ErrorCause s i) (s.pushFront bits) := by
  obtain ⟨-, h⟩ | ⟨-, h⟩ := pushFront_cases s bits <;> rw [h]
  exacts [rfl, .capacity i]

theorem ends_popFront (n : Nat) (rd : Reg) :
    Ends (fun t => t.err = s.err) (ErrorCause s i) (s.popFront n rd) := by
  obtain ⟨-, h⟩ | ⟨-, h⟩ := popFront_cases s n rd <;> rw [h]
  exacts [rfl, .capacity i]

/-- The operand check of GINV and GLOG fails on the operand 0 only (R405). -/
theorem ends_nonzeroOperand (r : Reg) {E : ErrorClass → Prop} (he : s.reg r = 0#32 → E .domain) {v : Nat}
    (hv : v = s.regNat r) : Ends (fun _ => v ≠ 0) E (require (v ≠ 0) .domain) :=
  ends_require fun h => he (by_contra fun hr => h (hv ▸ (regNat_ne_zero_iff s r).mpr hr))

end

/-- Every command is `complete` of a result that leaves ERR alone or is an error on one of the grounds of
`ErrorCause`: the checks in each rule's Exceptions line, in its order (R416). -/
theorem exec_ends (i : Instr) (s : State) :
    ∃ r, exec i s = complete i s r ∧ Ends (fun t => t.err = s.err) (ErrorCause s i) r := by
  cases i
  case li | mov | gexp | cclr | sclr | bclr => exact ⟨.ok _, rfl, rfl⟩
  all_goals refine ⟨_, rfl, ?_⟩
  case setb imm =>
    have hrange : ¬ (3 ≤ imm ∧ imm ≤ 20) → imm < 3 ∨ 20 < imm := by omega
    exact (ends_require fun h => .width imm (hrange h)).bind fun _ _ => rfl
  case interp rd rs1 =>
    exact ends_threshSet.bind fun _ _ => (ends_fieldOperand rs1).bind fun _ _ =>
      (ends_require fun h => .fewShares rd rs1 (Nat.not_le.mp h)).bind fun _ _ => rfl
  case ginv rd rs1 =>
    exact (ends_fieldOperand rs1).bind fun _ hv =>
      (ends_nonzeroOperand rs1 (.inverseOfZero rd rs1) hv).bind fun _ _ => rfl
  case glog rd rs1 =>
    exact (ends_fieldOperand rs1).bind fun _ hv =>
      (ends_nonzeroOperand rs1 (.logOfZero rd rs1) hv).bind fun _ _ => rfl
  case sett => exact (ends_rangeOperand ..).bind fun _ _ => rfl
  case gadd | gmul =>
    exact (ends_fieldOperand _).bind fun _ _ => (ends_fieldOperand _).bind fun _ _ => rfl
  case gpow => exact (ends_fieldOperand _).bind fun _ _ => rfl
  case cpush =>
    exact ends_threshSet.bind fun _ _ => (ends_fieldOperand _).bind fun _ _ =>
      (ends_require fun _ => .capacity _).bind fun _ _ => rfl
  case crand =>
    refine ends_threshSet.bind fun _ _ => ?_
    show State.err (ite ..) = s.err
    split
    · rfl
    · split
      · exact (commandFrame_drawSecure ..).err
      · rfl
  case eval =>
    exact ends_threshSet.bind fun _ _ => (ends_fieldOperand _).bind fun _ _ =>
      (ends_require fun _ => .validation _).bind fun _ _ =>
      (ends_require fun _ => .validation _).bind fun _ _ => rfl
  case sadd =>
    refine (ends_fieldOperand _).bind fun _ _ => (ends_fieldOperand _).bind fun _ _ =>
      (ends_require fun _ => .validation _).bind fun _ _ => ?_
    split
    · rfl
    · split
      · exact .capacity _
      · rfl
  case bpushh | bpushw => exact (ends_rangeOperand ..).bind fun _ _ => ends_pushBack _
  case bpushe => exact (ends_fieldOperand _).bind fun _ _ => ends_pushBack _
  case penc =>
    exact (ends_rangeOperand ..).bind fun _ _ => (ends_rangeOperand ..).bind fun _ _ => ends_pushBack _
  case bpoph | bpopw => exact ends_popFront ..
  case bpope => exact (ends_require fun _ => .capacity _).bind fun _ _ => rfl
  case blpad | balign => exact (ends_groupWidth _).bind fun _ _ => ends_pushFront _
  case btrim => exact (ends_groupWidth _).bind fun _ _ => rfl
  case bsent => exact ends_pushFront _
  case bstrip => exact (ends_require fun _ => .validation _).bind fun _ _ => rfl
  case pdec =>
    split
    · exact .validation _
    · rfl

/-- A command that sets ERR has raised a class of error, and on a ground for it (R410). -/
theorem exec_error_cause {i : Instr} {s t : State} (herr : s.err = false) (hexec : exec i s = .next t)
    (hraised : t.err = true) : ∃ e, ErrorCause s i e ∧ t = s.raise e (encode i) := by
  obtain ⟨r, hr, hends⟩ := exec_ends i s
  rw [hr] at hexec
  cases r with
  | ok u =>
    obtain rfl := Host.Outcome.next.inj hexec
    have hkept : u.err = s.err := hends
    rw [hkept, herr] at hraised
    cases hraised
  | error e => exact ⟨e, hends, (Host.Outcome.next.inj hexec).symm⟩

/-- Settles O24: the code names the class, and the class its grounds. -/
theorem errorClassesHaveTheirCommands : Obligations.ErrorClassesHaveTheirCommands := by
  intro i s t herr hexec hraised
  obtain ⟨e, hcause, rfl⟩ := exec_error_cause herr hexec hraised
  rw [raise_errcode]
  cases hcause with
  | validation | capacity => simp [errorCode]
  | fewShares rd rs1 hfew => simp [errorCode, hfew]
  | width imm hwidth => simp [errorCode, hwidth]
  | inverseOfZero rd rs1 hzero | logOfZero rd rs1 hzero => simp [errorCode, hzero]

end Sys2Proof.Machine
end

section
/-! SUPPORT. Reset (spec/70_reset_and_hazards.md R450 to R452) and the one hazard that stops a step: a
CRAND that nothing can answer any more (R464). -/

namespace Sys2Proof.Machine

/-! ## The reset table (R452) -/

/-- A block starts where a reset would bring it, so the table holds of both once it holds of `resetBlock`. -/
theorem resetBlock_reset : State.reset.resetBlock = State.reset := rfl

@[simp] theorem reset_prim : State.reset.prim = defaultPrimTable := rfl

@[simp] theorem resetBlock_reg (s : State) (r : Reg) : s.resetBlock.reg r = 0#32 := by cases r <;> rfl
@[simp] theorem resetBlock_fill (s : State) : s.resetBlock.fill = 0 := rfl
@[simp] theorem resetBlock_scount (s : State) : s.resetBlock.scount = 0 := rfl
@[simp] theorem resetBlock_bl (s : State) : s.resetBlock.bl = 0 := rfl
@[simp] theorem resetBlock_busy (s : State) : s.resetBlock.busy = false := rfl
@[simp] theorem resetBlock_entReq (s : State) : s.resetBlock.entReq = false := rfl

theorem windowRead_ctrl (s : State) : windowRead s 0x04#8 = 0#32 := rfl

theorem windowRead_id (s : State) : windowRead s 0x00#8 = 0x53333901#32 := rfl

/-- Settles O14, as the table of a block that was reset. -/
theorem resetStateHasTheResetTable : Obligations.ResetStateHasTheResetTable := by
  unfold Obligations.ResetStateHasTheResetTable
  rw [← resetBlock_reset]
  simp

/-- RST and a write of CTRL.SRST are never held, so the step resets the block even while a CRAND waits;
they differ in the bus response alone (R450, R451). -/
theorem step_of_reset {s : State} {rest : List Input} {v : Word} (hsrst : v.getLsbD 0 = true)
    (hinbox : s.inbox = .rst :: rest ∨ s.inbox = .write 0x04#8 4 v :: rest) :
    ∃ reply, step s = .next (State.resetBlock { s with inbox := rest, reply := reply }) := by
  obtain hrst | hctrl := hinbox
  · exact ⟨s.reply, step_of_head_unheld hrst rfl⟩
  · refine ⟨some .written, ?_⟩
    calc step s = perform (.write 0x04#8 4 v) { s with inbox := rest } :=
          step_of_head_unheld hctrl ((write_unheld_iff _ _ v).mpr ⟨rfl, rfl⟩)
      _ = .next (State.writeCtrl { s with inbox := rest, reply := some .written } v) := rfl
      _ = .next (State.resetBlock { s with inbox := rest, reply := some .written }) :=
          congrArg Host.Outcome.next (if_pos hsrst)

/-- Settles O13: either way the next state is `resetBlock` of one that has the old inputs and PRIM. -/
theorem resetGivesTheResetTable : Obligations.ResetGivesTheResetTable := by
  intro s rest v hsrst hinbox
  obtain ⟨reply, hstep⟩ := step_of_reset hsrst hinbox
  refine ⟨_, hstep, resetBlock_reg _, ?_⟩
  simp [windowRead_ctrl, windowRead_id]

/-! ## The step that stops (R464) -/

theorem writeCmd_answers (s : State) (word : Word) : ∃ t, writeCmd s word = .next t := by
  obtain ⟨-, hw⟩ | ⟨-, i, -, hw⟩ | ⟨-, -, hw⟩ := writeCmd_cases s word <;> rw [hw]
  · exact ⟨_, rfl⟩
  · obtain ⟨t, hexec, -⟩ := commandsAreAtomic i s
    exact ⟨t, hexec⟩
  · exact ⟨_, rfl⟩

theorem windowWrite_answers (s : State) (offset : BitVec 8) (v : Word) :
    ∃ t, windowWrite s offset v = .next t := by
  have heffect := windowWrite_effect s offset v
  generalize windowWrite s offset v = o at heffect ⊢
  cases heffect with
  | command _ ho => exact ho ▸ writeCmd_answers s v
  | ctrl | status | inseccnt | register | ignored => exact ⟨_, rfl⟩

/-- No input faults or is refused: the commands answer (`commandsAreAtomic`), and so do all the others. -/
theorem perform_answers (i : Input) (s : State) : ∃ t, perform i s = .next t := by
  cases i with
  | read offset bytes =>
    simp only [perform]
    split <;> exact ⟨_, rfl⟩
  | write offset bytes v =>
    simp only [perform]
    split
    · exact windowWrite_answers ..
    · exact ⟨_, rfl⟩
  | rst | entLevel | entReply => exact ⟨_, rfl⟩

theorem takeUnheld_eq_none_iff {l : List Input} :
    takeUnheld l = none ↔ ∀ j ∈ l, heldWhileBusy j = true := by
  refine ⟨fun hnone j hj => ?_, takeUnheld_none l⟩
  induction l with
  | nil => cases hj
  | cons i l ih =>
    rw [takeUnheld] at hnone
    split at hnone
    next hheld =>
      obtain rfl | hj := List.mem_cons.mp hj
      · exact hheld
      · exact ih (Option.map_eq_none_iff.mp hnone) hj
    · cases hnone

/-- A CRAND waits and every input left is held, so that nothing can end the wait (R464, 93 U8). -/
def StuckAwaitingEntropy (s : State) : Prop :=
  s.busy = true ∧ ∀ j ∈ s.inbox, heldWhileBusy j = true

theorem step_of_stuck {s : State} (h : StuckAwaitingEntropy s) :
    step s = .fault .stuckAwaitingEntropy := by
  obtain ⟨hbusy, hheld⟩ := h
  simp [step, stepBlock, nextInput, hbusy, takeUnheld_none s.inbox hheld]

theorem step_of_not_stuck {s : State} (h : ¬ StuckAwaitingEntropy s) : ∃ t, step s = .next t := by
  cases hnext : nextInput s with
  | some p =>
    obtain ⟨i, rest⟩ := p
    rw [step_of_nextInput hnext]
    exact perform_answers i _
  | none =>
    have hidle : ¬ s.busy = true := fun hbusy =>
      h ⟨hbusy, takeUnheld_eq_none_iff.mp (by rwa [nextInput, if_pos hbusy] at hnext)⟩
    exact ⟨s, by simp [step, stepBlock, hnext, hidle]⟩

/-- Settles O16: a stuck block faults, and any other has a next state. -/
theorem stepStopsOnlyAtAnUnansweredCrand : Obligations.StepStopsOnlyAtAnUnansweredCrand := by
  intro s
  by_cases hstuck : StuckAwaitingEntropy s
  · have hstep := step_of_stuck hstuck
    refine ⟨fun f => ⟨fun hfault => ?_, fun ⟨hf, _⟩ => hf ▸ hstep⟩, fun r => by simp [hstep]⟩
    exact ⟨Host.Outcome.fault.inj (hfault.symm.trans hstep), hstuck⟩
  · obtain ⟨t, hstep⟩ := step_of_not_stuck hstuck
    refine ⟨fun f => ⟨fun hfault => ?_, fun ⟨_, hs⟩ => absurd hs hstuck⟩, fun r => by simp [hstep]⟩
    cases hstep.symm.trans hfault

end Sys2Proof.Machine
end
